-- ==== Sys2Proof/Word.lean ====
section
/-! DEFINITION. The word types of the machine (spec 10_state.md R20, R24, R25; 00_scope.md R14). -/

namespace Sys2Proof

/-- A register, a memory byte, a cell of the framebuffer: 8 bits, unsigned (R10). -/
abbrev Byte := BitVec 8

/-- An address, the pc, the index register, an instruction word: 16 bits, unsigned (R10). -/
abbrev Word := BitVec 16

/-- A register index, V0 to VF (R14, R20). -/
abbrev Reg := BitVec 4

/-- The index of the flag register VF (R7, R21). -/
abbrev Reg.flag : Reg := 0xF#4

end Sys2Proof
end

