-- ==== Sys2Proof/Syntax.lean ====
section
/-! DEFINITION. The 49 instructions of spec/opcode_table.json, one constructor each, in the table's order. -/

namespace Sys2Proof

/-- An instruction with its operand fields (00_scope.md R14, 30_encoding.md R81 to R87). -/
inductive Instr where
  /-- `00E0` CLS, clear the selected planes (42 R151). -/
  | cls
  /-- `00EE` RET, return from subroutine (41 R134). -/
  | ret
  /-- `00CN` SCD, scroll down N pixels (42 R156). -/
  | scd (n : BitVec 4)
  /-- `00DN` SCU, scroll up N pixels (42 R157). -/
  | scu (n : BitVec 4)
  /-- `00FB` SCR, scroll right 4 pixels (42 R158). -/
  | scr
  /-- `00FC` SCL, scroll left 4 pixels (42 R159). -/
  | scl
  /-- `00FD` EXIT, halt (41 R136). -/
  | exit
  /-- `00FE` LOW, low resolution (42 R153). -/
  | low
  /-- `00FF` HIGH, high resolution (42 R154). -/
  | high
  /-- `1NNN` JP (41 R130). -/
  | jp (nnn : BitVec 12)
  /-- `2NNN` CALL (41 R133). -/
  | call (nnn : BitVec 12)
  /-- `3XNN` SE_IMM, skip if VX = NN (41 R139). -/
  | seImm (x : Reg) (nn : Byte)
  /-- `4XNN` SNE_IMM, skip if VX ≠ NN (41 R140). -/
  | sneImm (x : Reg) (nn : Byte)
  /-- `5XY0` SE_REG, skip if VX = VY (41 R141). -/
  | seReg (x y : Reg)
  /-- `5XY2` SAVE_RANGE, store VX..VY at I (48 R280). -/
  | saveRange (x y : Reg)
  /-- `5XY3` LOAD_RANGE, load VX..VY from I (48 R281). -/
  | loadRange (x y : Reg)
  /-- `6XNN` LD_IMM (44 R190). -/
  | ldImm (x : Reg) (nn : Byte)
  /-- `7XNN` ADD_IMM (44 R191). -/
  | addImm (x : Reg) (nn : Byte)
  /-- `8XY0` LD_REG (43 R171). -/
  | ldReg (x y : Reg)
  /-- `8XY1` OR (43 R172). -/
  | orReg (x y : Reg)
  /-- `8XY2` AND (43 R173). -/
  | andReg (x y : Reg)
  /-- `8XY3` XOR (43 R174). -/
  | xorReg (x y : Reg)
  /-- `8XY4` ADD (43 R175). -/
  | addReg (x y : Reg)
  /-- `8XY5` SUB (43 R176). -/
  | subReg (x y : Reg)
  /-- `8XY6` SHR (43 R177). -/
  | shr (x y : Reg)
  /-- `8XY7` SUBN (43 R178). -/
  | subn (x y : Reg)
  /-- `8XYE` SHL (43 R179). -/
  | shl (x y : Reg)
  /-- `9XY0` SNE_REG, skip if VX ≠ VY (41 R142). -/
  | sneReg (x y : Reg)
  /-- `ANNN` LD_I (44 R192). -/
  | ldI (nnn : BitVec 12)
  /-- `BNNN` JP_V0 (41 R135). -/
  | jpV0 (nnn : BitVec 12)
  /-- `CXNN` RND (44 R196). -/
  | rnd (x : Reg) (nn : Byte)
  /-- `DXYN` DRW (45 R217). -/
  | drw (x y : Reg) (n : BitVec 4)
  /-- `EX9E` SKP, skip if key VX is down (46 R241). -/
  | skp (x : Reg)
  /-- `EXA1` SKNP, skip if key VX is up (46 R242). -/
  | sknp (x : Reg)
  /-- `F000 NNNN` LD_I_LONG, the 4-byte long form (44 R193). -/
  | ldILong (nnnn : Word)
  /-- `FN01` PLANE; the field is the 4-bit candidate mask, legal for 0 to 3 only (42 R161, 30 R83). -/
  | plane (n : BitVec 4)
  /-- `F002` AUDIO (49 R310). -/
  | audio
  /-- `FX07` LD_VX_DT (47 R260). -/
  | ldVxDt (x : Reg)
  /-- `FX0A` LD_VX_K, wait for a key (46 R243). -/
  | ldVxK (x : Reg)
  /-- `FX15` LD_DT (47 R261). -/
  | ldDt (x : Reg)
  /-- `FX18` LD_ST (47 R262). -/
  | ldSt (x : Reg)
  /-- `FX1E` ADD_I (44 R194). -/
  | addI (x : Reg)
  /-- `FX29` LD_F (48 R284). -/
  | ldF (x : Reg)
  /-- `FX30` LD_HF (48 R285). -/
  | ldHf (x : Reg)
  /-- `FX33` BCD (48 R286). -/
  | bcd (x : Reg)
  /-- `FX55` SAVE, store V0..VX at I (48 R282). -/
  | save (x : Reg)
  /-- `FX65` LOAD, load V0..VX from I (48 R283). -/
  | load (x : Reg)
  /-- `FX75` SAVEFLAGS (48 R287). -/
  | saveFlags (x : Reg)
  /-- `FX85` LOADFLAGS (48 R288). -/
  | loadFlags (x : Reg)
  deriving DecidableEq, Repr

end Sys2Proof
end

