-- ==== Sys2Proof/WellFormed.lean ====
section
/-! DEFINITION. Which terms of `Instr` the encoding has words for (30_encoding.md R83, R89). Every field but one is legal
at every value its width holds, so the types carry those checks; the plane mask of FN01 is 4 bits wide and legal for 0
to 3 only. -/

namespace Sys2Proof

/-- The instruction has an encoding: the mask of PLANE is at most 3 (42_display.md R161). -/
def Instr.wellFormed : Instr → Bool
  | .cls => true
  | .ret => true
  | .scd _ => true
  | .scu _ => true
  | .scr => true
  | .scl => true
  | .exit => true
  | .low => true
  | .high => true
  | .jp _ => true
  | .call _ => true
  | .seImm _ _ => true
  | .sneImm _ _ => true
  | .seReg _ _ => true
  | .saveRange _ _ => true
  | .loadRange _ _ => true
  | .ldImm _ _ => true
  | .addImm _ _ => true
  | .ldReg _ _ => true
  | .orReg _ _ => true
  | .andReg _ _ => true
  | .xorReg _ _ => true
  | .addReg _ _ => true
  | .subReg _ _ => true
  | .shr _ _ => true
  | .subn _ _ => true
  | .shl _ _ => true
  | .sneReg _ _ => true
  | .ldI _ => true
  | .jpV0 _ => true
  | .rnd _ _ => true
  | .drw _ _ _ => true
  | .skp _ => true
  | .sknp _ => true
  | .ldILong _ => true
  | .plane n => decide (n ≤ 3#4)
  | .audio => true
  | .ldVxDt _ => true
  | .ldVxK _ => true
  | .ldDt _ => true
  | .ldSt _ => true
  | .addI _ => true
  | .ldF _ => true
  | .ldHf _ => true
  | .bcd _ => true
  | .save _ => true
  | .load _ => true
  | .saveFlags _ => true
  | .loadFlags _ => true

end Sys2Proof
end

