-- ==== Sys2Proof/Decode.lean ====
section
/-! DEFINITION. The decoder of 30_encoding.md R88, total on any word and any bytes, rejecting by name (R89), and the
encoder written from the same tables (R85 to R87). -/

namespace Sys2Proof

/-! The fields of an instruction word (R81; 00_scope.md R14). -/

/-- G = w[15:12], the primary group. -/
def fieldG (w : Word) : BitVec 4 := w.extractLsb' 12 4
/-- X = w[11:8]. -/
def fieldX (w : Word) : BitVec 4 := w.extractLsb' 8 4
/-- Y = w[7:4]. -/
def fieldY (w : Word) : BitVec 4 := w.extractLsb' 4 4
/-- N = w[3:0]. -/
def fieldN (w : Word) : BitVec 4 := w.extractLsb' 0 4
/-- NN = w[7:0]. -/
def fieldNN (w : Word) : Byte := w.extractLsb' 0 8
/-- NNN = w[11:0]. -/
def fieldNNN (w : Word) : BitVec 12 := w.extractLsb' 0 12

/-- The word made of two bytes: the byte at the lower address is the high byte (20_memory.md R61). -/
def wordOf (hi lo : Byte) : Word := hi ++ lo
/-- The high byte of a word, the one at the lower address (R61). -/
def highByte (w : Word) : Byte := w.extractLsb' 8 8
/-- The low byte of a word, the one at the higher address (R61). -/
def lowByte (w : Word) : Byte := w.extractLsb' 0 8

/-- The first word of the long form; a word is the first of a 4-byte instruction if and only if it is this one (R91). -/
def longWord : Word := 0xF000#16

/-! The sub-operations of the groups (R85 to R88). -/

/-- Group 0 (R85). -/
def decodeGroup0 (w : Word) : Option Instr :=
  if fieldX w = 0x0#4 ∧ fieldY w = 0xC#4 then some (.scd (fieldN w))
  else if fieldX w = 0x0#4 ∧ fieldY w = 0xD#4 then some (.scu (fieldN w))
  else if w = 0x00E0#16 then some .cls
  else if w = 0x00EE#16 then some .ret
  else if w = 0x00FB#16 then some .scr
  else if w = 0x00FC#16 then some .scl
  else if w = 0x00FD#16 then some .exit
  else if w = 0x00FE#16 then some .low
  else if w = 0x00FF#16 then some .high
  else none

/-- Group 5, by N (R86). -/
def decodeGroup5 (x y n : BitVec 4) : Option Instr :=
  if n = 0x0#4 then some (.seReg x y)
  else if n = 0x2#4 then some (.saveRange x y)
  else if n = 0x3#4 then some (.loadRange x y)
  else none

/-- Group 8, by N (R86). -/
def decodeGroup8 (x y n : BitVec 4) : Option Instr :=
  if n = 0x0#4 then some (.ldReg x y)
  else if n = 0x1#4 then some (.orReg x y)
  else if n = 0x2#4 then some (.andReg x y)
  else if n = 0x3#4 then some (.xorReg x y)
  else if n = 0x4#4 then some (.addReg x y)
  else if n = 0x5#4 then some (.subReg x y)
  else if n = 0x6#4 then some (.shr x y)
  else if n = 0x7#4 then some (.subn x y)
  else if n = 0xE#4 then some (.shl x y)
  else none

/-- Group E, by NN (R87). -/
def decodeGroupE (x : BitVec 4) (nn : Byte) : Option Instr :=
  if nn = 0x9E#8 then some (.skp x)
  else if nn = 0xA1#8 then some (.sknp x)
  else none

/-- Group F, by NN, and by X for F000, FN01 and F002 (R87). -/
def decodeGroupF (x : BitVec 4) (nn : Byte) (next : Word) : Option Instr :=
  if nn = 0x00#8 then (if x = 0x0#4 then some (.ldILong next) else none)
  else if nn = 0x01#8 then (if x ≤ 0x3#4 then some (.plane x) else none)
  else if nn = 0x02#8 then (if x = 0x0#4 then some .audio else none)
  else if nn = 0x07#8 then some (.ldVxDt x)
  else if nn = 0x0A#8 then some (.ldVxK x)
  else if nn = 0x15#8 then some (.ldDt x)
  else if nn = 0x18#8 then some (.ldSt x)
  else if nn = 0x1E#8 then some (.addI x)
  else if nn = 0x29#8 then some (.ldF x)
  else if nn = 0x30#8 then some (.ldHf x)
  else if nn = 0x33#8 then some (.bcd x)
  else if nn = 0x55#8 then some (.save x)
  else if nn = 0x65#8 then some (.load x)
  else if nn = 0x75#8 then some (.saveFlags x)
  else if nn = 0x85#8 then some (.loadFlags x)
  else none

/-- `decode` of R88: the instruction of the word `w`, or none where R88 says Invalid. `next` is the word after `w`, used
by the long form only. -/
def decodeWord (w next : Word) : Option Instr :=
  let g := fieldG w
  let x := fieldX w
  if g = 0x0#4 then decodeGroup0 w
  else if g = 0x1#4 then some (.jp (fieldNNN w))
  else if g = 0x2#4 then some (.call (fieldNNN w))
  else if g = 0x3#4 then some (.seImm x (fieldNN w))
  else if g = 0x4#4 then some (.sneImm x (fieldNN w))
  else if g = 0x5#4 then decodeGroup5 x (fieldY w) (fieldN w)
  else if g = 0x6#4 then some (.ldImm x (fieldNN w))
  else if g = 0x7#4 then some (.addImm x (fieldNN w))
  else if g = 0x8#4 then decodeGroup8 x (fieldY w) (fieldN w)
  else if g = 0x9#4 then (if fieldN w = 0x0#4 then some (.sneReg x (fieldY w)) else none)
  else if g = 0xA#4 then some (.ldI (fieldNNN w))
  else if g = 0xB#4 then some (.jpV0 (fieldNNN w))
  else if g = 0xC#4 then some (.rnd x (fieldNN w))
  else if g = 0xD#4 then some (.drw x (fieldY w) (fieldN w))
  else if g = 0xE#4 then decodeGroupE x (fieldNN w)
  else decodeGroupF x (fieldNN w) next

/-- Why bytes are no instruction. -/
inductive DecodeError where
  /-- The word decodes Invalid (R89). -/
  | invalidInstruction (w : Word)
  /-- The bytes end inside an instruction. -/
  | truncated
  deriving DecidableEq, Repr

/-- The instruction at the head of a list of bytes, and the bytes after it (R81, R88, R91). -/
def decode : List Byte → Except DecodeError (Instr × List Byte)
  | b0 :: b1 :: rest =>
    if wordOf b0 b1 = longWord then
      match rest with
      | b2 :: b3 :: rest' =>
        match decodeWord (wordOf b0 b1) (wordOf b2 b3) with
        | some i => .ok (i, rest')
        | none => .error (.invalidInstruction (wordOf b0 b1))
      | _ => .error .truncated
    else
      match decodeWord (wordOf b0 b1) 0#16 with
      | some i => .ok (i, rest)
      | none => .error (.invalidInstruction (wordOf b0 b1))
  | _ => .error .truncated

/-! The encoder. -/

/-- The first (for all but the long form, the only) word of an instruction (R85 to R87). -/
def Instr.word : Instr → Word
  | .cls => 0x00E0#16
  | .ret => 0x00EE#16
  | .scd n => 0x00C#12 ++ n
  | .scu n => 0x00D#12 ++ n
  | .scr => 0x00FB#16
  | .scl => 0x00FC#16
  | .exit => 0x00FD#16
  | .low => 0x00FE#16
  | .high => 0x00FF#16
  | .jp nnn => 0x1#4 ++ nnn
  | .call nnn => 0x2#4 ++ nnn
  | .seImm x nn => 0x3#4 ++ x ++ nn
  | .sneImm x nn => 0x4#4 ++ x ++ nn
  | .seReg x y => 0x5#4 ++ x ++ y ++ 0x0#4
  | .saveRange x y => 0x5#4 ++ x ++ y ++ 0x2#4
  | .loadRange x y => 0x5#4 ++ x ++ y ++ 0x3#4
  | .ldImm x nn => 0x6#4 ++ x ++ nn
  | .addImm x nn => 0x7#4 ++ x ++ nn
  | .ldReg x y => 0x8#4 ++ x ++ y ++ 0x0#4
  | .orReg x y => 0x8#4 ++ x ++ y ++ 0x1#4
  | .andReg x y => 0x8#4 ++ x ++ y ++ 0x2#4
  | .xorReg x y => 0x8#4 ++ x ++ y ++ 0x3#4
  | .addReg x y => 0x8#4 ++ x ++ y ++ 0x4#4
  | .subReg x y => 0x8#4 ++ x ++ y ++ 0x5#4
  | .shr x y => 0x8#4 ++ x ++ y ++ 0x6#4
  | .subn x y => 0x8#4 ++ x ++ y ++ 0x7#4
  | .shl x y => 0x8#4 ++ x ++ y ++ 0xE#4
  | .sneReg x y => 0x9#4 ++ x ++ y ++ 0x0#4
  | .ldI nnn => 0xA#4 ++ nnn
  | .jpV0 nnn => 0xB#4 ++ nnn
  | .rnd x nn => 0xC#4 ++ x ++ nn
  | .drw x y n => 0xD#4 ++ x ++ y ++ n
  | .skp x => 0xE#4 ++ x ++ 0x9E#8
  | .sknp x => 0xE#4 ++ x ++ 0xA1#8
  | .ldILong _ => 0xF000#16
  | .plane n => 0xF#4 ++ n ++ 0x01#8
  | .audio => 0xF002#16
  | .ldVxDt x => 0xF#4 ++ x ++ 0x07#8
  | .ldVxK x => 0xF#4 ++ x ++ 0x0A#8
  | .ldDt x => 0xF#4 ++ x ++ 0x15#8
  | .ldSt x => 0xF#4 ++ x ++ 0x18#8
  | .addI x => 0xF#4 ++ x ++ 0x1E#8
  | .ldF x => 0xF#4 ++ x ++ 0x29#8
  | .ldHf x => 0xF#4 ++ x ++ 0x30#8
  | .bcd x => 0xF#4 ++ x ++ 0x33#8
  | .save x => 0xF#4 ++ x ++ 0x55#8
  | .load x => 0xF#4 ++ x ++ 0x65#8
  | .saveFlags x => 0xF#4 ++ x ++ 0x75#8
  | .loadFlags x => 0xF#4 ++ x ++ 0x85#8

/-- The words of an instruction: two for the long form, else one (R81, R91). -/
def encode (i : Instr) : List Word :=
  match i with
  | .ldILong nnnn => [i.word, nnnn]
  | _ => [i.word]

/-- Words as bytes in memory order, the high byte first (20_memory.md R61). -/
def bytesOfWords : List Word → List Byte
  | [] => []
  | w :: ws => highByte w :: lowByte w :: bytesOfWords ws

/-- The length of an instruction in bytes (R91). -/
def Instr.length (i : Instr) : Nat :=
  if i.word = longWord then 4 else 2

/-! The numbering of spec/opcode_table.json: bit 0 is the least significant bit of the first word. -/

/-- The four bytes, in memory order, of an instruction whose bits are `w` in the table's numbering, the bits above
`nbits` zero. -/
def tableBytes (nbits w : Nat) : List Byte :=
  let bits := w % 2 ^ nbits
  bytesOfWords [BitVec.ofNat 16 bits, BitVec.ofNat 16 (bits / 65536)]

/-- The instruction the decoder reads from a table word, none where it refuses. -/
def decodeTableWord (nbits w : Nat) : Option Instr :=
  match decode (tableBytes nbits w) with
  | .ok (i, _) => some i
  | .error _ => none

end Sys2Proof
end

