-- ==== Sys2Proof/Machine/Sparse.lean ====
section
/-! DEFINITION. Numbered bytes held as a list of the ones that differ from a default: memory (20_memory.md R60) and the
framebuffer's cells (10_state.md R30) are both of this kind. -/

namespace Sys2Proof.Machine

/-- The byte numbered `k`: the first listed one, else the default. -/
def sparseGet (d : Nat → Byte) : List Host.Cell → Nat → Byte
  | [], k => d k
  | c :: m, k => if c.1 = k then c.2 else sparseGet d m k

/-- List the byte `b` under `k`, in order, in place of the one listed there. -/
def sparseInsert (k : Nat) (b : Byte) : List Host.Cell → List Host.Cell
  | [] => [(k, b)]
  | c :: m =>
    if k < c.1 then (k, b) :: c :: m
    else if k = c.1 then (k, b) :: m
    else c :: sparseInsert k b m

/-- Make the byte numbered `k` the byte `b`: no entry where that is the default. -/
def sparseSet (d : Nat → Byte) (m : List Host.Cell) (k : Nat) (b : Byte) : List Host.Cell :=
  if b = d k then m.filter (fun c => c.1 ≠ k) else sparseInsert k b m

/-- Canonical form: numbers strictly rising and below `bound`, and no entry equal to the default. -/
abbrev sparseWf (d : Nat → Byte) (bound : Nat) (m : List Host.Cell) : Prop :=
  m.Pairwise (fun a b => a.1 < b.1) ∧ ∀ c ∈ m, c.1 < bound ∧ c.2 ≠ d c.1

end Sys2Proof.Machine
end

