-- ==== Sys2Proof/Config.lean ====
section
/-! DEFINITION. What an implementation or the host fixes: the configuration inputs of 00_scope.md R8, the open
parameters of R9, what the host asks for and answers during one step (40_cycle.md R120), and the free values. -/

namespace Sys2Proof

/-- The four quirks (R8). The spec fixes no default: a claim states the configuration it assumes. -/
structure Quirks where
  /-- `cfg.shift_vx`: true, a shift's source is VX; false, VY. -/
  shiftVx : Bool
  /-- `cfg.index_increment`: true, a block transfer adds the range length to I. -/
  indexIncrement : Bool
  /-- `cfg.sprite_clip`: true, sprite pixels beyond the right or bottom edge are clipped; false, they wrap. -/
  spriteClip : Bool
  /-- `cfg.vf_flag_last`: true, the flag is written after the result; false, before it. -/
  vfFlagLast : Bool
  deriving DecidableEq, Repr, Inhabited

/-- What the host calls when no tick is in progress (R120): `Tick()` or `Load(data, size)`. -/
inductive HostCall where
  | tick
  | load (image : List Byte)
  deriving DecidableEq, Repr, Inhabited

/-- One call of `Generate(rate, n)` by the backend's audio callback (49_audio.md R314). The rate is
`rateLessOne + 1`, since the host must give a rate above 0 (R120). -/
structure AudioCall where
  rateLessOne : Nat
  count : Nat
  deriving DecidableEq, Repr, Inhabited

/-- The output sample rate of a call, in samples per second, above 0. -/
def AudioCall.rate (c : AudioCall) : Nat := c.rateLessOne + 1

/-- What the host asks for and answers during one step (R120, R121; 44 R195). Plain data: a statement about every
state is a statement about every answer. -/
structure Inputs where
  /-- What the host calls if no tick is in progress. -/
  call : HostCall
  /-- Whether the audio agent moves now, at its own cadence (49 R316): it goes on with its call of Generate in progress, or,
  where none is, the audio callback makes this call. -/
  audio : Option AudioCall
  /-- If the audio agent moves now: how many more of the interpreter's last byte writes are done before it reads (20 R65,
  R74; log 5). -/
  audioSees : Nat
  /-- `cfg.budget` (R8, R112). -/
  budget : Nat
  /-- The quirks, as a read in this step finds them (R108, 70 R371). -/
  quirks : Quirks
  /-- Bit k: what `GetKeyState(k)` answers in this step, for every 8-bit k (46 R240). -/
  keys : BitVec 256
  /-- What `draw_byte()` gives in this step (44 R195). -/
  random : Byte
  /-- What `Render` returns (R113). -/
  renderContinue : Bool
  /-- The cells (row, column) whose dirty marker the backend clears during `Render` (R123). -/
  renderClean : List (Nat × Nat)
  deriving DecidableEq, Repr, Inhabited

/-- The open parameters of R9 as plain data: the model takes each as an argument, and no step changes one. -/
structure Params where
  /-- FONT_SMALL: the bytes at 0x000 to 0x04F. -/
  fontSmall : Vector Byte 80
  /-- FONT_BIG: the bytes at 0x050 to 0x0EF. -/
  fontBig : Vector Byte 160
  /-- AUDIO_INTERNAL_HZ. -/
  audioInternalHz : Nat
  /-- AUDIO_AMPLITUDE: the sample of a 1 bit. -/
  audioAmplitude : Int
  /-- AUDIO_SILENCE: the sample of a 0 bit. -/
  audioSilence : Int
  /-- KEY_WAIT_EDGE: true, the key wait latches on release; false, on the first press (46 R244). -/
  keyWaitEdge : Bool
  deriving DecidableEq, Repr, Inhabited

namespace Config

/-- FREE VALUE: what the host asks for and answers during the n-th step (log 1). -/
opaque inputs : Nat → Inputs

/-- FREE VALUE: the glyph bytes of the small font, an open parameter (R9, 20_memory.md R67; log 2). -/
opaque fontSmall : Vector Byte 80

/-- FREE VALUE: the glyph bytes of the big font, an open parameter (R9, 20_memory.md R68; log 2). -/
opaque fontBig : Vector Byte 160

/-- FREE VALUE: the audio generator's internal rate, an open parameter (R9; log 2). -/
opaque audioInternalHz : Nat

/-- FREE VALUE: the sample of a 1 bit less one, so that the amplitude is above 0 (R9, 49_audio.md R315; log 2). -/
opaque audioAmplitudeLessOne : Nat

/-- FREE VALUE: what the persistent flag store holds at launch, an open parameter (R9, 48_memory_ops.md R289; log 2). -/
opaque flagsInit : Vector Byte 16

end Config

/-- The parameters of this hardware: the open ones are free values; AUDIO_SILENCE is 0 (92 D37) and the key wait is
edge-triggered (46 R244). -/
def Params.hardware : Params :=
  { fontSmall := Config.fontSmall
    fontBig := Config.fontBig
    audioInternalHz := Config.audioInternalHz
    audioAmplitude := Int.ofNat (Config.audioAmplitudeLessOne + 1)
    audioSilence := 0
    keyWaitEdge := true }

end Sys2Proof
end

