-- ==== Sys2Proof/Machine/State.lean ====
section
/-! DEFINITION. The state of the machine as plain data (spec 10_state.md R20 to R40) and its value after reset (R40,
70_reset_and_hazards.md R360, R361). -/

namespace Sys2Proof.Machine

/-- The two resolutions (R30): the active width and height `fb.w`, `fb.h` are functions of it. -/
inductive Resolution where
  /-- 64 × 32. -/
  | low
  /-- 128 × 64. -/
  | high
  deriving DecidableEq, Repr

/-- The framebuffer (R30, R31). `cells` lists (number, cell) pairs in canonical form: the cell at row y, column x has the
number `128 * y + x`; an unlisted cell is 0x80, the value after reset (no plane bit, dirty). -/
structure Framebuffer where
  res : Resolution
  cells : List Host.Cell
  deriving DecidableEq, Repr

/-- The interpreter's run state (R32). -/
inductive RunState where
  | running
  | waitingForKey
  /-- Terminal: no further instructions execute. -/
  | halted
  deriving DecidableEq, Repr

/-- The key-wait state (R33): the target register and, for the edge-triggered latch, the key seen. -/
structure KeyWait where
  target : Reg
  seen : Option (BitVec 4)
  deriving DecidableEq, Repr

/-- The four faults of the machine (60_exceptions.md R330). -/
inductive FaultReason where
  | invalidInstruction
  | stackOverflow
  | stackUnderflow
  | protectedRegion
  deriving DecidableEq, Repr

/-- The fault record (R34; 60_exceptions.md R336). Its `code` field is `FaultReason.code` of the reason. -/
structure FaultRecord where
  reason : FaultReason
  pc : Word
  /-- The instruction word; absent for ProtectedRegion. -/
  opcode : Option Word
  i : Word
  dt : Byte
  st : Byte
  sp : Fin 17
  stack : Vector Word 16
  v : Vector Byte 16
  deriving DecidableEq, Repr

/-- The audio generator's state (R35). -/
structure Audio where
  base : Word
  cursor : BitVec 7
  phase : Nat
  bit : Bool
  /-- The generator is installed as the backend's sample source. -/
  on : Bool
  deriving DecidableEq, Repr

/-- Memory (R36): (address, byte) pairs in canonical form. What an unlisted address reads as is `unlisted`
(Machine/Ops.lean). -/
abbrev Memory := List Host.Cell

/-- Where the tick algorithm of 40_cycle.md R110 stands. The model's own (log 4). -/
inductive TickPhase where
  /-- No tick is in progress: the host calls next. -/
  | between
  /-- A tick is in progress; `left` instructions of its budget are not yet executed. -/
  | inTick (left : Nat)
  deriving DecidableEq, Repr

/-- What a Tick returns (R110). The model's own (log 15). -/
structure TickResult where
  continueRunning : Bool
  audioStop : Bool
  deriving DecidableEq, Repr

/-- A call of Generate in progress: where the loop of 49_audio.md R314 stands. The model's own (log 5). -/
structure Generating where
  call : AudioCall
  /-- Samples the call has still to emit. -/
  left : Nat
  /-- A sample is emitted, so the inner loop takes the rate off the phase while it can. -/
  advancing : Bool
  /-- The samples emitted, oldest first. -/
  out : List Int
  deriving DecidableEq, Repr

/-- The whole state. The first fields are the spec's (R20 to R37), the last eight the model's own (INVENTORY.md). -/
structure State where
  /-- V0 to VF (R20). -/
  v : Vector Byte 16
  /-- The program counter (R24). -/
  pc : Word
  /-- The index register I (R25). -/
  i : Word
  /-- The stack pointer, 0 to 16 (R26). -/
  sp : Fin 17
  /-- The call stack (R26). -/
  stack : Vector Word 16
  /-- The delay timer (R27). -/
  dt : Byte
  /-- The sound timer (R28). -/
  st : Byte
  /-- The plane selector (R29). -/
  plane : BitVec 2
  /-- The framebuffer (R30, R31). -/
  fb : Framebuffer
  /-- The run state (R32). -/
  run : RunState
  /-- The key-wait state (R33). -/
  kw : KeyWait
  /-- The fault record (R34). -/
  fault : Option FaultRecord
  /-- The audio generator (R35). -/
  au : Audio
  /-- Memory (R36). -/
  mem : Memory
  /-- The persistent flag store (R37). -/
  flags : Vector Byte 16
  /-- The open parameters (00_scope.md R9; log 2). -/
  params : Params
  /-- Where the tick stands (log 4). -/
  tick : TickPhase
  /-- What the last Tick returned (log 15). -/
  lastTick : Option TickResult
  /-- What the last Generate returned (log 15). -/
  samples : List Int
  /-- The call of Generate in progress, if any (log 5). -/
  gen : Option Generating
  /-- The byte writes of the interpreter's last move that the audio agent has not passed yet, oldest first, each with the
  byte that stood there before it (20_memory.md R65, R74; log 5). -/
  unseen : List (Word × Byte)
  /-- What the host asks for and answers during the next step (log 1). -/
  inp : Inputs
  /-- How many steps were taken; the counter by which the free values are drawn (log 1). -/
  turn : Nat
  deriving DecidableEq, Repr

/-- How a step stops with a fault of Host.Outcome: never. The machine's own four faults (60_exceptions.md R330) are
states: R337 says the record is written and the machine is Halted, so a step that faults answers a NEXT state
(`State.raise`; log 6). The type has no constructor, and that is safe: nothing is left out by it. -/
inductive Fault where
  deriving DecidableEq, Repr

/-- Why a step is refused. -/
inductive Refusal where
  /-- Raised by an arm of `exec` for an instruction that has no meaning yet: none is left, so no step answers it. Safe: a
  refused step proves nothing about the hardware. -/
  | notModelled (mnemonic : String)
  deriving DecidableEq, Repr

/-- The machine after reset with no image loaded (R40; 70_reset_and_hazards.md R360, R361). The eight last fields
are the model's own. -/
def State.reset : State :=
  { v := Vector.replicate 16 0#8
    pc := 0x200#16
    i := 0x0000#16
    sp := 0
    stack := Vector.replicate 16 0x0000#16
    dt := 0#8
    st := 0#8
    plane := 1#2
    fb := { res := .low, cells := [] }
    run := .running
    kw := { target := 0#4, seen := none }
    fault := none
    au := { base := 0#16, cursor := 0#7, phase := 0, bit := false, on := false }
    mem := []
    flags := Config.flagsInit
    params := Params.hardware
    tick := .between
    lastTick := none
    samples := []
    gen := none
    unseen := []
    inp := Config.inputs 0
    turn := 0 }

end Sys2Proof.Machine
end

