-- ==== Sys2Proof/Machine/Ops.lean ====
section
/-! DEFINITION. The named operations over registers, memory, the call stack and the pc, and taking a fault. -/

namespace Sys2Proof.Machine

/-! ## Registers (10_state.md R20, R41) -/

/-- `V[x]` (00_scope.md R11). -/
def State.getV (s : State) (x : Reg) : Byte := s.v[x.toNat]'x.isLt

/-- `V[x] <- b` (R11). -/
def State.setV (s : State) (x : Reg) (b : Byte) : State :=
  { s with v := s.v.set x.toNat b x.isLt }

/-! ## Memory (20_memory.md R60 to R72) -/

/-- What an address nothing has written reads as: the reset contents (R66 to R70): the small font at 0x000 to 0x04F, the
big font at 0x050 to 0x0EF, 0x00 elsewhere. -/
def unlisted (p : Params) (a : Nat) : Byte :=
  if h : a < 0x50 then p.fontSmall[a]
  else if h' : a < 0xF0 then p.fontBig[a - 0x50]
  else 0#8

/-- The canonical form of memory: addresses strictly rising, all inside the address space, no entry equal to what an
unlisted address reads as. -/
abbrev Memory.wf (p : Params) (m : Memory) : Prop := sparseWf (unlisted p) 65536 m

/-- `MemRead(a, 1)`: no address faults (R62, R64; 00_scope.md R12). -/
def State.readByte (s : State) (a : Word) : Byte := sparseGet (unlisted s.params) s.mem a.toNat

/-- `MemWrite(a, 1, b)`: no address is protected from data writes (R62, R71). -/
def State.writeByte (s : State) (a : Word) (b : Byte) : State :=
  { s with mem := sparseSet (unlisted s.params) s.mem a.toNat b }

/-- `MemRead16(a)`: the byte at the lower address is the high byte (R61). -/
def State.read16 (s : State) (a : Word) : Word := wordOf (s.readByte a) (s.readByte (a + 1#16))

/-- The `n` bytes from `a` upward, addresses mod 65536 (R62). -/
def State.readBytes (s : State) (a : Word) : Nat → List Byte
  | 0 => []
  | n + 1 => s.readByte a :: s.readBytes (a + 1#16) n

/-- Store bytes from `a` upward, one after the other, addresses mod 65536 (R62, R63). -/
def State.writeBytes (s : State) (a : Word) : List Byte → State
  | [] => s
  | b :: bs => (s.writeByte a b).writeBytes (a + 1#16) bs

/-- `MemWrite(a, 1, b)` of an instruction: the byte it replaces is noted, since the audio agent may still read before the
write (R65, R74; log 5). -/
def State.storeByte (s : State) (a : Word) (b : Byte) : State :=
  { s.writeByte a b with unseen := s.unseen ++ [(a, s.readByte a)] }

/-- The byte writes of one instruction from `a` upward, one after the other, addresses mod 65536 (R62, R63, R65). -/
def State.storeBytes (s : State) (a : Word) : List Byte → State
  | [] => s
  | b :: bs => (s.storeByte a b).storeBytes (a + 1#16) bs

/-- The interpreter goes on: all its earlier byte writes are done, whatever agent reads (R73, R74). -/
def State.settleStores (s : State) : State := { s with unseen := [] }

/-- Load registers, in the order listed, from the bytes at `a` upward (48_memory_ops.md R281, R283). -/
def State.loadRegs (s : State) (a : Word) : List Reg → State
  | [] => s
  | r :: rs => (s.setV r (s.readByte a)).loadRegs (a + 1#16) rs

/-! ## The persistent flag store (48_memory_ops.md R287, R288) -/

/-- `flags[k] <- V[k]` for the registers listed. -/
def State.saveFlagRegs (s : State) : List Reg → State
  | [] => s
  | r :: rs => { s with flags := s.flags.set r.toNat (s.getV r) r.isLt }.saveFlagRegs rs

/-- `V[k] <- flags[k]` for the registers listed. -/
def State.loadFlagRegs (s : State) : List Reg → State
  | [] => s
  | r :: rs => (s.setV r (s.flags[r.toNat]'r.isLt)).loadFlagRegs rs

/-! ## The program counter (40_cycle.md R101; 41_control.md R138) -/

/-- `pc <- a`. -/
def State.jump (s : State) (a : Word) : State := { s with pc := a }

/-- `Skip()`: over 4 bytes where the next word is the first of the long form, else over 2 (41_control.md R138). -/
def State.skip (s : State) : State :=
  s.jump (s.pc + (if s.read16 s.pc = longWord then 4#16 else 2#16))

/-- The pattern of the conditional skips (41_control.md R137). -/
def State.skipIf (s : State) (c : Bool) : State := if c then s.skip else s

/-! ## Faults (60_exceptions.md R330 to R337) -/

/-- The numeric code of a fault (R330). -/
def FaultReason.code : FaultReason → Nat
  | .invalidInstruction => 1
  | .stackOverflow => 2
  | .stackUnderflow => 3
  | .protectedRegion => 4

/-- The diagnostic record of the state at the moment of a fault (R336). -/
def State.faultRecord (s : State) (reason : FaultReason) (opcode : Option Word) : FaultRecord :=
  { reason := reason
    pc := s.pc
    opcode := opcode
    i := s.i
    dt := s.dt
    st := s.st
    sp := s.sp
    stack := s.stack
    v := s.v }

/-- Taking a fault: the record is written and the machine is Halted, and nothing else changes (R336, R337). There is no
return from a fault (R338). -/
def State.raise (s : State) (reason : FaultReason) (opcode : Option Word) : State :=
  { s with fault := some (s.faultRecord reason opcode), run := .halted }

/-! ## The call stack (41_control.md R131, R132) -/

/-- `Push(a)`; none where the stack is full. -/
def State.push (s : State) (a : Word) : Option State :=
  if h : s.sp.val < 16 then
    some { s with stack := s.stack.set s.sp.val a h, sp := ⟨s.sp.val + 1, by omega⟩ }
  else none

/-- `Pop()`: the popped address and the state after it; none where the stack is empty. The slot read keeps its value. -/
def State.pop (s : State) : Option (Word × State) :=
  if h : 0 < s.sp.val then
    some (s.stack[s.sp.val - 1]'(by omega), { s with sp := ⟨s.sp.val - 1, by omega⟩ })
  else none

end Sys2Proof.Machine
end

