-- ==== Sys2Proof/Machine/Operands.lean ====
section
/-! DEFINITION. The operand forms: addresses from fields, register ranges, shift sources, glyph addresses, digits, keys.
No field is sign-extended (30_encoding.md R83). -/

namespace Sys2Proof.Machine

/-- `zext_16(NNN)`: a 12-bit address widened (30_encoding.md R83). -/
def zext16 (nnn : BitVec 12) : Word := nnn.setWidth 16

/-- `Range(x, y)`: the register indices from x to y inclusive, in the direction from x toward y (48_memory_ops.md §1). -/
def regRange (x y : Reg) : List Reg :=
  if x ≤ y then (List.range (y.toNat - x.toNat + 1)).map (fun k => x + BitVec.ofNat 4 k)
  else (List.range (x.toNat - y.toNat + 1)).map (fun k => x - BitVec.ofNat 4 k)

/-- I after a block transfer of `n` registers: moved by the range length under the quirk, else unchanged
(48_memory_ops.md R280 to R283). -/
def State.indexAfter (s : State) (n : Nat) : Word :=
  if s.inp.quirks.indexIncrement then s.i + BitVec.ofNat 16 n else s.i

/-- The source of a shift: VX under `cfg.shift_vx`, else VY (43_alu.md R177, R179). -/
def State.shiftSource (s : State) (x y : Reg) : Byte :=
  if s.inp.quirks.shiftVx then s.getV x else s.getV y

/-- The small-font glyph of a byte's low nibble (48_memory_ops.md R284). -/
def smallGlyph (b : Byte) : Word := 5#16 * (b &&& 0x0F#8).setWidth 16

/-- The big-font glyph of a byte's low nibble (48_memory_ops.md R285). -/
def bigGlyph (b : Byte) : Word := 0x50#16 + 10#16 * (b &&& 0x0F#8).setWidth 16

/-- The decimal digits of a byte: hundreds, tens, ones (48_memory_ops.md R286). -/
def bcdDigits (b : Byte) : List Byte := [b / 100#8, (b / 10#8) % 10#8, b % 10#8]

/-- `host.GetKeyState(k)` in this step (46_input.md R240; 40_cycle.md R121): all 8 bits of `k` pass to the host. -/
def State.keyDown (s : State) (k : Byte) : Bool := s.inp.keys.getLsbD k.toNat

/-- The lowest-numbered logical key, 0 to 15, that is down in this step (46_input.md R244). -/
def State.leastKeyDown (s : State) : Option (BitVec 4) :=
  ((List.range 16).map (BitVec.ofNat 4)).find? (fun k => s.keyDown (k.setWidth 8))

end Sys2Proof.Machine
end

