-- ==== Sys2Proof/Machine/Flags.lean ====
section
/-! DEFINITION. The flag results of the register arithmetic and the two-write sequence of a result and VF (43_alu.md R170,
R175 to R180). -/

namespace Sys2Proof.Machine

/-- A flag as the byte VF holds: 1 or 0. -/
def flagByte (b : Bool) : Byte := if b then 1#8 else 0#8

/-- The carry out of bit 7 of a sum: 1 where the 9-bit sum exceeds 0xFF (R175). -/
def carryOut (a b : Byte) : Byte := flagByte (decide (a.toNat + b.toNat > 255))

/-- 1 where `a - b` needs no borrow, that is where `a ≥ b`, equality included (R176, R178). -/
def noBorrow (a b : Byte) : Byte := flagByte (decide (b ≤ a))

/-- The bit a shift right by 1 moves out: bit 0 (R177). -/
def shiftedOutRight (a : Byte) : Byte := a &&& 1#8

/-- The bit a shift left by 1 moves out: bit 7 (R179). -/
def shiftedOutLeft (a : Byte) : Byte := a >>> 7

/-- `WriteBoth(x, result, flag)`: the result into VX and the flag into VF, in the order `cfg.vf_flag_last` gives (R170). -/
def State.writeBoth (s : State) (x : Reg) (result flag : Byte) : State :=
  if s.inp.quirks.vfFlagLast then (s.setV x result).setV Reg.flag flag
  else (s.setV Reg.flag flag).setV x result

end Sys2Proof.Machine
end

