-- ==== Sys2Proof/Machine/Alu.lean ====
section
/-! DEFINITION. Register arithmetic and logic (spec 43_alu.md). Both operands are read before any write (10_state.md R22). -/

namespace Sys2Proof.Machine

/-- `LD_REG vx, vy` (R171). -/
def execLdReg (x y : Reg) (s : State) : Host.Outcome State Fault Refusal :=
  .next (s.setV x (s.getV y))

/-- `OR vx, vy` (R172). -/
def execOrReg (x y : Reg) (s : State) : Host.Outcome State Fault Refusal :=
  .next (s.setV x (s.getV x ||| s.getV y))

/-- `AND vx, vy` (R173). -/
def execAndReg (x y : Reg) (s : State) : Host.Outcome State Fault Refusal :=
  .next (s.setV x (s.getV x &&& s.getV y))

/-- `XOR vx, vy` (R174). -/
def execXorReg (x y : Reg) (s : State) : Host.Outcome State Fault Refusal :=
  .next (s.setV x (s.getV x ^^^ s.getV y))

/-- `ADD vx, vy` (R175). -/
def execAddReg (x y : Reg) (s : State) : Host.Outcome State Fault Refusal :=
  .next (s.writeBoth x (s.getV x + s.getV y) (carryOut (s.getV x) (s.getV y)))

/-- `SUB vx, vy` (R176). -/
def execSubReg (x y : Reg) (s : State) : Host.Outcome State Fault Refusal :=
  .next (s.writeBoth x (s.getV x - s.getV y) (noBorrow (s.getV x) (s.getV y)))

/-- `SHR vx, vy` (R177). -/
def execShr (x y : Reg) (s : State) : Host.Outcome State Fault Refusal :=
  .next (s.writeBoth x (s.shiftSource x y >>> 1) (shiftedOutRight (s.shiftSource x y)))

/-- `SUBN vx, vy` (R178). -/
def execSubn (x y : Reg) (s : State) : Host.Outcome State Fault Refusal :=
  .next (s.writeBoth x (s.getV y - s.getV x) (noBorrow (s.getV y) (s.getV x)))

/-- `SHL vx, vy` (R179). -/
def execShl (x y : Reg) (s : State) : Host.Outcome State Fault Refusal :=
  .next (s.writeBoth x (s.shiftSource x y <<< 1) (shiftedOutLeft (s.shiftSource x y)))

end Sys2Proof.Machine
end

