-- ==== Sys2Proof/Machine/AudioUnit.lean ====
section
/-! DEFINITION. The audio pattern generator's operations (49_audio.md R311 to R318). -/

namespace Sys2Proof.Machine

/-- Bit `cursor` of the 128-bit pattern at `base`, its one byte read by `read`; each byte most significant bit first (R311,
R313). -/
def patternBitBy (read : Word → Byte) (base : Word) (cursor : BitVec 7) : Bool :=
  (read (base + BitVec.ofNat 16 (cursor.toNat / 8))).getMsbD (cursor.toNat % 8)

/-- `CurrentBit()` as memory holds the byte now (R313). -/
def State.patternBit (s : State) (base : Word) (cursor : BitVec 7) : Bool := patternBitBy s.readByte base cursor

/-- What the audio agent reads at `a`: the byte as it stands between two byte writes of the interpreter, those not passed
yet still to come (20_memory.md R65, R74; 49 R319; log 5). -/
def State.audioByte (s : State) (a : Word) : Byte := (s.unseen.lookup a).getD (s.readByte a)

/-- `CurrentBit()` as the audio agent reads the byte (R313, R319). -/
def State.audioBit (s : State) (base : Word) (cursor : BitVec 7) : Bool := patternBitBy s.audioByte base cursor

/-- `SetBaseAddr(a)` (R312). -/
def State.setBaseAddr (s : State) (a : Word) : State :=
  { s with au := { s.au with base := a, cursor := 0#7, phase := 0, bit := s.patternBit a 0#7 } }

/-- `SetAudio(generator)` or `SetAudio(null)`: nothing but `au.on` changes (R318). -/
def State.setAudio (s : State) (on : Bool) : State := { s with au := { s.au with on := on } }

/-- Advance the cursor `n` times, mod 128, re-reading the bit at each advance (R314). -/
def State.advanceCursor (s : State) : Nat → State
  | 0 => s
  | n + 1 =>
    { s with au := { s.au with
        cursor := s.au.cursor + 1#7
        bit := s.patternBit s.au.base (s.au.cursor + 1#7) } }.advanceCursor n

/-- The sample the current bit gives (R315). -/
def State.currentSample (s : State) : Int :=
  if s.au.bit then s.params.audioAmplitude else s.params.audioSilence

/-- What one output sample does to the generator after it is emitted: the phase moves by AUDIO_INTERNAL_HZ, and the
cursor advances once for each `rate` taken off it while it is at least `rate` (R314; log 19). -/
def State.afterSample (s : State) (rate : Nat) : State :=
  let phase := s.au.phase + s.params.audioInternalHz
  { s with au := { s.au with phase := phase % rate } }.advanceCursor (phase / rate)

/-- `Generate(rate, n)` as one call between whole instructions: the samples and the state after them (R314). -/
def State.generate (s : State) (rate : Nat) : Nat → List Int × State
  | 0 => ([], s)
  | n + 1 =>
    let r := (s.afterSample rate).generate rate n
    (s.currentSample :: r.1, r.2)

/-! ## The audio agent's moves: a call of Generate, one read of memory a move at most (R314, R316, R319; log 5) -/

/-- Of the byte writes not passed yet, the number the host says are done before the agent reads now (20_memory.md R74). -/
def State.passStores (s : State) : State := { s with unseen := s.unseen.drop s.inp.audioSees }

/-- The audio callback calls Generate on the installed source (R316). -/
def State.beginCall (s : State) (c : AudioCall) : State :=
  { s with gen := some { call := c, left := c.count, advancing := false, out := [] } }

/-- One turn of the inner loop: the rate is taken off the phase, the cursor advances and its bit is read (R314). -/
def State.advanceOnce (s : State) (rate : Nat) : State :=
  { s with au := { s.au with
      phase := s.au.phase - rate
      cursor := s.au.cursor + 1#7
      bit := s.audioBit s.au.base (s.au.cursor + 1#7) } }

/-- The current bit's sample is emitted, and AUDIO_INTERNAL_HZ is added to the phase; `left` samples are then to come
(R314). While no source is installed the phase does not move (R316; log 28). -/
def State.emitSample (s : State) (g : Generating) (left : Nat) : State :=
  { s with
    au := { s.au with phase := if s.au.on then s.au.phase + s.params.audioInternalHz else s.au.phase }
    gen := some { g with left := left, advancing := true, out := g.out ++ [s.currentSample] } }

/-- The call returns its samples to the host (R314). -/
def State.returnCall (s : State) (g : Generating) : State := { s with gen := none, samples := g.out }

/-- The call in progress goes on to the next thing the loop of R314 does. While no source is installed the cursor does not
move (R316; log 28). -/
def State.continueCall (s : State) (g : Generating) : State :=
  if s.au.on = true ∧ g.advancing = true ∧ g.call.rate ≤ s.au.phase then s.advanceOnce g.call.rate
  else
    match g.left with
    | 0 => s.returnCall g
    | left + 1 => s.emitSample g left

/-- One move of the audio agent: its call in progress goes on, or a call begins (R316). -/
def State.audioMove (s : State) : State :=
  match s.gen, s.inp.audio with
  | some g, _ => s.passStores.continueCall g
  | none, some c => s.passStores.beginCall c
  | none, none => s

end Sys2Proof.Machine
end

