-- ==== Sys2Proof/Machine/Audio.lean ====
section
/-! DEFINITION. The audio instruction (spec 49_audio.md). -/

namespace Sys2Proof.Machine

/-- `AUDIO` (R310): the pattern's base address is I; the source is neither installed nor removed. -/
def execAudio (s : State) : Host.Outcome State Fault Refusal :=
  .next (s.setBaseAddr s.i)

end Sys2Proof.Machine
end

