-- ==== Sys2Proof/Machine/Block.lean ====
section
/-! DEFINITION. Block transfer, font pointers, BCD, persistent flags (spec 48_memory_ops.md). -/

namespace Sys2Proof.Machine

/-- `SAVE_RANGE vx, vy` (R280). -/
def execSaveRange (x y : Reg) (s : State) : Host.Outcome State Fault Refusal :=
  .next { s.storeBytes s.i ((regRange x y).map s.getV) with i := s.indexAfter (regRange x y).length }

/-- `LOAD_RANGE vx, vy` (R281). -/
def execLoadRange (x y : Reg) (s : State) : Host.Outcome State Fault Refusal :=
  .next { s.loadRegs s.i (regRange x y) with i := s.indexAfter (regRange x y).length }

/-- `SAVE vx` (R282): the range 0..X. -/
def execSave (x : Reg) (s : State) : Host.Outcome State Fault Refusal :=
  .next { s.storeBytes s.i ((regRange 0#4 x).map s.getV) with i := s.indexAfter (regRange 0#4 x).length }

/-- `LOAD vx` (R283): the range 0..X. -/
def execLoad (x : Reg) (s : State) : Host.Outcome State Fault Refusal :=
  .next { s.loadRegs s.i (regRange 0#4 x) with i := s.indexAfter (regRange 0#4 x).length }

/-- `LD_F vx` (R284). -/
def execLdF (x : Reg) (s : State) : Host.Outcome State Fault Refusal :=
  .next { s with i := smallGlyph (s.getV x) }

/-- `LD_HF vx` (R285). -/
def execLdHf (x : Reg) (s : State) : Host.Outcome State Fault Refusal :=
  .next { s with i := bigGlyph (s.getV x) }

/-- `BCD vx` (R286). -/
def execBcd (x : Reg) (s : State) : Host.Outcome State Fault Refusal :=
  .next (s.storeBytes s.i (bcdDigits (s.getV x)))

/-- `SAVEFLAGS vx` (R287). -/
def execSaveFlags (x : Reg) (s : State) : Host.Outcome State Fault Refusal :=
  .next (s.saveFlagRegs (regRange 0#4 x))

/-- `LOADFLAGS vx` (R288). -/
def execLoadFlags (x : Reg) (s : State) : Host.Outcome State Fault Refusal :=
  .next (s.loadFlagRegs (regRange 0#4 x))

end Sys2Proof.Machine
end

