-- ==== Sys2Proof/Machine/Control.lean ====
section
/-! DEFINITION. Control instructions (spec 41_control.md). A meaning takes the state AFTER the fetch: `pc` already holds the
address after the instruction (40_cycle.md R100, R101). -/

namespace Sys2Proof.Machine

/-- `JP nnn` (R130). -/
def execJp (nnn : BitVec 12) (s : State) : Host.Outcome State Fault Refusal :=
  .next (s.jump (zext16 nnn))

/-- `CALL nnn` (R133): StackOverflow where the stack is full, with nothing pushed and the pc not set (60 R332). -/
def execCall (nnn : BitVec 12) (s : State) : Host.Outcome State Fault Refusal :=
  match s.push s.pc with
  | some t => .next (t.jump (zext16 nnn))
  | none => .next (s.raise .stackOverflow (some (Instr.call nnn).word))

/-- `RET` (R134): StackUnderflow where the stack is empty (60 R333). -/
def execRet (s : State) : Host.Outcome State Fault Refusal :=
  match s.pop with
  | some (a, t) => .next (t.jump a)
  | none => .next (s.raise .stackUnderflow (some Instr.ret.word))

/-- `JP_V0 nnn` (R135): the sum is not reduced to 12 bits. -/
def execJpV0 (nnn : BitVec 12) (s : State) : Host.Outcome State Fault Refusal :=
  .next (s.jump (zext16 nnn + (s.getV 0#4).setWidth 16))

/-- `EXIT` (R136): Halted with no fault record. -/
def execExit (s : State) : Host.Outcome State Fault Refusal :=
  .next { s with run := .halted }

/-- `SE_IMM vx, nn` (R139). -/
def execSeImm (x : Reg) (nn : Byte) (s : State) : Host.Outcome State Fault Refusal :=
  .next (s.skipIf (s.getV x == nn))

/-- `SNE_IMM vx, nn` (R140). -/
def execSneImm (x : Reg) (nn : Byte) (s : State) : Host.Outcome State Fault Refusal :=
  .next (s.skipIf (s.getV x != nn))

/-- `SE_REG vx, vy` (R141). -/
def execSeReg (x y : Reg) (s : State) : Host.Outcome State Fault Refusal :=
  .next (s.skipIf (s.getV x == s.getV y))

/-- `SNE_REG vx, vy` (R142). -/
def execSneReg (x y : Reg) (s : State) : Host.Outcome State Fault Refusal :=
  .next (s.skipIf (s.getV x != s.getV y))

end Sys2Proof.Machine
end

