-- ==== Sys2Proof/Machine/Framebuffer.lean ====
section
/-! DEFINITION. The framebuffer's operations (42_display.md R150 to R162, 45_sprite.md R210 to R215; 10_state.md R41). -/

namespace Sys2Proof.Machine

/-- The active width `fb.w` (10_state.md R30). -/
def Resolution.width : Resolution → Nat
  | .low => 64
  | .high => 128

/-- The active height `fb.h` (R30). -/
def Resolution.height : Resolution → Nat
  | .low => 32
  | .high => 64

/-- A cell with no plane bit and the dirty marker set, 0x80: every cell after reset (R40), and what an unlisted cell is. -/
def cleanCell (_ : Nat) : Byte := 0x80#8

/-- The number of the cell at row y, column x. -/
def cellNumber (y x : Nat) : Nat := 128 * y + x

/-- The cell number `k` lies in the active area. -/
def Framebuffer.active (fb : Framebuffer) (k : Nat) : Bool :=
  decide (k / 128 < fb.res.height ∧ k % 128 < fb.res.width)

/-- `fb.cell(y, x)` (00_scope.md R11). -/
def Framebuffer.cell (fb : Framebuffer) (y x : Nat) : Byte :=
  sparseGet cleanCell fb.cells (cellNumber y x)

/-- `fb.cell(y, x) <- c`. -/
def Framebuffer.setCell (fb : Framebuffer) (y x : Nat) (c : Byte) : Framebuffer :=
  { fb with cells := sparseSet cleanCell fb.cells (cellNumber y x) c }

/-- `GetLine(y)`: the cells of row y (42 R162). -/
def Framebuffer.getLine (fb : Framebuffer) (y : Nat) : List Byte :=
  (List.range fb.res.width).map (fb.cell y)

/-- Build a list of cells anew: each listed cell goes where `move` puts it, or is dropped. -/
def rebuildCells (move : Host.Cell → Option Host.Cell) : List Host.Cell → List Host.Cell
  | [] => []
  | c :: m =>
    match move c with
    | some c' => sparseSet cleanCell (rebuildCells move m) c'.1 c'.2
    | none => rebuildCells move m

/-- `for every cell: fb.cell(y, x) <- f (fb.cell(y, x))` for an `f` that keeps 0x80, so that it is enough to go through
the listed cells (log 10). -/
def Framebuffer.mapCells (f : Byte → Byte) (fb : Framebuffer) : Framebuffer :=
  { fb with cells := rebuildCells (fun c => some (c.1, if fb.active c.1 then f c.2 else c.2)) fb.cells }

/-- `ClearPlanes(mask)` (42 R150). -/
def Framebuffer.clearPlanes (mask : BitVec 2) (fb : Framebuffer) : Framebuffer :=
  fb.mapCells (fun c => (c &&& 0x03#8 &&& ~~~(mask.setWidth 8)) ||| 0x80#8)

/-- `Clear()` is `ClearPlanes(3)` (42 R150). -/
def Framebuffer.clear (fb : Framebuffer) : Framebuffer := fb.clearPlanes 3#2

/-- `Invalidate()` (42 R160). -/
def Framebuffer.invalidate (fb : Framebuffer) : Framebuffer := fb.mapCells (fun c => c ||| 0x80#8)

/-- `SetResolution(w, h)`: every cell of both planes is cleared and left dirty (42 R152; 90_conflicts.md C2). -/
def Framebuffer.setResolution (r : Resolution) (_ : Framebuffer) : Framebuffer :=
  { res := r, cells := [] }

/-- Where a scroll by (dx, dy) moves the cell number `k` of the active area: none where it leaves the area. -/
def Framebuffer.scrollTarget (fb : Framebuffer) (dx dy : Int) (k : Nat) : Option Nat :=
  let y : Int := (k / 128 : Nat) + dy
  let x : Int := (k % 128 : Nat) + dx
  if 0 ≤ y ∧ y < fb.res.height ∧ 0 ≤ x ∧ x < fb.res.width then some (cellNumber y.toNat x.toNat) else none

/-- What a scroll does with a listed cell: it moves, without its other bits and dirty, or leaves the area and is lost. -/
def Framebuffer.scrollCell (fb : Framebuffer) (dx dy : Int) (c : Host.Cell) : Option Host.Cell :=
  if fb.active c.1 then (fb.scrollTarget dx dy c.1).map (fun k => (k, (c.2 &&& 0x03#8) ||| 0x80#8))
  else some c

/-- `Scroll(dx, dy)` (42 R155): every listed cell moves, a cell nothing moves onto is 0x80; a zero-zero scroll does
nothing. Both planes move whatever the selector holds. -/
def Framebuffer.scroll (dx dy : Int) (fb : Framebuffer) : Framebuffer :=
  if dx = 0 ∧ dy = 0 then fb
  else { fb with cells := rebuildCells (fb.scrollCell dx dy) fb.cells }

/-- The host's clearing of the dirty marker of a cell during Render (40_cycle.md R123): bits 1:0 stay. -/
def Framebuffer.clearDirty (fb : Framebuffer) : List (Nat × Nat) → Framebuffer
  | [] => fb
  | (y, x) :: rest =>
    (if y < fb.res.height ∧ x < fb.res.width then fb.setCell y x (fb.cell y x &&& 0x7F#8) else fb).clearDirty rest

/-! ## Sprites -/

/-- The two planes; plane p is cell bit p − 1 (10_state.md R29, R31). -/
inductive Plane where
  | one
  | two
  deriving DecidableEq, Repr

/-- The plane's membership bit. -/
def Plane.mask : Plane → Byte
  | .one => 0x01#8
  | .two => 0x02#8

/-- The selector `plane` selects this plane (10_state.md R29). -/
def Plane.selected (p : Plane) (selector : BitVec 2) : Bool :=
  match p with
  | .one => selector.getLsbD 0
  | .two => selector.getLsbD 1

/-- One pixel of `Write`: the XOR of the plane's bit, and whether that bit was set (45 R210, R211). -/
def Framebuffer.xorPixel (fb : Framebuffer) (p : Plane) (y x : Nat) : Framebuffer × Bool :=
  (fb.setCell y x ((fb.cell y x ^^^ p.mask) ||| 0x80#8), decide (fb.cell y x &&& p.mask ≠ 0#8))

/-- Pixel `k` of the byte `b` of `Write`, bit 7 the leftmost; columns wrap pixel by pixel (45 R210). -/
def writePixel (p : Plane) (y x : Nat) (b : Byte) (acc : Framebuffer × Bool) (k : Nat) : Framebuffer × Bool :=
  if b.getMsbD k then
    let r := acc.1.xorPixel p (y % acc.1.res.height) ((x + k) % acc.1.res.width)
    (r.1, acc.2 || r.2)
  else acc

/-- `Write(p, y, x, b)`: the framebuffer after it and whether a set bit was turned off (45 R210, R212). -/
def Framebuffer.write (fb : Framebuffer) (p : Plane) (y x : Nat) (b : Byte) : Framebuffer × Bool :=
  if b = 0#8 then (fb, false)
  else (List.range 8).foldl (writePixel p y x b) (fb, false)

/-- The bits of a sprite byte at column `x` that stay under clipping: the columns below the width (45 R214). -/
def clipByte (width x : Nat) (b : Byte) : Byte :=
  if width - x < 8 then b &&& (0xFF#8 <<< (8 - (width - x))) else b

/-- `DrawRow(p, y, x, b, clip)` (45 R214). -/
def Framebuffer.drawRow (fb : Framebuffer) (p : Plane) (y x : Nat) (b : Byte) (clip : Bool) : Framebuffer × Bool :=
  if clip then
    if fb.res.height ≤ y ∨ fb.res.width ≤ x then (fb, false)
    else fb.write p y x (clipByte fb.res.width x b)
  else fb.write p y x b

/-- The shape of a sprite: bytes a row and bytes a plane (45 R215). -/
def spriteRowBytes (n : BitVec 4) : Nat := if n = 0#4 then 2 else 1

/-- `size`: N bytes a plane, 32 for N = 0 (45 R215). -/
def spriteSize (n : BitVec 4) : Nat := if n = 0#4 then 32 else n.toNat

/-- Draw a plane's slice: byte `t` is in row `t / bpr`, at column 8 × `t mod bpr` of the sprite (45 R215, R217). -/
def drawSlice (p : Plane) (y0 x0 bpr : Nat) (clip : Bool) : Nat → List Byte → Framebuffer × Bool → Framebuffer × Bool
  | _, [], acc => acc
  | t, b :: bs, acc =>
    let r := acc.1.drawRow p (y0 + t / bpr) (x0 + 8 * (t % bpr)) b clip
    drawSlice p y0 x0 bpr clip (t + 1) bs (r.1, acc.2 || r.2)

/-- Draw the planes listed, each with its own slice of memory, at offsets `off`, `off + size`, … from I (45 R213, R217). -/
def State.drawPlanes (s : State) (n : BitVec 4) (y0 x0 : Nat) :
    List Plane → Nat → Framebuffer × Bool → Framebuffer × Bool
  | [], _, acc => acc
  | p :: ps, off, acc =>
    s.drawPlanes n y0 x0 ps (off + spriteSize n)
      (drawSlice p y0 x0 (spriteRowBytes n) s.inp.quirks.spriteClip 0
        (s.readBytes (s.i + BitVec.ofNat 16 off) (spriteSize n)) acc)

/-- The planes the selector selects, plane 1 first (45 R213). -/
def selectedPlanes (selector : BitVec 2) : List Plane :=
  [Plane.one, Plane.two].filter (fun p => p.selected selector)

/-- The sprite of `DRW vx, vy, n`: the framebuffer after it and the OR of all collisions (45 R216, R217). The origin is
first reduced into the screen (45 R214). -/
def State.sprite (s : State) (x y : Reg) (n : BitVec 4) : Framebuffer × Bool :=
  s.drawPlanes n ((s.getV y).toNat % s.fb.res.height) ((s.getV x).toNat % s.fb.res.width)
    (selectedPlanes s.plane) 0 (s.fb, false)

end Sys2Proof.Machine
end

