-- ==== Sys2Proof/Machine/Display.lean ====
section
/-! DEFINITION. Display control instructions (spec 42_display.md). -/

namespace Sys2Proof.Machine

/-- `CLS` (R151; 90_conflicts.md C1). -/
def execCls (s : State) : Host.Outcome State Fault Refusal :=
  .next { s with fb := s.fb.clearPlanes s.plane }

/-- `LOW` (R153). -/
def execLow (s : State) : Host.Outcome State Fault Refusal :=
  .next { s with fb := s.fb.setResolution .low }

/-- `HIGH` (R154). -/
def execHigh (s : State) : Host.Outcome State Fault Refusal :=
  .next { s with fb := s.fb.setResolution .high }

/-- `SCD n` (R156). -/
def execScd (n : BitVec 4) (s : State) : Host.Outcome State Fault Refusal :=
  .next { s with fb := s.fb.scroll 0 (Int.ofNat n.toNat) }

/-- `SCU n` (R157). -/
def execScu (n : BitVec 4) (s : State) : Host.Outcome State Fault Refusal :=
  .next { s with fb := s.fb.scroll 0 (-(Int.ofNat n.toNat)) }

/-- `SCR` (R158): 4 pixels in both resolutions. -/
def execScr (s : State) : Host.Outcome State Fault Refusal :=
  .next { s with fb := s.fb.scroll 4 0 }

/-- `SCL` (R159): 4 pixels in both resolutions. -/
def execScl (s : State) : Host.Outcome State Fault Refusal :=
  .next { s with fb := s.fb.scroll (-4) 0 }

/-- `PLANE n` (R161). A mask of 4 or more is no instruction of the machine: the decoder never gives it, and a term that
holds one is an invalid instruction here too (R161, "Faults"; log 12). -/
def execPlane (n : BitVec 4) (s : State) : Host.Outcome State Fault Refusal :=
  .next (if n ≤ 3#4 then { s with plane := n.setWidth 2, fb := s.fb.invalidate }
    else s.raise .invalidInstruction (some (Instr.plane n).word))

end Sys2Proof.Machine
end

