-- ==== Sys2Proof/Machine/Immediate.lean ====
section
/-! DEFINITION. Immediate loads, index register, random (spec 44_immediate_index_random.md). -/

namespace Sys2Proof.Machine

/-- `LD_IMM vx, nn` (R190). -/
def execLdImm (x : Reg) (nn : Byte) (s : State) : Host.Outcome State Fault Refusal :=
  .next (s.setV x nn)

/-- `ADD_IMM vx, nn` (R191): no flag. -/
def execAddImm (x : Reg) (nn : Byte) (s : State) : Host.Outcome State Fault Refusal :=
  .next (s.setV x (s.getV x + nn))

/-- `LD_I nnn` (R192). -/
def execLdI (nnn : BitVec 12) (s : State) : Host.Outcome State Fault Refusal :=
  .next { s with i := zext16 nnn }

/-- `LD_I_LONG nnnn` (R193): the fetch has already advanced the pc by 4. -/
def execLdILong (nnnn : Word) (s : State) : Host.Outcome State Fault Refusal :=
  .next { s with i := nnnn }

/-- `ADD_I vx` (R194): mod 65536, no flag. -/
def execAddI (x : Reg) (s : State) : Host.Outcome State Fault Refusal :=
  .next { s with i := s.i + (s.getV x).setWidth 16 }

/-- `RND vx, nn` (R196): the draw is the free byte of this step (R195; log 1). -/
def execRnd (x : Reg) (nn : Byte) (s : State) : Host.Outcome State Fault Refusal :=
  .next (s.setV x (s.inp.random &&& nn))

end Sys2Proof.Machine
end

