-- ==== Sys2Proof/Machine/Input.lean ====
section
/-! DEFINITION. Key input instructions (spec 46_input.md). -/

namespace Sys2Proof.Machine

/-- `SKP vx` (R241). -/
def execSkp (x : Reg) (s : State) : Host.Outcome State Fault Refusal :=
  .next (s.skipIf (s.keyDown (s.getV x)))

/-- `SKNP vx` (R242). -/
def execSknp (x : Reg) (s : State) : Host.Outcome State Fault Refusal :=
  .next (s.skipIf (!s.keyDown (s.getV x)))

/-- `LD_VX_K vx` (R243): enters the key wait; VX is written when the wait ends (R244). -/
def execLdVxK (x : Reg) (s : State) : Host.Outcome State Fault Refusal :=
  .next { s with run := .waitingForKey, kw := { target := x, seen := none } }

end Sys2Proof.Machine
end

