-- ==== Sys2Proof/Machine/Sprite.lean ====
section
/-! DEFINITION. Sprite drawing (spec 45_sprite.md). -/

namespace Sys2Proof.Machine

/-- `DRW vx, vy, n` (R217): coordinates are read before VF is written; VF is the OR of the collisions (R216). -/
def execDrw (x y : Reg) (n : BitVec 4) (s : State) : Host.Outcome State Fault Refusal :=
  .next ({ s with fb := (s.sprite x y n).1 }.setV Reg.flag (flagByte (s.sprite x y n).2))

end Sys2Proof.Machine
end

