-- ==== Sys2Proof/Machine/Timers.lean ====
section
/-! DEFINITION. Timer instructions (spec 47_timers.md). -/

namespace Sys2Proof.Machine

/-- `LD_VX_DT vx` (R260). -/
def execLdVxDt (x : Reg) (s : State) : Host.Outcome State Fault Refusal :=
  .next (s.setV x s.dt)

/-- `LD_DT vx` (R261). -/
def execLdDt (x : Reg) (s : State) : Host.Outcome State Fault Refusal :=
  .next { s with dt := s.getV x }

/-- `LD_ST vx` (R262): installs the audio source where VX is not 0, removes it where it is. -/
def execLdSt (x : Reg) (s : State) : Host.Outcome State Fault Refusal :=
  .next ({ s with st := s.getV x }.setAudio (s.getV x != 0#8))

end Sys2Proof.Machine
end

