-- ==== Sys2Proof/Machine/Fetch.lean ====
section
/-! DEFINITION. The fetch and decode of one step (spec 40_cycle.md R100 to R105). -/

namespace Sys2Proof.Machine

/-- What the fetch of a step finds. -/
inductive Fetched where
  /-- `pc < 0x200`: nothing is fetched (R102). -/
  | protectedRegion
  /-- The word decodes Invalid; the pc has advanced by 2 (R104). -/
  | invalid (w : Word) (s : State)
  /-- An instruction; the pc has advanced past it. -/
  | decoded (i : Instr) (s : State)
  deriving DecidableEq, Repr

/-- The protected-region check, the fetch of the word and of the long form's second word, the advance of the pc and the
decode, in the order of R100. The second word is not checked against the protected region (R102). -/
def State.fetch (s : State) : Fetched :=
  if s.pc < 0x200#16 then .protectedRegion
  else
    let w := s.read16 s.pc
    match decodeWord w (s.read16 (s.pc + 2#16)) with
    | some i => .decoded i (s.jump (s.pc + BitVec.ofNat 16 i.length))
    | none => .invalid w (s.jump (s.pc + 2#16))

/-- The instruction a fetch gives, if any. -/
def Fetched.instr : Fetched → Option Instr
  | .protectedRegion => none
  | .invalid _ _ => none
  | .decoded i _ => some i

end Sys2Proof.Machine
end

