-- ==== Sys2Proof/Machine/Tick.lean ====
section
/-! DEFINITION. The tick around the instructions: key-wait service, render, timers, what Tick returns, and Load (spec
40_cycle.md R110 to R117, 46_input.md R244, 47_timers.md R264, 70_reset_and_hazards.md R360 to R363). -/

namespace Sys2Proof.Machine

/-- `ServiceKeyWait` (46 R244), edge-triggered or level-triggered as KEY_WAIT_EDGE says. -/
def State.serviceKeyWait (s : State) : State :=
  if s.params.keyWaitEdge then
    match s.kw.seen with
    | none =>
      match s.leastKeyDown with
      | some k => { s with kw := { s.kw with seen := some k } }
      | none => s
    | some k =>
      match s.leastKeyDown with
      | some _ => s
      | none =>
        { s.setV s.kw.target (k.setWidth 8) with kw := { s.kw with seen := none }, run := .running }
  else
    match s.leastKeyDown with
    | some k => { s.setV s.kw.target (k.setWidth 8) with run := .running }
    | none => s

/-- The delay timer's decrement: it stops at 0 (47 R266). -/
def State.tickDelay (s : State) : State := if s.dt = 0#8 then s else { s with dt := s.dt - 1#8 }

/-- The sound timer's decrement, and whether it reached 0 now, which removes the audio source (47 R267, R268). -/
def State.tickSound (s : State) : State × Bool :=
  if s.st = 0#8 then (s, false)
  else if s.st = 1#8 then ({ s with st := 0#8 }.setAudio false, true)
  else ({ s with st := s.st - 1#8 }, false)

/-- `TimerTick`: the delay timer, then the sound timer; the Bool is the audio-stop event (47 R264, R265). -/
def State.timerTick (s : State) : State × Bool := s.tickDelay.tickSound

/-- `host.Render(fb)`: the backend may clear dirty markers; its answer is `inp.renderContinue` (R113, R123). -/
def State.render (s : State) : State := { s with fb := s.fb.clearDirty s.inp.renderClean }

/-- The tick ends and returns (R110). -/
def State.returnTick (s : State) (r : TickResult) : State := { s with tick := .between, lastTick := some r }

/-- The end of a tick: nothing but the result where the machine is Halted (R116), else render, then the timers, then the
audio-stop edge (R111, R115; 90_conflicts.md C5). -/
def State.finishTick (s : State) : State :=
  if s.run = .halted then s.returnTick { continueRunning := false, audioStop := false }
  else
    let r := s.render.timerTick
    r.1.returnTick { continueRunning := s.inp.renderContinue, audioStop := r.2 }

/-- The start of a tick: a Halted machine returns at once (R116); a waiting one services the key wait and executes no
instruction (R117); a running one reads the budget (R112). -/
def State.startTick (s : State) : State :=
  match s.run with
  | .halted => s.returnTick { continueRunning := false, audioStop := false }
  | .waitingForKey => { s.serviceKeyWait with tick := .inTick 0 }
  | .running => { s with tick := .inTick s.inp.budget }

/-- The full reset of the machine: every piece of the machine's state to its value after reset. The flag store is outside
the machine and keeps its contents, and so do the parameters and the host's answers (70 R360, R363; log 14). -/
def State.fullReset (s : State) : State :=
  { State.reset with flags := s.flags, params := s.params, inp := s.inp, turn := s.turn }

/-- The address the image is copied to and execution starts at (00_scope.md R7, 20_memory.md R69). -/
def entryPoint : Word := 0x200#16

/-- MAX_IMAGE: bytes of an image beyond these are dropped (00_scope.md R7, 20_memory.md R69). -/
def maxImage : Nat := 65024

/-- `Load(data, size)` (70 R360; 20_memory.md R69). -/
def State.loadImage (s : State) (image : List Byte) : State :=
  s.fullReset.writeBytes entryPoint (image.take maxImage)

/-- What the host does between two ticks (R120). -/
def State.hostCall (s : State) : State :=
  match s.inp.call with
  | .tick => s.startTick
  | .load image => s.loadImage image

/-- After an instruction: one less of the budget is left (R110). -/
def State.afterInstruction (s : State) (left : Nat) : State := { s with tick := .inTick left }

/-- The end of every step: the host's wishes and answers of the next step are free (log 1). -/
def State.nextTurn (s : State) : State :=
  { s with turn := s.turn + 1, inp := Config.inputs (s.turn + 1) }

end Sys2Proof.Machine
end

