-- ==== Sys2Proof/Machine/Turn.lean ====
section
/-! DEFINITION. The interpreter's move, and which of the two agents moves: the interpreter or the audio agent (spec
40_cycle.md R100, R110; 20_memory.md R74, R75; 49_audio.md R316, R317). -/

namespace Sys2Proof.Machine

/-- `Step` (40_cycle.md R100): one instruction, or the fault the fetch or the decode raises. -/
def State.runOne (s : State) : Host.Outcome State Fault Refusal :=
  match s.fetch with
  | .protectedRegion => .next (s.raise .protectedRegion none)
  | .invalid w t => .next (t.raise .invalidInstruction (some w))
  | .decoded i t => exec i t

/-- Go on from an instruction's next state. -/
def mapNext (f : State → State) : Host.Outcome State Fault Refusal → Host.Outcome State Fault Refusal
  | .next t => .next (f t)
  | .fault r => .fault r
  | .refused r => .refused r

/-- One part of the tick algorithm: the host's call where no tick is in progress; else one instruction while the machine is
Running and budget is left, and the end of the tick otherwise (40_cycle.md R110, R112; log 4). -/
def State.tickPart (s : State) : Host.Outcome State Fault Refusal :=
  match s.tick with
  | .between => .next s.hostCall
  | .inTick 0 => .next s.finishTick
  | .inTick (left + 1) =>
    if s.run = .running then mapNext (fun t => t.afterInstruction left) s.runOne else .next s.finishTick

/-- The interpreter's move: its earlier stores are done, and the next part of the tick happens. -/
def State.interpret (s : State) : Host.Outcome State Fault Refusal := s.settleStores.tickPart

/-- The interpreter's move needs the audio generator's mutual exclusion: it writes the base, the cursor, the phase and the
bit, whatever they hold. That is SetBaseAddr (AUDIO, 49_audio.md R317) and the reset of a Load (10_state.md R35, 70 R360),
and nothing else (20_memory.md R75; log 28). -/
def State.needsGenerator (s : State) : Bool :=
  match s.tick with
  | .between =>
    match s.inp.call with
    | .load _ => true
    | .tick => false
  | .inTick 0 => false
  | .inTick (_ + 1) => decide (s.run = .running ∧ s.fetch.instr = some .audio)

/-- The audio agent moves in this step. A call in progress goes on where the host says so and where the interpreter needs
the generator and waits for it; a call begins where the callback makes one on an installed source (49_audio.md R316,
R317). -/
def State.audioTurn (s : State) : Bool :=
  match s.gen with
  | some _ => s.inp.audio.isSome || s.needsGenerator
  | none => s.au.on && s.inp.audio.isSome

end Sys2Proof.Machine
end

