-- ==== Sys2Proof/Machine/Step.lean ====
section
/-! DEFINITION. One step of the whole machine (spec 40_cycle.md R100, R110), and the placing of an instruction where the
next step fetches it. -/

namespace Sys2Proof.Machine

/-- One step of the machine: the audio agent's move or the interpreter's, by turns the host leaves free (49 R316; 20 R74).
Every step ends with new free answers of the host (log 1). -/
def step (s : State) : Host.Outcome State Fault Refusal :=
  if s.audioTurn then .next s.audioMove.nextTurn else mapNext State.nextTurn s.interpret

/-- `s` with the instruction whose bits are `w` (in the numbering of spec/opcode_table.json, the bits above `nbits` zero)
where the next step fetches: its four bytes at the pc (at 0x200 where the pc is below it), the machine Running inside a
tick with budget left, no call of Generate in progress and none in between (log 3). -/
def State.withFetchWord (s : State) (nbits w : Nat) : State :=
  let pc := if s.pc < 0x200#16 then 0x200#16 else s.pc
  let left := match s.tick with
    | .inTick (n + 1) => n + 1
    | _ => 1
  { s with pc := pc, run := .running, tick := .inTick left, gen := none, inp := { s.inp with audio := none } }.writeBytes
    pc (tableBytes nbits w)

end Sys2Proof.Machine
end

