-- ==== Sys2Proof/Laws/Decode.lean ====
section
/-! SUPPORT. The fields of an encoded word are the fields it was made of (30_encoding.md R81), and a word is made of its
fields. -/

namespace Sys2Proof

open BitVec

/-! ## Words `G NNN` -/

theorem fieldG_nnn (g : BitVec 4) (a : BitVec 12) : fieldG (g ++ a) = g := extractLsb'_append_eq_left
theorem fieldNNN_nnn (g : BitVec 4) (a : BitVec 12) : fieldNNN (g ++ a) = a := extractLsb'_append_eq_right

/-! ## Words `G X NN` -/

theorem fieldNN_xnn (g x : BitVec 4) (a : Byte) : fieldNN (g ++ x ++ a) = a :=
  extractLsb'_append_eq_right (a := g ++ x)

theorem fieldX_xnn (g x : BitVec 4) (a : Byte) : fieldX (g ++ x ++ a) = x :=
  (extractLsb'_append_eq_of_le (xhi := g ++ x) (xlo := a) (start := 8) (by decide)).trans extractLsb'_append_eq_right

theorem fieldG_xnn (g x : BitVec 4) (a : Byte) : fieldG (g ++ x ++ a) = g :=
  (extractLsb'_append_eq_of_le (xhi := g ++ x) (xlo := a) (start := 12) (by decide)).trans extractLsb'_append_eq_left

/-! ## Words `G X Y N` -/

theorem fieldN_xyn (g x y n : BitVec 4) : fieldN (g ++ x ++ y ++ n) = n :=
  extractLsb'_append_eq_right (a := g ++ x ++ y)

theorem fieldY_xyn (g x y n : BitVec 4) : fieldY (g ++ x ++ y ++ n) = y :=
  (extractLsb'_append_eq_of_le (xhi := g ++ x ++ y) (xlo := n) (start := 4) (by decide)).trans
    (extractLsb'_append_eq_right (a := g ++ x))

theorem fieldX_xyn (g x y n : BitVec 4) : fieldX (g ++ x ++ y ++ n) = x :=
  (extractLsb'_append_eq_of_le (xhi := g ++ x ++ y) (xlo := n) (start := 8) (by decide)).trans
    ((extractLsb'_append_eq_of_le (xhi := g ++ x) (xlo := y) (start := 4) (by decide)).trans
      (extractLsb'_append_eq_right (a := g)))

theorem fieldG_xyn (g x y n : BitVec 4) : fieldG (g ++ x ++ y ++ n) = g :=
  (extractLsb'_append_eq_of_le (xhi := g ++ x ++ y) (xlo := n) (start := 12) (by decide)).trans
    ((extractLsb'_append_eq_of_le (xhi := g ++ x) (xlo := y) (start := 8) (by decide)).trans
      (extractLsb'_append_eq_left (a := g)))

/-! ## Words `00C N`, `00D N` -/

theorem fieldN_n (c : BitVec 12) (n : BitVec 4) : fieldN (c ++ n) = n := extractLsb'_append_eq_right (a := c)

theorem fieldY_n (c : BitVec 12) (n : BitVec 4) : fieldY (c ++ n) = c.extractLsb' 0 4 :=
  extractLsb'_append_eq_of_le (xhi := c) (xlo := n) (start := 4) (by decide)

theorem fieldX_n (c : BitVec 12) (n : BitVec 4) : fieldX (c ++ n) = c.extractLsb' 4 4 :=
  extractLsb'_append_eq_of_le (xhi := c) (xlo := n) (start := 8) (by decide)

theorem fieldG_n (c : BitVec 12) (n : BitVec 4) : fieldG (c ++ n) = c.extractLsb' 8 4 :=
  extractLsb'_append_eq_of_le (xhi := c) (xlo := n) (start := 12) (by decide)

/-! ## A word from its fields -/

theorem word_eq_nnn (w : Word) : fieldG w ++ fieldNNN w = w := by
  unfold fieldG fieldNNN
  apply BitVec.eq_of_toNat_eq
  have := w.isLt
  rw [BitVec.toNat_append (x := w.extractLsb' 12 4), (Nat.shiftLeft_add_eq_or_of_lt (BitVec.isLt _) _).symm]
  simp only [BitVec.extractLsb'_toNat, Nat.shiftRight_eq_div_pow, Nat.shiftLeft_eq]
  omega

theorem word_eq_xnn (w : Word) : fieldG w ++ fieldX w ++ fieldNN w = w := by
  conv => rhs; rw [← word_eq_nnn w]
  unfold fieldG fieldX fieldNN fieldNNN
  apply BitVec.eq_of_toNat_eq
  rw [BitVec.toNat_append (x := w.extractLsb' 12 4 ++ w.extractLsb' 8 4), BitVec.toNat_append (x := w.extractLsb' 12 4),
    BitVec.toNat_append (x := w.extractLsb' 12 4),
    (Nat.shiftLeft_add_eq_or_of_lt (BitVec.isLt _) _).symm, (Nat.shiftLeft_add_eq_or_of_lt (BitVec.isLt _) _).symm,
    (Nat.shiftLeft_add_eq_or_of_lt (BitVec.isLt _) _).symm]
  simp only [BitVec.extractLsb'_toNat, Nat.shiftRight_eq_div_pow, Nat.shiftLeft_eq]
  omega

theorem word_eq_xyn (w : Word) : fieldG w ++ fieldX w ++ fieldY w ++ fieldN w = w := by
  conv => rhs; rw [← word_eq_xnn w]
  unfold fieldG fieldX fieldNN fieldY fieldN
  apply BitVec.eq_of_toNat_eq
  rw [BitVec.toNat_append (x := w.extractLsb' 12 4 ++ w.extractLsb' 8 4 ++ w.extractLsb' 4 4),
    BitVec.toNat_append (x := w.extractLsb' 12 4 ++ w.extractLsb' 8 4),
    BitVec.toNat_append (x := w.extractLsb' 12 4 ++ w.extractLsb' 8 4),
    (Nat.shiftLeft_add_eq_or_of_lt (BitVec.isLt _) _).symm, (Nat.shiftLeft_add_eq_or_of_lt (BitVec.isLt _) _).symm,
    (Nat.shiftLeft_add_eq_or_of_lt (BitVec.isLt _) _).symm]
  simp only [BitVec.extractLsb'_toNat, Nat.shiftRight_eq_div_pow, Nat.shiftLeft_eq]
  omega

/-- A word is made of its two bytes, high byte first (20_memory.md R61). -/
theorem wordOf_bytes (w : Word) : wordOf (highByte w) (lowByte w) = w := by
  unfold wordOf highByte lowByte
  apply BitVec.eq_of_toNat_eq
  have := w.isLt
  rw [BitVec.toNat_append (x := w.extractLsb' 8 8), (Nat.shiftLeft_add_eq_or_of_lt (BitVec.isLt _) _).symm]
  simp only [BitVec.extractLsb'_toNat, Nat.shiftRight_eq_div_pow, Nat.shiftLeft_eq]
  omega

/-! ## Words that are not the first word of the long form -/

theorem ne_longWord_of_G {w : Word} {g : BitVec 4} (h : fieldG w = g) (hg : (g == 0xF#4) = false) : w ≠ longWord := by
  rintro rfl
  subst h
  exact absurd hg (by decide)

theorem ne_longWord_of_NN {w : Word} {nn : Byte} (h : fieldNN w = nn) (hn : (nn == 0x00#8) = false) : w ≠ longWord := by
  rintro rfl
  subst h
  exact absurd hn (by decide)

end Sys2Proof
end

