-- ==== Sys2Proof/Laws/PerInstr.lean ====
section
/-! SUPPORT. A statement made of every instruction, one lemma each: an instruction is as long as the bytes its encoding
has (30_encoding.md R91). -/

namespace Sys2Proof.Laws.EncodedLength

/-- The encoding has `length` bytes, 4 for the long form and 2 for every other instruction. -/
def Statement (i : Instr) : Prop :=
  (bytesOfWords (encode i)).length = i.length ∧ (i.length = 4 ↔ ∃ nnnn, i = .ldILong nnnn)

/-- An instruction of one word that is not the long form's first word. -/
theorem statement_of_ne {i : Instr} (hw : i.word ≠ longWord) (he : encode i = [i.word]) (hi : ∀ nnnn, i ≠ .ldILong nnnn) :
    Statement i := by
  have hl : i.length = 2 := if_neg hw
  refine ⟨by rw [he, hl]; rfl, ?_⟩
  rw [hl]
  simpa using hi

theorem cls : Statement .cls :=
  statement_of_ne (ne_of_beq_false rfl) rfl nofun

theorem ret : Statement .ret :=
  statement_of_ne (ne_of_beq_false rfl) rfl nofun

theorem scd (n : BitVec 4) : Statement (.scd n) :=
  statement_of_ne (ne_longWord_of_G (fieldG_n ..) rfl) rfl nofun

theorem scu (n : BitVec 4) : Statement (.scu n) :=
  statement_of_ne (ne_longWord_of_G (fieldG_n ..) rfl) rfl nofun

theorem scr : Statement .scr :=
  statement_of_ne (ne_of_beq_false rfl) rfl nofun

theorem scl : Statement .scl :=
  statement_of_ne (ne_of_beq_false rfl) rfl nofun

theorem exit : Statement .exit :=
  statement_of_ne (ne_of_beq_false rfl) rfl nofun

theorem low : Statement .low :=
  statement_of_ne (ne_of_beq_false rfl) rfl nofun

theorem high : Statement .high :=
  statement_of_ne (ne_of_beq_false rfl) rfl nofun

theorem jp (nnn : BitVec 12) : Statement (.jp nnn) :=
  statement_of_ne (ne_longWord_of_G (fieldG_nnn ..) rfl) rfl nofun

theorem call (nnn : BitVec 12) : Statement (.call nnn) :=
  statement_of_ne (ne_longWord_of_G (fieldG_nnn ..) rfl) rfl nofun

theorem seImm (x : Reg) (nn : Byte) : Statement (.seImm x nn) :=
  statement_of_ne (ne_longWord_of_G (fieldG_xnn ..) rfl) rfl nofun

theorem sneImm (x : Reg) (nn : Byte) : Statement (.sneImm x nn) :=
  statement_of_ne (ne_longWord_of_G (fieldG_xnn ..) rfl) rfl nofun

theorem seReg (x y : Reg) : Statement (.seReg x y) :=
  statement_of_ne (ne_longWord_of_G (fieldG_xyn ..) rfl) rfl nofun

theorem saveRange (x y : Reg) : Statement (.saveRange x y) :=
  statement_of_ne (ne_longWord_of_G (fieldG_xyn ..) rfl) rfl nofun

theorem loadRange (x y : Reg) : Statement (.loadRange x y) :=
  statement_of_ne (ne_longWord_of_G (fieldG_xyn ..) rfl) rfl nofun

theorem ldImm (x : Reg) (nn : Byte) : Statement (.ldImm x nn) :=
  statement_of_ne (ne_longWord_of_G (fieldG_xnn ..) rfl) rfl nofun

theorem addImm (x : Reg) (nn : Byte) : Statement (.addImm x nn) :=
  statement_of_ne (ne_longWord_of_G (fieldG_xnn ..) rfl) rfl nofun

theorem ldReg (x y : Reg) : Statement (.ldReg x y) :=
  statement_of_ne (ne_longWord_of_G (fieldG_xyn ..) rfl) rfl nofun

theorem orReg (x y : Reg) : Statement (.orReg x y) :=
  statement_of_ne (ne_longWord_of_G (fieldG_xyn ..) rfl) rfl nofun

theorem andReg (x y : Reg) : Statement (.andReg x y) :=
  statement_of_ne (ne_longWord_of_G (fieldG_xyn ..) rfl) rfl nofun

theorem xorReg (x y : Reg) : Statement (.xorReg x y) :=
  statement_of_ne (ne_longWord_of_G (fieldG_xyn ..) rfl) rfl nofun

theorem addReg (x y : Reg) : Statement (.addReg x y) :=
  statement_of_ne (ne_longWord_of_G (fieldG_xyn ..) rfl) rfl nofun

theorem subReg (x y : Reg) : Statement (.subReg x y) :=
  statement_of_ne (ne_longWord_of_G (fieldG_xyn ..) rfl) rfl nofun

theorem shr (x y : Reg) : Statement (.shr x y) :=
  statement_of_ne (ne_longWord_of_G (fieldG_xyn ..) rfl) rfl nofun

theorem subn (x y : Reg) : Statement (.subn x y) :=
  statement_of_ne (ne_longWord_of_G (fieldG_xyn ..) rfl) rfl nofun

theorem shl (x y : Reg) : Statement (.shl x y) :=
  statement_of_ne (ne_longWord_of_G (fieldG_xyn ..) rfl) rfl nofun

theorem sneReg (x y : Reg) : Statement (.sneReg x y) :=
  statement_of_ne (ne_longWord_of_G (fieldG_xyn ..) rfl) rfl nofun

theorem ldI (nnn : BitVec 12) : Statement (.ldI nnn) :=
  statement_of_ne (ne_longWord_of_G (fieldG_nnn ..) rfl) rfl nofun

theorem jpV0 (nnn : BitVec 12) : Statement (.jpV0 nnn) :=
  statement_of_ne (ne_longWord_of_G (fieldG_nnn ..) rfl) rfl nofun

theorem rnd (x : Reg) (nn : Byte) : Statement (.rnd x nn) :=
  statement_of_ne (ne_longWord_of_G (fieldG_xnn ..) rfl) rfl nofun

theorem drw (x y : Reg) (n : BitVec 4) : Statement (.drw x y n) :=
  statement_of_ne (ne_longWord_of_G (fieldG_xyn ..) rfl) rfl nofun

theorem skp (x : Reg) : Statement (.skp x) :=
  statement_of_ne (ne_longWord_of_G (fieldG_xnn ..) rfl) rfl nofun

theorem sknp (x : Reg) : Statement (.sknp x) :=
  statement_of_ne (ne_longWord_of_G (fieldG_xnn ..) rfl) rfl nofun

theorem ldILong (nnnn : Word) : Statement (.ldILong nnnn) := by
  exact ⟨rfl, ⟨fun _ => ⟨nnnn, rfl⟩, fun _ => rfl⟩⟩

theorem plane (n : BitVec 4) : Statement (.plane n) :=
  statement_of_ne (ne_longWord_of_NN (fieldNN_xnn ..) rfl) rfl nofun

theorem audio : Statement .audio :=
  statement_of_ne (ne_of_beq_false rfl) rfl nofun

theorem ldVxDt (x : Reg) : Statement (.ldVxDt x) :=
  statement_of_ne (ne_longWord_of_NN (fieldNN_xnn ..) rfl) rfl nofun

theorem ldVxK (x : Reg) : Statement (.ldVxK x) :=
  statement_of_ne (ne_longWord_of_NN (fieldNN_xnn ..) rfl) rfl nofun

theorem ldDt (x : Reg) : Statement (.ldDt x) :=
  statement_of_ne (ne_longWord_of_NN (fieldNN_xnn ..) rfl) rfl nofun

theorem ldSt (x : Reg) : Statement (.ldSt x) :=
  statement_of_ne (ne_longWord_of_NN (fieldNN_xnn ..) rfl) rfl nofun

theorem addI (x : Reg) : Statement (.addI x) :=
  statement_of_ne (ne_longWord_of_NN (fieldNN_xnn ..) rfl) rfl nofun

theorem ldF (x : Reg) : Statement (.ldF x) :=
  statement_of_ne (ne_longWord_of_NN (fieldNN_xnn ..) rfl) rfl nofun

theorem ldHf (x : Reg) : Statement (.ldHf x) :=
  statement_of_ne (ne_longWord_of_NN (fieldNN_xnn ..) rfl) rfl nofun

theorem bcd (x : Reg) : Statement (.bcd x) :=
  statement_of_ne (ne_longWord_of_NN (fieldNN_xnn ..) rfl) rfl nofun

theorem save (x : Reg) : Statement (.save x) :=
  statement_of_ne (ne_longWord_of_NN (fieldNN_xnn ..) rfl) rfl nofun

theorem load (x : Reg) : Statement (.load x) :=
  statement_of_ne (ne_longWord_of_NN (fieldNN_xnn ..) rfl) rfl nofun

theorem saveFlags (x : Reg) : Statement (.saveFlags x) :=
  statement_of_ne (ne_longWord_of_NN (fieldNN_xnn ..) rfl) rfl nofun

theorem loadFlags (x : Reg) : Statement (.loadFlags x) :=
  statement_of_ne (ne_longWord_of_NN (fieldNN_xnn ..) rfl) rfl nofun

end Sys2Proof.Laws.EncodedLength
end

