-- ==== Sys2Proof/Laws/Sparse.lean ====
section
/-! SUPPORT. What `sparseGet` and `sparseSet` do, on every list, and that `sparseSet` keeps the canonical form. -/

namespace Sys2Proof.Machine

variable {d : Nat → Byte}

@[simp] theorem sparseGet_nil (k : Nat) : sparseGet d [] k = d k := rfl

theorem sparseGet_cons (c : Host.Cell) (m : List Host.Cell) (k : Nat) :
    sparseGet d (c :: m) k = if c.1 = k then c.2 else sparseGet d m k := rfl

theorem sparseGet_filter (m : List Host.Cell) (k j : Nat) :
    sparseGet d (m.filter (fun c => c.1 ≠ k)) j = if j = k then d j else sparseGet d m j := by
  induction m with
  | nil => simp
  | cons c m ih =>
    by_cases h : c.1 = k
    · simp only [ne_eq, h, not_true_eq_false, decide_false, Bool.false_eq_true, not_false_eq_true,
        List.filter_cons_of_neg, sparseGet_cons] at ih ⊢
      rw [ih]
      by_cases hj : j = k
      · simp [hj]
      · simp [hj, Ne.symm hj]
    · rw [List.filter_cons, if_pos (by simpa using h), sparseGet_cons, sparseGet_cons, ih]
      by_cases hj : c.1 = j
      · simp [hj, show j ≠ k from hj ▸ h]
      · simp [hj]

theorem sparseGet_insert (m : List Host.Cell) (k j : Nat) (b : Byte) :
    sparseGet d (sparseInsert k b m) j = if j = k then b else sparseGet d m j := by
  induction m with
  | nil => simp [sparseInsert, sparseGet_cons, eq_comm]
  | cons c m ih =>
    unfold sparseInsert
    split
    · rw [sparseGet_cons]
      simp only [eq_comm]
    · split
      · next h =>
        rw [sparseGet_cons, sparseGet_cons]
        by_cases hj : j = k
        · simp [hj]
        · simp [Ne.symm hj, ← h, hj]
      · next h =>
        rw [sparseGet_cons, sparseGet_cons, ih]
        by_cases hj : c.1 = j
        · simp [hj, show j ≠ k by omega]
        · simp [hj]

/-- A read after a write: the byte written where it was written, what was there elsewhere. -/
theorem sparseGet_set (m : List Host.Cell) (k j : Nat) (b : Byte) :
    sparseGet d (sparseSet d m k b) j = if j = k then b else sparseGet d m j := by
  unfold sparseSet
  split
  · next h =>
    rw [sparseGet_filter]
    by_cases hj : j = k
    · simp [hj, h]
    · simp [hj]
  · exact sparseGet_insert m k j b

theorem sparseInsert_mem {c : Host.Cell} {k : Nat} {b : Byte} {m : List Host.Cell}
    (h : c ∈ sparseInsert k b m) : c = (k, b) ∨ c ∈ m := by
  induction m with
  | nil => simpa [sparseInsert] using h
  | cons a m ih =>
    unfold sparseInsert at h
    split at h
    · simpa using h
    · split at h
      · rcases List.mem_cons.1 h with h | h
        · exact .inl h
        · exact .inr (List.mem_cons_of_mem _ h)
      · rcases List.mem_cons.1 h with h | h
        · exact .inr (h ▸ List.mem_cons_self)
        · rcases ih h with h | h
          · exact .inl h
          · exact .inr (List.mem_cons_of_mem _ h)

theorem sparseInsert_pairwise {k : Nat} {b : Byte} {m : List Host.Cell}
    (h : m.Pairwise (fun a b => a.1 < b.1)) : (sparseInsert k b m).Pairwise (fun a b => a.1 < b.1) := by
  induction m with
  | nil => simp [sparseInsert]
  | cons a m ih =>
    obtain ⟨ha, hm⟩ := List.pairwise_cons.1 h
    unfold sparseInsert
    split
    · next hk =>
      refine List.pairwise_cons.2 ⟨fun c hc => ?_, h⟩
      rcases List.mem_cons.1 hc with rfl | hc
      · exact hk
      · exact lt_trans hk (ha c hc)
    · split
      · next hk => exact List.pairwise_cons.2 ⟨fun c hc => by simpa [hk] using ha c hc, hm⟩
      · next h1 h2 =>
        refine List.pairwise_cons.2 ⟨fun c hc => ?_, ih hm⟩
        rcases sparseInsert_mem hc with rfl | hc
        · show a.1 < k
          omega
        · exact ha c hc

/-- A cell listed after a write is the one written or was listed before. -/
theorem sparseSet_mem {c : Host.Cell} {m : List Host.Cell} {k : Nat} {b : Byte}
    (h : c ∈ sparseSet d m k b) : (c = (k, b) ∧ b ≠ d k) ∨ c ∈ m := by
  unfold sparseSet at h
  split at h
  · exact .inr (List.mem_filter.1 h).1
  · next hb => exact (sparseInsert_mem h).imp_left (fun h => ⟨h, hb⟩)

/-- A write inside the bound keeps the canonical form. -/
theorem sparseSet_wf {bound : Nat} {m : List Host.Cell} {k : Nat} {b : Byte}
    (h : sparseWf d bound m) (hk : k < bound) : sparseWf d bound (sparseSet d m k b) := by
  refine ⟨?_, fun c hc => ?_⟩
  · unfold sparseSet
    split
    · exact h.1.filter _
    · exact sparseInsert_pairwise h.1
  · rcases sparseSet_mem hc with ⟨rfl, hb⟩ | hc
    · exact ⟨hk, hb⟩
    · exact h.2 c hc

@[simp] theorem sparseWf_nil (bound : Nat) : sparseWf d bound [] := ⟨List.Pairwise.nil, by simp⟩

/-- In canonical form the listed byte is the one read. -/
theorem sparseGet_of_mem {bound : Nat} {m : List Host.Cell} (h : sparseWf d bound m) {c : Host.Cell} (hc : c ∈ m) :
    sparseGet d m c.1 = c.2 := by
  induction m with
  | nil => simp at hc
  | cons a m ih =>
    obtain ⟨hp, ha⟩ := h
    obtain ⟨hlt, hm⟩ := List.pairwise_cons.1 hp
    rw [sparseGet_cons]
    rcases List.mem_cons.1 hc with rfl | hc'
    · simp
    · have := hlt c hc'
      rw [if_neg (by omega), ih ⟨hm, fun x hx => ha x (List.mem_cons_of_mem _ hx)⟩ hc']

/-- A byte that is not the default is listed. -/
theorem mem_of_sparseGet {m : List Host.Cell} {k : Nat} (h : sparseGet d m k ≠ d k) : (k, sparseGet d m k) ∈ m := by
  induction m with
  | nil => simp at h
  | cons a m ih =>
    rw [sparseGet_cons] at h ⊢
    split
    · next hk => subst hk; simp
    · next hk =>
      rw [if_neg hk] at h
      exact List.mem_cons_of_mem _ (ih h)

/-- Two canonical lists that read alike are the same list: equal memories are equal data. -/
theorem sparse_ext {bound : Nat} {m m' : List Host.Cell} (h : sparseWf d bound m) (h' : sparseWf d bound m')
    (e : ∀ k, sparseGet d m k = sparseGet d m' k) : m = m' := by
  have key : ∀ {m m' : List Host.Cell}, sparseWf d bound m → sparseWf d bound m' →
      (∀ k, sparseGet d m k = sparseGet d m' k) → ∀ c ∈ m, c ∈ m' := by
    intro m m' h h' e c hc
    have h1 := sparseGet_of_mem h hc
    have h2 := mem_of_sparseGet (d := d) (m := m') (k := c.1) (by rw [← e, h1]; exact (h.2 c hc).2)
    rw [← e, h1] at h2
    exact h2
  have anti : ∀ a b : Host.Cell, a ∈ m → b ∈ m' → a.1 < b.1 → b.1 < a.1 → a = b := by intros; omega
  have nd : ∀ {m : List Host.Cell}, m.Pairwise (fun a b => a.1 < b.1) → m.Nodup :=
    fun h => h.imp (fun hab hne => by subst hne; omega)
  refine List.Perm.eq_of_pairwise anti h.1 h'.1 ?_
  refine (List.perm_ext_iff_of_nodup (nd h.1) (nd h'.1)).2 (fun c => ⟨key h h' e c, key h' h (fun k => (e k).symm) c⟩)

end Sys2Proof.Machine
end

