-- ==== Sys2Proof/Laws/State.lean ====
section
/-! SUPPORT. One lemma per field per update of the state, so that no later proof unfolds a record update. -/

namespace Sys2Proof.Machine

/-! ## `setV` -/

@[simp] theorem State.setV_v (s : State) (x : Reg) (b : Byte) : (s.setV x b).v = s.v.set x.toNat b x.isLt := rfl
@[simp] theorem State.setV_pc (s : State) (x : Reg) (b : Byte) : (s.setV x b).pc = s.pc := rfl
@[simp] theorem State.setV_i (s : State) (x : Reg) (b : Byte) : (s.setV x b).i = s.i := rfl
@[simp] theorem State.setV_sp (s : State) (x : Reg) (b : Byte) : (s.setV x b).sp = s.sp := rfl
@[simp] theorem State.setV_stack (s : State) (x : Reg) (b : Byte) : (s.setV x b).stack = s.stack := rfl
@[simp] theorem State.setV_dt (s : State) (x : Reg) (b : Byte) : (s.setV x b).dt = s.dt := rfl
@[simp] theorem State.setV_st (s : State) (x : Reg) (b : Byte) : (s.setV x b).st = s.st := rfl
@[simp] theorem State.setV_plane (s : State) (x : Reg) (b : Byte) : (s.setV x b).plane = s.plane := rfl
@[simp] theorem State.setV_fb (s : State) (x : Reg) (b : Byte) : (s.setV x b).fb = s.fb := rfl
@[simp] theorem State.setV_run (s : State) (x : Reg) (b : Byte) : (s.setV x b).run = s.run := rfl
@[simp] theorem State.setV_kw (s : State) (x : Reg) (b : Byte) : (s.setV x b).kw = s.kw := rfl
@[simp] theorem State.setV_fault (s : State) (x : Reg) (b : Byte) : (s.setV x b).fault = s.fault := rfl
@[simp] theorem State.setV_au (s : State) (x : Reg) (b : Byte) : (s.setV x b).au = s.au := rfl
@[simp] theorem State.setV_mem (s : State) (x : Reg) (b : Byte) : (s.setV x b).mem = s.mem := rfl
@[simp] theorem State.setV_flags (s : State) (x : Reg) (b : Byte) : (s.setV x b).flags = s.flags := rfl
@[simp] theorem State.setV_params (s : State) (x : Reg) (b : Byte) : (s.setV x b).params = s.params := rfl
@[simp] theorem State.setV_tick (s : State) (x : Reg) (b : Byte) : (s.setV x b).tick = s.tick := rfl
@[simp] theorem State.setV_lastTick (s : State) (x : Reg) (b : Byte) : (s.setV x b).lastTick = s.lastTick := rfl
@[simp] theorem State.setV_samples (s : State) (x : Reg) (b : Byte) : (s.setV x b).samples = s.samples := rfl
@[simp] theorem State.setV_gen (s : State) (x : Reg) (b : Byte) : (s.setV x b).gen = s.gen := rfl
@[simp] theorem State.setV_unseen (s : State) (x : Reg) (b : Byte) : (s.setV x b).unseen = s.unseen := rfl
@[simp] theorem State.setV_inp (s : State) (x : Reg) (b : Byte) : (s.setV x b).inp = s.inp := rfl
@[simp] theorem State.setV_turn (s : State) (x : Reg) (b : Byte) : (s.setV x b).turn = s.turn := rfl

/-! ## `writeByte` -/

@[simp] theorem State.writeByte_v (s : State) (a : Word) (b : Byte) : (s.writeByte a b).v = s.v := rfl
@[simp] theorem State.writeByte_pc (s : State) (a : Word) (b : Byte) : (s.writeByte a b).pc = s.pc := rfl
@[simp] theorem State.writeByte_i (s : State) (a : Word) (b : Byte) : (s.writeByte a b).i = s.i := rfl
@[simp] theorem State.writeByte_sp (s : State) (a : Word) (b : Byte) : (s.writeByte a b).sp = s.sp := rfl
@[simp] theorem State.writeByte_stack (s : State) (a : Word) (b : Byte) : (s.writeByte a b).stack = s.stack := rfl
@[simp] theorem State.writeByte_dt (s : State) (a : Word) (b : Byte) : (s.writeByte a b).dt = s.dt := rfl
@[simp] theorem State.writeByte_st (s : State) (a : Word) (b : Byte) : (s.writeByte a b).st = s.st := rfl
@[simp] theorem State.writeByte_plane (s : State) (a : Word) (b : Byte) : (s.writeByte a b).plane = s.plane := rfl
@[simp] theorem State.writeByte_fb (s : State) (a : Word) (b : Byte) : (s.writeByte a b).fb = s.fb := rfl
@[simp] theorem State.writeByte_run (s : State) (a : Word) (b : Byte) : (s.writeByte a b).run = s.run := rfl
@[simp] theorem State.writeByte_kw (s : State) (a : Word) (b : Byte) : (s.writeByte a b).kw = s.kw := rfl
@[simp] theorem State.writeByte_fault (s : State) (a : Word) (b : Byte) : (s.writeByte a b).fault = s.fault := rfl
@[simp] theorem State.writeByte_au (s : State) (a : Word) (b : Byte) : (s.writeByte a b).au = s.au := rfl
@[simp] theorem State.writeByte_mem (s : State) (a : Word) (b : Byte) : (s.writeByte a b).mem = sparseSet (unlisted s.params) s.mem a.toNat b := rfl
@[simp] theorem State.writeByte_flags (s : State) (a : Word) (b : Byte) : (s.writeByte a b).flags = s.flags := rfl
@[simp] theorem State.writeByte_params (s : State) (a : Word) (b : Byte) : (s.writeByte a b).params = s.params := rfl
@[simp] theorem State.writeByte_tick (s : State) (a : Word) (b : Byte) : (s.writeByte a b).tick = s.tick := rfl
@[simp] theorem State.writeByte_lastTick (s : State) (a : Word) (b : Byte) : (s.writeByte a b).lastTick = s.lastTick := rfl
@[simp] theorem State.writeByte_samples (s : State) (a : Word) (b : Byte) : (s.writeByte a b).samples = s.samples := rfl
@[simp] theorem State.writeByte_gen (s : State) (a : Word) (b : Byte) : (s.writeByte a b).gen = s.gen := rfl
@[simp] theorem State.writeByte_unseen (s : State) (a : Word) (b : Byte) : (s.writeByte a b).unseen = s.unseen := rfl
@[simp] theorem State.writeByte_inp (s : State) (a : Word) (b : Byte) : (s.writeByte a b).inp = s.inp := rfl
@[simp] theorem State.writeByte_turn (s : State) (a : Word) (b : Byte) : (s.writeByte a b).turn = s.turn := rfl

/-! ## `storeByte` -/

@[simp] theorem State.storeByte_v (s : State) (a : Word) (b : Byte) : (s.storeByte a b).v = s.v := rfl
@[simp] theorem State.storeByte_pc (s : State) (a : Word) (b : Byte) : (s.storeByte a b).pc = s.pc := rfl
@[simp] theorem State.storeByte_i (s : State) (a : Word) (b : Byte) : (s.storeByte a b).i = s.i := rfl
@[simp] theorem State.storeByte_sp (s : State) (a : Word) (b : Byte) : (s.storeByte a b).sp = s.sp := rfl
@[simp] theorem State.storeByte_stack (s : State) (a : Word) (b : Byte) : (s.storeByte a b).stack = s.stack := rfl
@[simp] theorem State.storeByte_dt (s : State) (a : Word) (b : Byte) : (s.storeByte a b).dt = s.dt := rfl
@[simp] theorem State.storeByte_st (s : State) (a : Word) (b : Byte) : (s.storeByte a b).st = s.st := rfl
@[simp] theorem State.storeByte_plane (s : State) (a : Word) (b : Byte) : (s.storeByte a b).plane = s.plane := rfl
@[simp] theorem State.storeByte_fb (s : State) (a : Word) (b : Byte) : (s.storeByte a b).fb = s.fb := rfl
@[simp] theorem State.storeByte_run (s : State) (a : Word) (b : Byte) : (s.storeByte a b).run = s.run := rfl
@[simp] theorem State.storeByte_kw (s : State) (a : Word) (b : Byte) : (s.storeByte a b).kw = s.kw := rfl
@[simp] theorem State.storeByte_fault (s : State) (a : Word) (b : Byte) : (s.storeByte a b).fault = s.fault := rfl
@[simp] theorem State.storeByte_au (s : State) (a : Word) (b : Byte) : (s.storeByte a b).au = s.au := rfl
@[simp] theorem State.storeByte_mem (s : State) (a : Word) (b : Byte) : (s.storeByte a b).mem = sparseSet (unlisted s.params) s.mem a.toNat b := rfl
@[simp] theorem State.storeByte_flags (s : State) (a : Word) (b : Byte) : (s.storeByte a b).flags = s.flags := rfl
@[simp] theorem State.storeByte_params (s : State) (a : Word) (b : Byte) : (s.storeByte a b).params = s.params := rfl
@[simp] theorem State.storeByte_tick (s : State) (a : Word) (b : Byte) : (s.storeByte a b).tick = s.tick := rfl
@[simp] theorem State.storeByte_lastTick (s : State) (a : Word) (b : Byte) : (s.storeByte a b).lastTick = s.lastTick := rfl
@[simp] theorem State.storeByte_samples (s : State) (a : Word) (b : Byte) : (s.storeByte a b).samples = s.samples := rfl
@[simp] theorem State.storeByte_gen (s : State) (a : Word) (b : Byte) : (s.storeByte a b).gen = s.gen := rfl
@[simp] theorem State.storeByte_unseen (s : State) (a : Word) (b : Byte) : (s.storeByte a b).unseen = s.unseen ++ [(a, s.readByte a)] := rfl
@[simp] theorem State.storeByte_inp (s : State) (a : Word) (b : Byte) : (s.storeByte a b).inp = s.inp := rfl
@[simp] theorem State.storeByte_turn (s : State) (a : Word) (b : Byte) : (s.storeByte a b).turn = s.turn := rfl

/-! ## `jump` -/

@[simp] theorem State.jump_v (s : State) (a : Word) : (s.jump a).v = s.v := rfl
@[simp] theorem State.jump_pc (s : State) (a : Word) : (s.jump a).pc = a := rfl
@[simp] theorem State.jump_i (s : State) (a : Word) : (s.jump a).i = s.i := rfl
@[simp] theorem State.jump_sp (s : State) (a : Word) : (s.jump a).sp = s.sp := rfl
@[simp] theorem State.jump_stack (s : State) (a : Word) : (s.jump a).stack = s.stack := rfl
@[simp] theorem State.jump_dt (s : State) (a : Word) : (s.jump a).dt = s.dt := rfl
@[simp] theorem State.jump_st (s : State) (a : Word) : (s.jump a).st = s.st := rfl
@[simp] theorem State.jump_plane (s : State) (a : Word) : (s.jump a).plane = s.plane := rfl
@[simp] theorem State.jump_fb (s : State) (a : Word) : (s.jump a).fb = s.fb := rfl
@[simp] theorem State.jump_run (s : State) (a : Word) : (s.jump a).run = s.run := rfl
@[simp] theorem State.jump_kw (s : State) (a : Word) : (s.jump a).kw = s.kw := rfl
@[simp] theorem State.jump_fault (s : State) (a : Word) : (s.jump a).fault = s.fault := rfl
@[simp] theorem State.jump_au (s : State) (a : Word) : (s.jump a).au = s.au := rfl
@[simp] theorem State.jump_mem (s : State) (a : Word) : (s.jump a).mem = s.mem := rfl
@[simp] theorem State.jump_flags (s : State) (a : Word) : (s.jump a).flags = s.flags := rfl
@[simp] theorem State.jump_params (s : State) (a : Word) : (s.jump a).params = s.params := rfl
@[simp] theorem State.jump_tick (s : State) (a : Word) : (s.jump a).tick = s.tick := rfl
@[simp] theorem State.jump_lastTick (s : State) (a : Word) : (s.jump a).lastTick = s.lastTick := rfl
@[simp] theorem State.jump_samples (s : State) (a : Word) : (s.jump a).samples = s.samples := rfl
@[simp] theorem State.jump_gen (s : State) (a : Word) : (s.jump a).gen = s.gen := rfl
@[simp] theorem State.jump_unseen (s : State) (a : Word) : (s.jump a).unseen = s.unseen := rfl
@[simp] theorem State.jump_inp (s : State) (a : Word) : (s.jump a).inp = s.inp := rfl
@[simp] theorem State.jump_turn (s : State) (a : Word) : (s.jump a).turn = s.turn := rfl

/-! ## `skip` -/

@[simp] theorem State.skip_v (s : State) : (s.skip).v = s.v := rfl
@[simp] theorem State.skip_pc (s : State) : (s.skip).pc = s.pc + (if s.read16 s.pc = longWord then 4#16 else 2#16) := rfl
@[simp] theorem State.skip_i (s : State) : (s.skip).i = s.i := rfl
@[simp] theorem State.skip_sp (s : State) : (s.skip).sp = s.sp := rfl
@[simp] theorem State.skip_stack (s : State) : (s.skip).stack = s.stack := rfl
@[simp] theorem State.skip_dt (s : State) : (s.skip).dt = s.dt := rfl
@[simp] theorem State.skip_st (s : State) : (s.skip).st = s.st := rfl
@[simp] theorem State.skip_plane (s : State) : (s.skip).plane = s.plane := rfl
@[simp] theorem State.skip_fb (s : State) : (s.skip).fb = s.fb := rfl
@[simp] theorem State.skip_run (s : State) : (s.skip).run = s.run := rfl
@[simp] theorem State.skip_kw (s : State) : (s.skip).kw = s.kw := rfl
@[simp] theorem State.skip_fault (s : State) : (s.skip).fault = s.fault := rfl
@[simp] theorem State.skip_au (s : State) : (s.skip).au = s.au := rfl
@[simp] theorem State.skip_mem (s : State) : (s.skip).mem = s.mem := rfl
@[simp] theorem State.skip_flags (s : State) : (s.skip).flags = s.flags := rfl
@[simp] theorem State.skip_params (s : State) : (s.skip).params = s.params := rfl
@[simp] theorem State.skip_tick (s : State) : (s.skip).tick = s.tick := rfl
@[simp] theorem State.skip_lastTick (s : State) : (s.skip).lastTick = s.lastTick := rfl
@[simp] theorem State.skip_samples (s : State) : (s.skip).samples = s.samples := rfl
@[simp] theorem State.skip_gen (s : State) : (s.skip).gen = s.gen := rfl
@[simp] theorem State.skip_unseen (s : State) : (s.skip).unseen = s.unseen := rfl
@[simp] theorem State.skip_inp (s : State) : (s.skip).inp = s.inp := rfl
@[simp] theorem State.skip_turn (s : State) : (s.skip).turn = s.turn := rfl

/-! ## `raise` -/

@[simp] theorem State.raise_v (s : State) (r : FaultReason) (w : Option Word) : (s.raise r w).v = s.v := rfl
@[simp] theorem State.raise_pc (s : State) (r : FaultReason) (w : Option Word) : (s.raise r w).pc = s.pc := rfl
@[simp] theorem State.raise_i (s : State) (r : FaultReason) (w : Option Word) : (s.raise r w).i = s.i := rfl
@[simp] theorem State.raise_sp (s : State) (r : FaultReason) (w : Option Word) : (s.raise r w).sp = s.sp := rfl
@[simp] theorem State.raise_stack (s : State) (r : FaultReason) (w : Option Word) : (s.raise r w).stack = s.stack := rfl
@[simp] theorem State.raise_dt (s : State) (r : FaultReason) (w : Option Word) : (s.raise r w).dt = s.dt := rfl
@[simp] theorem State.raise_st (s : State) (r : FaultReason) (w : Option Word) : (s.raise r w).st = s.st := rfl
@[simp] theorem State.raise_plane (s : State) (r : FaultReason) (w : Option Word) : (s.raise r w).plane = s.plane := rfl
@[simp] theorem State.raise_fb (s : State) (r : FaultReason) (w : Option Word) : (s.raise r w).fb = s.fb := rfl
@[simp] theorem State.raise_run (s : State) (r : FaultReason) (w : Option Word) : (s.raise r w).run = .halted := rfl
@[simp] theorem State.raise_kw (s : State) (r : FaultReason) (w : Option Word) : (s.raise r w).kw = s.kw := rfl
@[simp] theorem State.raise_fault (s : State) (r : FaultReason) (w : Option Word) : (s.raise r w).fault = some (s.faultRecord r w) := rfl
@[simp] theorem State.raise_au (s : State) (r : FaultReason) (w : Option Word) : (s.raise r w).au = s.au := rfl
@[simp] theorem State.raise_mem (s : State) (r : FaultReason) (w : Option Word) : (s.raise r w).mem = s.mem := rfl
@[simp] theorem State.raise_flags (s : State) (r : FaultReason) (w : Option Word) : (s.raise r w).flags = s.flags := rfl
@[simp] theorem State.raise_params (s : State) (r : FaultReason) (w : Option Word) : (s.raise r w).params = s.params := rfl
@[simp] theorem State.raise_tick (s : State) (r : FaultReason) (w : Option Word) : (s.raise r w).tick = s.tick := rfl
@[simp] theorem State.raise_lastTick (s : State) (r : FaultReason) (w : Option Word) : (s.raise r w).lastTick = s.lastTick := rfl
@[simp] theorem State.raise_samples (s : State) (r : FaultReason) (w : Option Word) : (s.raise r w).samples = s.samples := rfl
@[simp] theorem State.raise_gen (s : State) (r : FaultReason) (w : Option Word) : (s.raise r w).gen = s.gen := rfl
@[simp] theorem State.raise_unseen (s : State) (r : FaultReason) (w : Option Word) : (s.raise r w).unseen = s.unseen := rfl
@[simp] theorem State.raise_inp (s : State) (r : FaultReason) (w : Option Word) : (s.raise r w).inp = s.inp := rfl
@[simp] theorem State.raise_turn (s : State) (r : FaultReason) (w : Option Word) : (s.raise r w).turn = s.turn := rfl

/-! ## `setAudio` -/

@[simp] theorem State.setAudio_v (s : State) (on : Bool) : (s.setAudio on).v = s.v := rfl
@[simp] theorem State.setAudio_pc (s : State) (on : Bool) : (s.setAudio on).pc = s.pc := rfl
@[simp] theorem State.setAudio_i (s : State) (on : Bool) : (s.setAudio on).i = s.i := rfl
@[simp] theorem State.setAudio_sp (s : State) (on : Bool) : (s.setAudio on).sp = s.sp := rfl
@[simp] theorem State.setAudio_stack (s : State) (on : Bool) : (s.setAudio on).stack = s.stack := rfl
@[simp] theorem State.setAudio_dt (s : State) (on : Bool) : (s.setAudio on).dt = s.dt := rfl
@[simp] theorem State.setAudio_st (s : State) (on : Bool) : (s.setAudio on).st = s.st := rfl
@[simp] theorem State.setAudio_plane (s : State) (on : Bool) : (s.setAudio on).plane = s.plane := rfl
@[simp] theorem State.setAudio_fb (s : State) (on : Bool) : (s.setAudio on).fb = s.fb := rfl
@[simp] theorem State.setAudio_run (s : State) (on : Bool) : (s.setAudio on).run = s.run := rfl
@[simp] theorem State.setAudio_kw (s : State) (on : Bool) : (s.setAudio on).kw = s.kw := rfl
@[simp] theorem State.setAudio_fault (s : State) (on : Bool) : (s.setAudio on).fault = s.fault := rfl
@[simp] theorem State.setAudio_au (s : State) (on : Bool) : (s.setAudio on).au = { s.au with on := on } := rfl
@[simp] theorem State.setAudio_mem (s : State) (on : Bool) : (s.setAudio on).mem = s.mem := rfl
@[simp] theorem State.setAudio_flags (s : State) (on : Bool) : (s.setAudio on).flags = s.flags := rfl
@[simp] theorem State.setAudio_params (s : State) (on : Bool) : (s.setAudio on).params = s.params := rfl
@[simp] theorem State.setAudio_tick (s : State) (on : Bool) : (s.setAudio on).tick = s.tick := rfl
@[simp] theorem State.setAudio_lastTick (s : State) (on : Bool) : (s.setAudio on).lastTick = s.lastTick := rfl
@[simp] theorem State.setAudio_samples (s : State) (on : Bool) : (s.setAudio on).samples = s.samples := rfl
@[simp] theorem State.setAudio_gen (s : State) (on : Bool) : (s.setAudio on).gen = s.gen := rfl
@[simp] theorem State.setAudio_unseen (s : State) (on : Bool) : (s.setAudio on).unseen = s.unseen := rfl
@[simp] theorem State.setAudio_inp (s : State) (on : Bool) : (s.setAudio on).inp = s.inp := rfl
@[simp] theorem State.setAudio_turn (s : State) (on : Bool) : (s.setAudio on).turn = s.turn := rfl

/-! ## `setBaseAddr` -/

@[simp] theorem State.setBaseAddr_v (s : State) (a : Word) : (s.setBaseAddr a).v = s.v := rfl
@[simp] theorem State.setBaseAddr_pc (s : State) (a : Word) : (s.setBaseAddr a).pc = s.pc := rfl
@[simp] theorem State.setBaseAddr_i (s : State) (a : Word) : (s.setBaseAddr a).i = s.i := rfl
@[simp] theorem State.setBaseAddr_sp (s : State) (a : Word) : (s.setBaseAddr a).sp = s.sp := rfl
@[simp] theorem State.setBaseAddr_stack (s : State) (a : Word) : (s.setBaseAddr a).stack = s.stack := rfl
@[simp] theorem State.setBaseAddr_dt (s : State) (a : Word) : (s.setBaseAddr a).dt = s.dt := rfl
@[simp] theorem State.setBaseAddr_st (s : State) (a : Word) : (s.setBaseAddr a).st = s.st := rfl
@[simp] theorem State.setBaseAddr_plane (s : State) (a : Word) : (s.setBaseAddr a).plane = s.plane := rfl
@[simp] theorem State.setBaseAddr_fb (s : State) (a : Word) : (s.setBaseAddr a).fb = s.fb := rfl
@[simp] theorem State.setBaseAddr_run (s : State) (a : Word) : (s.setBaseAddr a).run = s.run := rfl
@[simp] theorem State.setBaseAddr_kw (s : State) (a : Word) : (s.setBaseAddr a).kw = s.kw := rfl
@[simp] theorem State.setBaseAddr_fault (s : State) (a : Word) : (s.setBaseAddr a).fault = s.fault := rfl
@[simp] theorem State.setBaseAddr_au (s : State) (a : Word) : (s.setBaseAddr a).au = { s.au with base := a, cursor := 0#7, phase := 0, bit := s.patternBit a 0#7 } := rfl
@[simp] theorem State.setBaseAddr_mem (s : State) (a : Word) : (s.setBaseAddr a).mem = s.mem := rfl
@[simp] theorem State.setBaseAddr_flags (s : State) (a : Word) : (s.setBaseAddr a).flags = s.flags := rfl
@[simp] theorem State.setBaseAddr_params (s : State) (a : Word) : (s.setBaseAddr a).params = s.params := rfl
@[simp] theorem State.setBaseAddr_tick (s : State) (a : Word) : (s.setBaseAddr a).tick = s.tick := rfl
@[simp] theorem State.setBaseAddr_lastTick (s : State) (a : Word) : (s.setBaseAddr a).lastTick = s.lastTick := rfl
@[simp] theorem State.setBaseAddr_samples (s : State) (a : Word) : (s.setBaseAddr a).samples = s.samples := rfl
@[simp] theorem State.setBaseAddr_gen (s : State) (a : Word) : (s.setBaseAddr a).gen = s.gen := rfl
@[simp] theorem State.setBaseAddr_unseen (s : State) (a : Word) : (s.setBaseAddr a).unseen = s.unseen := rfl
@[simp] theorem State.setBaseAddr_inp (s : State) (a : Word) : (s.setBaseAddr a).inp = s.inp := rfl
@[simp] theorem State.setBaseAddr_turn (s : State) (a : Word) : (s.setBaseAddr a).turn = s.turn := rfl

/-! ## `render` -/

@[simp] theorem State.render_v (s : State) : (s.render).v = s.v := rfl
@[simp] theorem State.render_pc (s : State) : (s.render).pc = s.pc := rfl
@[simp] theorem State.render_i (s : State) : (s.render).i = s.i := rfl
@[simp] theorem State.render_sp (s : State) : (s.render).sp = s.sp := rfl
@[simp] theorem State.render_stack (s : State) : (s.render).stack = s.stack := rfl
@[simp] theorem State.render_dt (s : State) : (s.render).dt = s.dt := rfl
@[simp] theorem State.render_st (s : State) : (s.render).st = s.st := rfl
@[simp] theorem State.render_plane (s : State) : (s.render).plane = s.plane := rfl
@[simp] theorem State.render_fb (s : State) : (s.render).fb = s.fb.clearDirty s.inp.renderClean := rfl
@[simp] theorem State.render_run (s : State) : (s.render).run = s.run := rfl
@[simp] theorem State.render_kw (s : State) : (s.render).kw = s.kw := rfl
@[simp] theorem State.render_fault (s : State) : (s.render).fault = s.fault := rfl
@[simp] theorem State.render_au (s : State) : (s.render).au = s.au := rfl
@[simp] theorem State.render_mem (s : State) : (s.render).mem = s.mem := rfl
@[simp] theorem State.render_flags (s : State) : (s.render).flags = s.flags := rfl
@[simp] theorem State.render_params (s : State) : (s.render).params = s.params := rfl
@[simp] theorem State.render_tick (s : State) : (s.render).tick = s.tick := rfl
@[simp] theorem State.render_lastTick (s : State) : (s.render).lastTick = s.lastTick := rfl
@[simp] theorem State.render_samples (s : State) : (s.render).samples = s.samples := rfl
@[simp] theorem State.render_gen (s : State) : (s.render).gen = s.gen := rfl
@[simp] theorem State.render_unseen (s : State) : (s.render).unseen = s.unseen := rfl
@[simp] theorem State.render_inp (s : State) : (s.render).inp = s.inp := rfl
@[simp] theorem State.render_turn (s : State) : (s.render).turn = s.turn := rfl

/-! ## `returnTick` -/

@[simp] theorem State.returnTick_v (s : State) (r : TickResult) : (s.returnTick r).v = s.v := rfl
@[simp] theorem State.returnTick_pc (s : State) (r : TickResult) : (s.returnTick r).pc = s.pc := rfl
@[simp] theorem State.returnTick_i (s : State) (r : TickResult) : (s.returnTick r).i = s.i := rfl
@[simp] theorem State.returnTick_sp (s : State) (r : TickResult) : (s.returnTick r).sp = s.sp := rfl
@[simp] theorem State.returnTick_stack (s : State) (r : TickResult) : (s.returnTick r).stack = s.stack := rfl
@[simp] theorem State.returnTick_dt (s : State) (r : TickResult) : (s.returnTick r).dt = s.dt := rfl
@[simp] theorem State.returnTick_st (s : State) (r : TickResult) : (s.returnTick r).st = s.st := rfl
@[simp] theorem State.returnTick_plane (s : State) (r : TickResult) : (s.returnTick r).plane = s.plane := rfl
@[simp] theorem State.returnTick_fb (s : State) (r : TickResult) : (s.returnTick r).fb = s.fb := rfl
@[simp] theorem State.returnTick_run (s : State) (r : TickResult) : (s.returnTick r).run = s.run := rfl
@[simp] theorem State.returnTick_kw (s : State) (r : TickResult) : (s.returnTick r).kw = s.kw := rfl
@[simp] theorem State.returnTick_fault (s : State) (r : TickResult) : (s.returnTick r).fault = s.fault := rfl
@[simp] theorem State.returnTick_au (s : State) (r : TickResult) : (s.returnTick r).au = s.au := rfl
@[simp] theorem State.returnTick_mem (s : State) (r : TickResult) : (s.returnTick r).mem = s.mem := rfl
@[simp] theorem State.returnTick_flags (s : State) (r : TickResult) : (s.returnTick r).flags = s.flags := rfl
@[simp] theorem State.returnTick_params (s : State) (r : TickResult) : (s.returnTick r).params = s.params := rfl
@[simp] theorem State.returnTick_tick (s : State) (r : TickResult) : (s.returnTick r).tick = .between := rfl
@[simp] theorem State.returnTick_lastTick (s : State) (r : TickResult) : (s.returnTick r).lastTick = some r := rfl
@[simp] theorem State.returnTick_samples (s : State) (r : TickResult) : (s.returnTick r).samples = s.samples := rfl
@[simp] theorem State.returnTick_gen (s : State) (r : TickResult) : (s.returnTick r).gen = s.gen := rfl
@[simp] theorem State.returnTick_unseen (s : State) (r : TickResult) : (s.returnTick r).unseen = s.unseen := rfl
@[simp] theorem State.returnTick_inp (s : State) (r : TickResult) : (s.returnTick r).inp = s.inp := rfl
@[simp] theorem State.returnTick_turn (s : State) (r : TickResult) : (s.returnTick r).turn = s.turn := rfl

/-! ## `afterInstruction` -/

@[simp] theorem State.afterInstruction_v (s : State) (left : Nat) : (s.afterInstruction left).v = s.v := rfl
@[simp] theorem State.afterInstruction_pc (s : State) (left : Nat) : (s.afterInstruction left).pc = s.pc := rfl
@[simp] theorem State.afterInstruction_i (s : State) (left : Nat) : (s.afterInstruction left).i = s.i := rfl
@[simp] theorem State.afterInstruction_sp (s : State) (left : Nat) : (s.afterInstruction left).sp = s.sp := rfl
@[simp] theorem State.afterInstruction_stack (s : State) (left : Nat) : (s.afterInstruction left).stack = s.stack := rfl
@[simp] theorem State.afterInstruction_dt (s : State) (left : Nat) : (s.afterInstruction left).dt = s.dt := rfl
@[simp] theorem State.afterInstruction_st (s : State) (left : Nat) : (s.afterInstruction left).st = s.st := rfl
@[simp] theorem State.afterInstruction_plane (s : State) (left : Nat) : (s.afterInstruction left).plane = s.plane := rfl
@[simp] theorem State.afterInstruction_fb (s : State) (left : Nat) : (s.afterInstruction left).fb = s.fb := rfl
@[simp] theorem State.afterInstruction_run (s : State) (left : Nat) : (s.afterInstruction left).run = s.run := rfl
@[simp] theorem State.afterInstruction_kw (s : State) (left : Nat) : (s.afterInstruction left).kw = s.kw := rfl
@[simp] theorem State.afterInstruction_fault (s : State) (left : Nat) : (s.afterInstruction left).fault = s.fault := rfl
@[simp] theorem State.afterInstruction_au (s : State) (left : Nat) : (s.afterInstruction left).au = s.au := rfl
@[simp] theorem State.afterInstruction_mem (s : State) (left : Nat) : (s.afterInstruction left).mem = s.mem := rfl
@[simp] theorem State.afterInstruction_flags (s : State) (left : Nat) : (s.afterInstruction left).flags = s.flags := rfl
@[simp] theorem State.afterInstruction_params (s : State) (left : Nat) : (s.afterInstruction left).params = s.params := rfl
@[simp] theorem State.afterInstruction_tick (s : State) (left : Nat) : (s.afterInstruction left).tick = .inTick left := rfl
@[simp] theorem State.afterInstruction_lastTick (s : State) (left : Nat) : (s.afterInstruction left).lastTick = s.lastTick := rfl
@[simp] theorem State.afterInstruction_samples (s : State) (left : Nat) : (s.afterInstruction left).samples = s.samples := rfl
@[simp] theorem State.afterInstruction_gen (s : State) (left : Nat) : (s.afterInstruction left).gen = s.gen := rfl
@[simp] theorem State.afterInstruction_unseen (s : State) (left : Nat) : (s.afterInstruction left).unseen = s.unseen := rfl
@[simp] theorem State.afterInstruction_inp (s : State) (left : Nat) : (s.afterInstruction left).inp = s.inp := rfl
@[simp] theorem State.afterInstruction_turn (s : State) (left : Nat) : (s.afterInstruction left).turn = s.turn := rfl

/-! ## `nextTurn` -/

@[simp] theorem State.nextTurn_v (s : State) : (s.nextTurn).v = s.v := rfl
@[simp] theorem State.nextTurn_pc (s : State) : (s.nextTurn).pc = s.pc := rfl
@[simp] theorem State.nextTurn_i (s : State) : (s.nextTurn).i = s.i := rfl
@[simp] theorem State.nextTurn_sp (s : State) : (s.nextTurn).sp = s.sp := rfl
@[simp] theorem State.nextTurn_stack (s : State) : (s.nextTurn).stack = s.stack := rfl
@[simp] theorem State.nextTurn_dt (s : State) : (s.nextTurn).dt = s.dt := rfl
@[simp] theorem State.nextTurn_st (s : State) : (s.nextTurn).st = s.st := rfl
@[simp] theorem State.nextTurn_plane (s : State) : (s.nextTurn).plane = s.plane := rfl
@[simp] theorem State.nextTurn_fb (s : State) : (s.nextTurn).fb = s.fb := rfl
@[simp] theorem State.nextTurn_run (s : State) : (s.nextTurn).run = s.run := rfl
@[simp] theorem State.nextTurn_kw (s : State) : (s.nextTurn).kw = s.kw := rfl
@[simp] theorem State.nextTurn_fault (s : State) : (s.nextTurn).fault = s.fault := rfl
@[simp] theorem State.nextTurn_au (s : State) : (s.nextTurn).au = s.au := rfl
@[simp] theorem State.nextTurn_mem (s : State) : (s.nextTurn).mem = s.mem := rfl
@[simp] theorem State.nextTurn_flags (s : State) : (s.nextTurn).flags = s.flags := rfl
@[simp] theorem State.nextTurn_params (s : State) : (s.nextTurn).params = s.params := rfl
@[simp] theorem State.nextTurn_tick (s : State) : (s.nextTurn).tick = s.tick := rfl
@[simp] theorem State.nextTurn_lastTick (s : State) : (s.nextTurn).lastTick = s.lastTick := rfl
@[simp] theorem State.nextTurn_samples (s : State) : (s.nextTurn).samples = s.samples := rfl
@[simp] theorem State.nextTurn_gen (s : State) : (s.nextTurn).gen = s.gen := rfl
@[simp] theorem State.nextTurn_unseen (s : State) : (s.nextTurn).unseen = s.unseen := rfl
@[simp] theorem State.nextTurn_inp (s : State) : (s.nextTurn).inp = Config.inputs (s.turn + 1) := rfl
@[simp] theorem State.nextTurn_turn (s : State) : (s.nextTurn).turn = s.turn + 1 := rfl

/-! ## `settleStores` -/

@[simp] theorem State.settleStores_v (s : State) : (s.settleStores).v = s.v := rfl
@[simp] theorem State.settleStores_pc (s : State) : (s.settleStores).pc = s.pc := rfl
@[simp] theorem State.settleStores_i (s : State) : (s.settleStores).i = s.i := rfl
@[simp] theorem State.settleStores_sp (s : State) : (s.settleStores).sp = s.sp := rfl
@[simp] theorem State.settleStores_stack (s : State) : (s.settleStores).stack = s.stack := rfl
@[simp] theorem State.settleStores_dt (s : State) : (s.settleStores).dt = s.dt := rfl
@[simp] theorem State.settleStores_st (s : State) : (s.settleStores).st = s.st := rfl
@[simp] theorem State.settleStores_plane (s : State) : (s.settleStores).plane = s.plane := rfl
@[simp] theorem State.settleStores_fb (s : State) : (s.settleStores).fb = s.fb := rfl
@[simp] theorem State.settleStores_run (s : State) : (s.settleStores).run = s.run := rfl
@[simp] theorem State.settleStores_kw (s : State) : (s.settleStores).kw = s.kw := rfl
@[simp] theorem State.settleStores_fault (s : State) : (s.settleStores).fault = s.fault := rfl
@[simp] theorem State.settleStores_au (s : State) : (s.settleStores).au = s.au := rfl
@[simp] theorem State.settleStores_mem (s : State) : (s.settleStores).mem = s.mem := rfl
@[simp] theorem State.settleStores_flags (s : State) : (s.settleStores).flags = s.flags := rfl
@[simp] theorem State.settleStores_params (s : State) : (s.settleStores).params = s.params := rfl
@[simp] theorem State.settleStores_tick (s : State) : (s.settleStores).tick = s.tick := rfl
@[simp] theorem State.settleStores_lastTick (s : State) : (s.settleStores).lastTick = s.lastTick := rfl
@[simp] theorem State.settleStores_samples (s : State) : (s.settleStores).samples = s.samples := rfl
@[simp] theorem State.settleStores_gen (s : State) : (s.settleStores).gen = s.gen := rfl
@[simp] theorem State.settleStores_unseen (s : State) : (s.settleStores).unseen = [] := rfl
@[simp] theorem State.settleStores_inp (s : State) : (s.settleStores).inp = s.inp := rfl
@[simp] theorem State.settleStores_turn (s : State) : (s.settleStores).turn = s.turn := rfl

/-! ## `passStores` -/

@[simp] theorem State.passStores_v (s : State) : (s.passStores).v = s.v := rfl
@[simp] theorem State.passStores_pc (s : State) : (s.passStores).pc = s.pc := rfl
@[simp] theorem State.passStores_i (s : State) : (s.passStores).i = s.i := rfl
@[simp] theorem State.passStores_sp (s : State) : (s.passStores).sp = s.sp := rfl
@[simp] theorem State.passStores_stack (s : State) : (s.passStores).stack = s.stack := rfl
@[simp] theorem State.passStores_dt (s : State) : (s.passStores).dt = s.dt := rfl
@[simp] theorem State.passStores_st (s : State) : (s.passStores).st = s.st := rfl
@[simp] theorem State.passStores_plane (s : State) : (s.passStores).plane = s.plane := rfl
@[simp] theorem State.passStores_fb (s : State) : (s.passStores).fb = s.fb := rfl
@[simp] theorem State.passStores_run (s : State) : (s.passStores).run = s.run := rfl
@[simp] theorem State.passStores_kw (s : State) : (s.passStores).kw = s.kw := rfl
@[simp] theorem State.passStores_fault (s : State) : (s.passStores).fault = s.fault := rfl
@[simp] theorem State.passStores_au (s : State) : (s.passStores).au = s.au := rfl
@[simp] theorem State.passStores_mem (s : State) : (s.passStores).mem = s.mem := rfl
@[simp] theorem State.passStores_flags (s : State) : (s.passStores).flags = s.flags := rfl
@[simp] theorem State.passStores_params (s : State) : (s.passStores).params = s.params := rfl
@[simp] theorem State.passStores_tick (s : State) : (s.passStores).tick = s.tick := rfl
@[simp] theorem State.passStores_lastTick (s : State) : (s.passStores).lastTick = s.lastTick := rfl
@[simp] theorem State.passStores_samples (s : State) : (s.passStores).samples = s.samples := rfl
@[simp] theorem State.passStores_gen (s : State) : (s.passStores).gen = s.gen := rfl
@[simp] theorem State.passStores_unseen (s : State) : (s.passStores).unseen = s.unseen.drop s.inp.audioSees := rfl
@[simp] theorem State.passStores_inp (s : State) : (s.passStores).inp = s.inp := rfl
@[simp] theorem State.passStores_turn (s : State) : (s.passStores).turn = s.turn := rfl

/-! ## `beginCall` -/

@[simp] theorem State.beginCall_v (s : State) (c : AudioCall) : (s.beginCall c).v = s.v := rfl
@[simp] theorem State.beginCall_pc (s : State) (c : AudioCall) : (s.beginCall c).pc = s.pc := rfl
@[simp] theorem State.beginCall_i (s : State) (c : AudioCall) : (s.beginCall c).i = s.i := rfl
@[simp] theorem State.beginCall_sp (s : State) (c : AudioCall) : (s.beginCall c).sp = s.sp := rfl
@[simp] theorem State.beginCall_stack (s : State) (c : AudioCall) : (s.beginCall c).stack = s.stack := rfl
@[simp] theorem State.beginCall_dt (s : State) (c : AudioCall) : (s.beginCall c).dt = s.dt := rfl
@[simp] theorem State.beginCall_st (s : State) (c : AudioCall) : (s.beginCall c).st = s.st := rfl
@[simp] theorem State.beginCall_plane (s : State) (c : AudioCall) : (s.beginCall c).plane = s.plane := rfl
@[simp] theorem State.beginCall_fb (s : State) (c : AudioCall) : (s.beginCall c).fb = s.fb := rfl
@[simp] theorem State.beginCall_run (s : State) (c : AudioCall) : (s.beginCall c).run = s.run := rfl
@[simp] theorem State.beginCall_kw (s : State) (c : AudioCall) : (s.beginCall c).kw = s.kw := rfl
@[simp] theorem State.beginCall_fault (s : State) (c : AudioCall) : (s.beginCall c).fault = s.fault := rfl
@[simp] theorem State.beginCall_au (s : State) (c : AudioCall) : (s.beginCall c).au = s.au := rfl
@[simp] theorem State.beginCall_mem (s : State) (c : AudioCall) : (s.beginCall c).mem = s.mem := rfl
@[simp] theorem State.beginCall_flags (s : State) (c : AudioCall) : (s.beginCall c).flags = s.flags := rfl
@[simp] theorem State.beginCall_params (s : State) (c : AudioCall) : (s.beginCall c).params = s.params := rfl
@[simp] theorem State.beginCall_tick (s : State) (c : AudioCall) : (s.beginCall c).tick = s.tick := rfl
@[simp] theorem State.beginCall_lastTick (s : State) (c : AudioCall) : (s.beginCall c).lastTick = s.lastTick := rfl
@[simp] theorem State.beginCall_samples (s : State) (c : AudioCall) : (s.beginCall c).samples = s.samples := rfl
@[simp] theorem State.beginCall_gen (s : State) (c : AudioCall) : (s.beginCall c).gen = some { call := c, left := c.count, advancing := false, out := [] } := rfl
@[simp] theorem State.beginCall_unseen (s : State) (c : AudioCall) : (s.beginCall c).unseen = s.unseen := rfl
@[simp] theorem State.beginCall_inp (s : State) (c : AudioCall) : (s.beginCall c).inp = s.inp := rfl
@[simp] theorem State.beginCall_turn (s : State) (c : AudioCall) : (s.beginCall c).turn = s.turn := rfl

/-! ## `advanceOnce` -/

@[simp] theorem State.advanceOnce_v (s : State) (rate : Nat) : (s.advanceOnce rate).v = s.v := rfl
@[simp] theorem State.advanceOnce_pc (s : State) (rate : Nat) : (s.advanceOnce rate).pc = s.pc := rfl
@[simp] theorem State.advanceOnce_i (s : State) (rate : Nat) : (s.advanceOnce rate).i = s.i := rfl
@[simp] theorem State.advanceOnce_sp (s : State) (rate : Nat) : (s.advanceOnce rate).sp = s.sp := rfl
@[simp] theorem State.advanceOnce_stack (s : State) (rate : Nat) : (s.advanceOnce rate).stack = s.stack := rfl
@[simp] theorem State.advanceOnce_dt (s : State) (rate : Nat) : (s.advanceOnce rate).dt = s.dt := rfl
@[simp] theorem State.advanceOnce_st (s : State) (rate : Nat) : (s.advanceOnce rate).st = s.st := rfl
@[simp] theorem State.advanceOnce_plane (s : State) (rate : Nat) : (s.advanceOnce rate).plane = s.plane := rfl
@[simp] theorem State.advanceOnce_fb (s : State) (rate : Nat) : (s.advanceOnce rate).fb = s.fb := rfl
@[simp] theorem State.advanceOnce_run (s : State) (rate : Nat) : (s.advanceOnce rate).run = s.run := rfl
@[simp] theorem State.advanceOnce_kw (s : State) (rate : Nat) : (s.advanceOnce rate).kw = s.kw := rfl
@[simp] theorem State.advanceOnce_fault (s : State) (rate : Nat) : (s.advanceOnce rate).fault = s.fault := rfl
@[simp] theorem State.advanceOnce_au (s : State) (rate : Nat) : (s.advanceOnce rate).au = { s.au with phase := s.au.phase - rate, cursor := s.au.cursor + 1#7, bit := s.audioBit s.au.base (s.au.cursor + 1#7) } := rfl
@[simp] theorem State.advanceOnce_mem (s : State) (rate : Nat) : (s.advanceOnce rate).mem = s.mem := rfl
@[simp] theorem State.advanceOnce_flags (s : State) (rate : Nat) : (s.advanceOnce rate).flags = s.flags := rfl
@[simp] theorem State.advanceOnce_params (s : State) (rate : Nat) : (s.advanceOnce rate).params = s.params := rfl
@[simp] theorem State.advanceOnce_tick (s : State) (rate : Nat) : (s.advanceOnce rate).tick = s.tick := rfl
@[simp] theorem State.advanceOnce_lastTick (s : State) (rate : Nat) : (s.advanceOnce rate).lastTick = s.lastTick := rfl
@[simp] theorem State.advanceOnce_samples (s : State) (rate : Nat) : (s.advanceOnce rate).samples = s.samples := rfl
@[simp] theorem State.advanceOnce_gen (s : State) (rate : Nat) : (s.advanceOnce rate).gen = s.gen := rfl
@[simp] theorem State.advanceOnce_unseen (s : State) (rate : Nat) : (s.advanceOnce rate).unseen = s.unseen := rfl
@[simp] theorem State.advanceOnce_inp (s : State) (rate : Nat) : (s.advanceOnce rate).inp = s.inp := rfl
@[simp] theorem State.advanceOnce_turn (s : State) (rate : Nat) : (s.advanceOnce rate).turn = s.turn := rfl

/-! ## `emitSample` -/

@[simp] theorem State.emitSample_v (s : State) (g : Generating) (left : Nat) : (s.emitSample g left).v = s.v := rfl
@[simp] theorem State.emitSample_pc (s : State) (g : Generating) (left : Nat) : (s.emitSample g left).pc = s.pc := rfl
@[simp] theorem State.emitSample_i (s : State) (g : Generating) (left : Nat) : (s.emitSample g left).i = s.i := rfl
@[simp] theorem State.emitSample_sp (s : State) (g : Generating) (left : Nat) : (s.emitSample g left).sp = s.sp := rfl
@[simp] theorem State.emitSample_stack (s : State) (g : Generating) (left : Nat) : (s.emitSample g left).stack = s.stack := rfl
@[simp] theorem State.emitSample_dt (s : State) (g : Generating) (left : Nat) : (s.emitSample g left).dt = s.dt := rfl
@[simp] theorem State.emitSample_st (s : State) (g : Generating) (left : Nat) : (s.emitSample g left).st = s.st := rfl
@[simp] theorem State.emitSample_plane (s : State) (g : Generating) (left : Nat) : (s.emitSample g left).plane = s.plane := rfl
@[simp] theorem State.emitSample_fb (s : State) (g : Generating) (left : Nat) : (s.emitSample g left).fb = s.fb := rfl
@[simp] theorem State.emitSample_run (s : State) (g : Generating) (left : Nat) : (s.emitSample g left).run = s.run := rfl
@[simp] theorem State.emitSample_kw (s : State) (g : Generating) (left : Nat) : (s.emitSample g left).kw = s.kw := rfl
@[simp] theorem State.emitSample_fault (s : State) (g : Generating) (left : Nat) : (s.emitSample g left).fault = s.fault := rfl
@[simp] theorem State.emitSample_au (s : State) (g : Generating) (left : Nat) : (s.emitSample g left).au = { s.au with phase := if s.au.on then s.au.phase + s.params.audioInternalHz else s.au.phase } := rfl
@[simp] theorem State.emitSample_mem (s : State) (g : Generating) (left : Nat) : (s.emitSample g left).mem = s.mem := rfl
@[simp] theorem State.emitSample_flags (s : State) (g : Generating) (left : Nat) : (s.emitSample g left).flags = s.flags := rfl
@[simp] theorem State.emitSample_params (s : State) (g : Generating) (left : Nat) : (s.emitSample g left).params = s.params := rfl
@[simp] theorem State.emitSample_tick (s : State) (g : Generating) (left : Nat) : (s.emitSample g left).tick = s.tick := rfl
@[simp] theorem State.emitSample_lastTick (s : State) (g : Generating) (left : Nat) : (s.emitSample g left).lastTick = s.lastTick := rfl
@[simp] theorem State.emitSample_samples (s : State) (g : Generating) (left : Nat) : (s.emitSample g left).samples = s.samples := rfl
@[simp] theorem State.emitSample_gen (s : State) (g : Generating) (left : Nat) : (s.emitSample g left).gen = some { g with left := left, advancing := true, out := g.out ++ [s.currentSample] } := rfl
@[simp] theorem State.emitSample_unseen (s : State) (g : Generating) (left : Nat) : (s.emitSample g left).unseen = s.unseen := rfl
@[simp] theorem State.emitSample_inp (s : State) (g : Generating) (left : Nat) : (s.emitSample g left).inp = s.inp := rfl
@[simp] theorem State.emitSample_turn (s : State) (g : Generating) (left : Nat) : (s.emitSample g left).turn = s.turn := rfl

/-! ## `returnCall` -/

@[simp] theorem State.returnCall_v (s : State) (g : Generating) : (s.returnCall g).v = s.v := rfl
@[simp] theorem State.returnCall_pc (s : State) (g : Generating) : (s.returnCall g).pc = s.pc := rfl
@[simp] theorem State.returnCall_i (s : State) (g : Generating) : (s.returnCall g).i = s.i := rfl
@[simp] theorem State.returnCall_sp (s : State) (g : Generating) : (s.returnCall g).sp = s.sp := rfl
@[simp] theorem State.returnCall_stack (s : State) (g : Generating) : (s.returnCall g).stack = s.stack := rfl
@[simp] theorem State.returnCall_dt (s : State) (g : Generating) : (s.returnCall g).dt = s.dt := rfl
@[simp] theorem State.returnCall_st (s : State) (g : Generating) : (s.returnCall g).st = s.st := rfl
@[simp] theorem State.returnCall_plane (s : State) (g : Generating) : (s.returnCall g).plane = s.plane := rfl
@[simp] theorem State.returnCall_fb (s : State) (g : Generating) : (s.returnCall g).fb = s.fb := rfl
@[simp] theorem State.returnCall_run (s : State) (g : Generating) : (s.returnCall g).run = s.run := rfl
@[simp] theorem State.returnCall_kw (s : State) (g : Generating) : (s.returnCall g).kw = s.kw := rfl
@[simp] theorem State.returnCall_fault (s : State) (g : Generating) : (s.returnCall g).fault = s.fault := rfl
@[simp] theorem State.returnCall_au (s : State) (g : Generating) : (s.returnCall g).au = s.au := rfl
@[simp] theorem State.returnCall_mem (s : State) (g : Generating) : (s.returnCall g).mem = s.mem := rfl
@[simp] theorem State.returnCall_flags (s : State) (g : Generating) : (s.returnCall g).flags = s.flags := rfl
@[simp] theorem State.returnCall_params (s : State) (g : Generating) : (s.returnCall g).params = s.params := rfl
@[simp] theorem State.returnCall_tick (s : State) (g : Generating) : (s.returnCall g).tick = s.tick := rfl
@[simp] theorem State.returnCall_lastTick (s : State) (g : Generating) : (s.returnCall g).lastTick = s.lastTick := rfl
@[simp] theorem State.returnCall_samples (s : State) (g : Generating) : (s.returnCall g).samples = g.out := rfl
@[simp] theorem State.returnCall_gen (s : State) (g : Generating) : (s.returnCall g).gen = none := rfl
@[simp] theorem State.returnCall_unseen (s : State) (g : Generating) : (s.returnCall g).unseen = s.unseen := rfl
@[simp] theorem State.returnCall_inp (s : State) (g : Generating) : (s.returnCall g).inp = s.inp := rfl
@[simp] theorem State.returnCall_turn (s : State) (g : Generating) : (s.returnCall g).turn = s.turn := rfl

/-! ## The operations that go through a list, or choose: what each may change -/

/-- `writeBytes` changes nothing but `mem`. -/
theorem State.writeBytes_eq (s : State) (a : Word) (bs : List Byte) : s.writeBytes a bs = { s with mem := (s.writeBytes a bs).mem } := by
  induction bs generalizing s a with
  | nil => rfl
  | cons b bs ih =>
    unfold State.writeBytes
    rw [ih]
    rfl

@[simp] theorem State.writeBytes_v (s : State) (a : Word) (bs : List Byte) : (s.writeBytes a bs).v = s.v := by rw [State.writeBytes_eq]
@[simp] theorem State.writeBytes_pc (s : State) (a : Word) (bs : List Byte) : (s.writeBytes a bs).pc = s.pc := by rw [State.writeBytes_eq]
@[simp] theorem State.writeBytes_i (s : State) (a : Word) (bs : List Byte) : (s.writeBytes a bs).i = s.i := by rw [State.writeBytes_eq]
@[simp] theorem State.writeBytes_sp (s : State) (a : Word) (bs : List Byte) : (s.writeBytes a bs).sp = s.sp := by rw [State.writeBytes_eq]
@[simp] theorem State.writeBytes_stack (s : State) (a : Word) (bs : List Byte) : (s.writeBytes a bs).stack = s.stack := by rw [State.writeBytes_eq]
@[simp] theorem State.writeBytes_dt (s : State) (a : Word) (bs : List Byte) : (s.writeBytes a bs).dt = s.dt := by rw [State.writeBytes_eq]
@[simp] theorem State.writeBytes_st (s : State) (a : Word) (bs : List Byte) : (s.writeBytes a bs).st = s.st := by rw [State.writeBytes_eq]
@[simp] theorem State.writeBytes_plane (s : State) (a : Word) (bs : List Byte) : (s.writeBytes a bs).plane = s.plane := by rw [State.writeBytes_eq]
@[simp] theorem State.writeBytes_fb (s : State) (a : Word) (bs : List Byte) : (s.writeBytes a bs).fb = s.fb := by rw [State.writeBytes_eq]
@[simp] theorem State.writeBytes_run (s : State) (a : Word) (bs : List Byte) : (s.writeBytes a bs).run = s.run := by rw [State.writeBytes_eq]
@[simp] theorem State.writeBytes_kw (s : State) (a : Word) (bs : List Byte) : (s.writeBytes a bs).kw = s.kw := by rw [State.writeBytes_eq]
@[simp] theorem State.writeBytes_fault (s : State) (a : Word) (bs : List Byte) : (s.writeBytes a bs).fault = s.fault := by rw [State.writeBytes_eq]
@[simp] theorem State.writeBytes_au (s : State) (a : Word) (bs : List Byte) : (s.writeBytes a bs).au = s.au := by rw [State.writeBytes_eq]
@[simp] theorem State.writeBytes_flags (s : State) (a : Word) (bs : List Byte) : (s.writeBytes a bs).flags = s.flags := by rw [State.writeBytes_eq]
@[simp] theorem State.writeBytes_params (s : State) (a : Word) (bs : List Byte) : (s.writeBytes a bs).params = s.params := by rw [State.writeBytes_eq]
@[simp] theorem State.writeBytes_tick (s : State) (a : Word) (bs : List Byte) : (s.writeBytes a bs).tick = s.tick := by rw [State.writeBytes_eq]
@[simp] theorem State.writeBytes_lastTick (s : State) (a : Word) (bs : List Byte) : (s.writeBytes a bs).lastTick = s.lastTick := by rw [State.writeBytes_eq]
@[simp] theorem State.writeBytes_samples (s : State) (a : Word) (bs : List Byte) : (s.writeBytes a bs).samples = s.samples := by rw [State.writeBytes_eq]
@[simp] theorem State.writeBytes_gen (s : State) (a : Word) (bs : List Byte) : (s.writeBytes a bs).gen = s.gen := by rw [State.writeBytes_eq]
@[simp] theorem State.writeBytes_unseen (s : State) (a : Word) (bs : List Byte) : (s.writeBytes a bs).unseen = s.unseen := by rw [State.writeBytes_eq]
@[simp] theorem State.writeBytes_inp (s : State) (a : Word) (bs : List Byte) : (s.writeBytes a bs).inp = s.inp := by rw [State.writeBytes_eq]
@[simp] theorem State.writeBytes_turn (s : State) (a : Word) (bs : List Byte) : (s.writeBytes a bs).turn = s.turn := by rw [State.writeBytes_eq]

/-- `writeBytes` writes the same bytes whatever writes are noted. -/
theorem State.writeBytes_setUnseen (s : State) (u : List (Word × Byte)) (a : Word) (bs : List Byte) :
    ({ s with unseen := u } : State).writeBytes a bs = { s.writeBytes a bs with unseen := u } := by
  induction bs generalizing s a with
  | nil => rfl
  | cons b bs ih => exact ih (s.writeByte a b) (a + 1#16)

/-- `storeBytes` changes memory as `writeBytes` does, notes the writes, and changes nothing else. -/
theorem State.storeBytes_eq (s : State) (a : Word) (bs : List Byte) :
    s.storeBytes a bs = { s.writeBytes a bs with unseen := (s.storeBytes a bs).unseen } := by
  induction bs generalizing s a with
  | nil => rfl
  | cons b bs ih =>
    have h : ({ s.writeByte a b with unseen := s.unseen ++ [(a, s.readByte a)] } : State).writeBytes (a + 1#16) bs =
        { (s.writeByte a b).writeBytes (a + 1#16) bs with unseen := s.unseen ++ [(a, s.readByte a)] } :=
      State.writeBytes_setUnseen ..
    unfold State.storeBytes State.writeBytes
    rw [ih, State.storeByte, h]

/-- `storeBytes` changes nothing but `mem` and the model's own note of the writes. -/
theorem State.storeBytes_frame (s : State) (a : Word) (bs : List Byte) :
    s.storeBytes a bs = { s with mem := (s.storeBytes a bs).mem, unseen := (s.storeBytes a bs).unseen } := by
  rw [State.storeBytes_eq, State.writeBytes_eq]

@[simp] theorem State.storeBytes_mem (s : State) (a : Word) (bs : List Byte) :
    (s.storeBytes a bs).mem = (s.writeBytes a bs).mem := by rw [State.storeBytes_eq]
@[simp] theorem State.storeBytes_v (s : State) (a : Word) (bs : List Byte) : (s.storeBytes a bs).v = s.v :=
  (congrArg State.v (State.storeBytes_eq s a bs)).trans (State.writeBytes_v s a bs)
@[simp] theorem State.storeBytes_pc (s : State) (a : Word) (bs : List Byte) : (s.storeBytes a bs).pc = s.pc :=
  (congrArg State.pc (State.storeBytes_eq s a bs)).trans (State.writeBytes_pc s a bs)
@[simp] theorem State.storeBytes_i (s : State) (a : Word) (bs : List Byte) : (s.storeBytes a bs).i = s.i :=
  (congrArg State.i (State.storeBytes_eq s a bs)).trans (State.writeBytes_i s a bs)
@[simp] theorem State.storeBytes_sp (s : State) (a : Word) (bs : List Byte) : (s.storeBytes a bs).sp = s.sp :=
  (congrArg State.sp (State.storeBytes_eq s a bs)).trans (State.writeBytes_sp s a bs)
@[simp] theorem State.storeBytes_stack (s : State) (a : Word) (bs : List Byte) : (s.storeBytes a bs).stack = s.stack :=
  (congrArg State.stack (State.storeBytes_eq s a bs)).trans (State.writeBytes_stack s a bs)
@[simp] theorem State.storeBytes_dt (s : State) (a : Word) (bs : List Byte) : (s.storeBytes a bs).dt = s.dt :=
  (congrArg State.dt (State.storeBytes_eq s a bs)).trans (State.writeBytes_dt s a bs)
@[simp] theorem State.storeBytes_st (s : State) (a : Word) (bs : List Byte) : (s.storeBytes a bs).st = s.st :=
  (congrArg State.st (State.storeBytes_eq s a bs)).trans (State.writeBytes_st s a bs)
@[simp] theorem State.storeBytes_plane (s : State) (a : Word) (bs : List Byte) : (s.storeBytes a bs).plane = s.plane :=
  (congrArg State.plane (State.storeBytes_eq s a bs)).trans (State.writeBytes_plane s a bs)
@[simp] theorem State.storeBytes_fb (s : State) (a : Word) (bs : List Byte) : (s.storeBytes a bs).fb = s.fb :=
  (congrArg State.fb (State.storeBytes_eq s a bs)).trans (State.writeBytes_fb s a bs)
@[simp] theorem State.storeBytes_run (s : State) (a : Word) (bs : List Byte) : (s.storeBytes a bs).run = s.run :=
  (congrArg State.run (State.storeBytes_eq s a bs)).trans (State.writeBytes_run s a bs)
@[simp] theorem State.storeBytes_kw (s : State) (a : Word) (bs : List Byte) : (s.storeBytes a bs).kw = s.kw :=
  (congrArg State.kw (State.storeBytes_eq s a bs)).trans (State.writeBytes_kw s a bs)
@[simp] theorem State.storeBytes_fault (s : State) (a : Word) (bs : List Byte) : (s.storeBytes a bs).fault = s.fault :=
  (congrArg State.fault (State.storeBytes_eq s a bs)).trans (State.writeBytes_fault s a bs)
@[simp] theorem State.storeBytes_au (s : State) (a : Word) (bs : List Byte) : (s.storeBytes a bs).au = s.au :=
  (congrArg State.au (State.storeBytes_eq s a bs)).trans (State.writeBytes_au s a bs)
@[simp] theorem State.storeBytes_flags (s : State) (a : Word) (bs : List Byte) : (s.storeBytes a bs).flags = s.flags :=
  (congrArg State.flags (State.storeBytes_eq s a bs)).trans (State.writeBytes_flags s a bs)
@[simp] theorem State.storeBytes_params (s : State) (a : Word) (bs : List Byte) : (s.storeBytes a bs).params = s.params :=
  (congrArg State.params (State.storeBytes_eq s a bs)).trans (State.writeBytes_params s a bs)
@[simp] theorem State.storeBytes_tick (s : State) (a : Word) (bs : List Byte) : (s.storeBytes a bs).tick = s.tick :=
  (congrArg State.tick (State.storeBytes_eq s a bs)).trans (State.writeBytes_tick s a bs)
@[simp] theorem State.storeBytes_lastTick (s : State) (a : Word) (bs : List Byte) : (s.storeBytes a bs).lastTick = s.lastTick :=
  (congrArg State.lastTick (State.storeBytes_eq s a bs)).trans (State.writeBytes_lastTick s a bs)
@[simp] theorem State.storeBytes_samples (s : State) (a : Word) (bs : List Byte) : (s.storeBytes a bs).samples = s.samples :=
  (congrArg State.samples (State.storeBytes_eq s a bs)).trans (State.writeBytes_samples s a bs)
@[simp] theorem State.storeBytes_gen (s : State) (a : Word) (bs : List Byte) : (s.storeBytes a bs).gen = s.gen :=
  (congrArg State.gen (State.storeBytes_eq s a bs)).trans (State.writeBytes_gen s a bs)
@[simp] theorem State.storeBytes_inp (s : State) (a : Word) (bs : List Byte) : (s.storeBytes a bs).inp = s.inp :=
  (congrArg State.inp (State.storeBytes_eq s a bs)).trans (State.writeBytes_inp s a bs)
@[simp] theorem State.storeBytes_turn (s : State) (a : Word) (bs : List Byte) : (s.storeBytes a bs).turn = s.turn :=
  (congrArg State.turn (State.storeBytes_eq s a bs)).trans (State.writeBytes_turn s a bs)

/-- `loadRegs` changes nothing but `v`. -/
theorem State.loadRegs_eq (s : State) (a : Word) (rs : List Reg) : s.loadRegs a rs = { s with v := (s.loadRegs a rs).v } := by
  induction rs generalizing s a with
  | nil => rfl
  | cons b bs ih =>
    unfold State.loadRegs
    rw [ih]
    rfl

@[simp] theorem State.loadRegs_pc (s : State) (a : Word) (rs : List Reg) : (s.loadRegs a rs).pc = s.pc := by rw [State.loadRegs_eq]
@[simp] theorem State.loadRegs_i (s : State) (a : Word) (rs : List Reg) : (s.loadRegs a rs).i = s.i := by rw [State.loadRegs_eq]
@[simp] theorem State.loadRegs_sp (s : State) (a : Word) (rs : List Reg) : (s.loadRegs a rs).sp = s.sp := by rw [State.loadRegs_eq]
@[simp] theorem State.loadRegs_stack (s : State) (a : Word) (rs : List Reg) : (s.loadRegs a rs).stack = s.stack := by rw [State.loadRegs_eq]
@[simp] theorem State.loadRegs_dt (s : State) (a : Word) (rs : List Reg) : (s.loadRegs a rs).dt = s.dt := by rw [State.loadRegs_eq]
@[simp] theorem State.loadRegs_st (s : State) (a : Word) (rs : List Reg) : (s.loadRegs a rs).st = s.st := by rw [State.loadRegs_eq]
@[simp] theorem State.loadRegs_plane (s : State) (a : Word) (rs : List Reg) : (s.loadRegs a rs).plane = s.plane := by rw [State.loadRegs_eq]
@[simp] theorem State.loadRegs_fb (s : State) (a : Word) (rs : List Reg) : (s.loadRegs a rs).fb = s.fb := by rw [State.loadRegs_eq]
@[simp] theorem State.loadRegs_run (s : State) (a : Word) (rs : List Reg) : (s.loadRegs a rs).run = s.run := by rw [State.loadRegs_eq]
@[simp] theorem State.loadRegs_kw (s : State) (a : Word) (rs : List Reg) : (s.loadRegs a rs).kw = s.kw := by rw [State.loadRegs_eq]
@[simp] theorem State.loadRegs_fault (s : State) (a : Word) (rs : List Reg) : (s.loadRegs a rs).fault = s.fault := by rw [State.loadRegs_eq]
@[simp] theorem State.loadRegs_au (s : State) (a : Word) (rs : List Reg) : (s.loadRegs a rs).au = s.au := by rw [State.loadRegs_eq]
@[simp] theorem State.loadRegs_mem (s : State) (a : Word) (rs : List Reg) : (s.loadRegs a rs).mem = s.mem := by rw [State.loadRegs_eq]
@[simp] theorem State.loadRegs_flags (s : State) (a : Word) (rs : List Reg) : (s.loadRegs a rs).flags = s.flags := by rw [State.loadRegs_eq]
@[simp] theorem State.loadRegs_params (s : State) (a : Word) (rs : List Reg) : (s.loadRegs a rs).params = s.params := by rw [State.loadRegs_eq]
@[simp] theorem State.loadRegs_tick (s : State) (a : Word) (rs : List Reg) : (s.loadRegs a rs).tick = s.tick := by rw [State.loadRegs_eq]
@[simp] theorem State.loadRegs_lastTick (s : State) (a : Word) (rs : List Reg) : (s.loadRegs a rs).lastTick = s.lastTick := by rw [State.loadRegs_eq]
@[simp] theorem State.loadRegs_samples (s : State) (a : Word) (rs : List Reg) : (s.loadRegs a rs).samples = s.samples := by rw [State.loadRegs_eq]
@[simp] theorem State.loadRegs_gen (s : State) (a : Word) (rs : List Reg) : (s.loadRegs a rs).gen = s.gen := by rw [State.loadRegs_eq]
@[simp] theorem State.loadRegs_unseen (s : State) (a : Word) (rs : List Reg) : (s.loadRegs a rs).unseen = s.unseen := by rw [State.loadRegs_eq]
@[simp] theorem State.loadRegs_inp (s : State) (a : Word) (rs : List Reg) : (s.loadRegs a rs).inp = s.inp := by rw [State.loadRegs_eq]
@[simp] theorem State.loadRegs_turn (s : State) (a : Word) (rs : List Reg) : (s.loadRegs a rs).turn = s.turn := by rw [State.loadRegs_eq]

/-- `saveFlagRegs` changes nothing but `flags`. -/
theorem State.saveFlagRegs_eq (s : State) (rs : List Reg) : s.saveFlagRegs rs = { s with flags := (s.saveFlagRegs rs).flags } := by
  induction rs generalizing s with
  | nil => rfl
  | cons b bs ih =>
    unfold State.saveFlagRegs
    rw [ih]

@[simp] theorem State.saveFlagRegs_v (s : State) (rs : List Reg) : (s.saveFlagRegs rs).v = s.v := by rw [State.saveFlagRegs_eq]
@[simp] theorem State.saveFlagRegs_pc (s : State) (rs : List Reg) : (s.saveFlagRegs rs).pc = s.pc := by rw [State.saveFlagRegs_eq]
@[simp] theorem State.saveFlagRegs_i (s : State) (rs : List Reg) : (s.saveFlagRegs rs).i = s.i := by rw [State.saveFlagRegs_eq]
@[simp] theorem State.saveFlagRegs_sp (s : State) (rs : List Reg) : (s.saveFlagRegs rs).sp = s.sp := by rw [State.saveFlagRegs_eq]
@[simp] theorem State.saveFlagRegs_stack (s : State) (rs : List Reg) : (s.saveFlagRegs rs).stack = s.stack := by rw [State.saveFlagRegs_eq]
@[simp] theorem State.saveFlagRegs_dt (s : State) (rs : List Reg) : (s.saveFlagRegs rs).dt = s.dt := by rw [State.saveFlagRegs_eq]
@[simp] theorem State.saveFlagRegs_st (s : State) (rs : List Reg) : (s.saveFlagRegs rs).st = s.st := by rw [State.saveFlagRegs_eq]
@[simp] theorem State.saveFlagRegs_plane (s : State) (rs : List Reg) : (s.saveFlagRegs rs).plane = s.plane := by rw [State.saveFlagRegs_eq]
@[simp] theorem State.saveFlagRegs_fb (s : State) (rs : List Reg) : (s.saveFlagRegs rs).fb = s.fb := by rw [State.saveFlagRegs_eq]
@[simp] theorem State.saveFlagRegs_run (s : State) (rs : List Reg) : (s.saveFlagRegs rs).run = s.run := by rw [State.saveFlagRegs_eq]
@[simp] theorem State.saveFlagRegs_kw (s : State) (rs : List Reg) : (s.saveFlagRegs rs).kw = s.kw := by rw [State.saveFlagRegs_eq]
@[simp] theorem State.saveFlagRegs_fault (s : State) (rs : List Reg) : (s.saveFlagRegs rs).fault = s.fault := by rw [State.saveFlagRegs_eq]
@[simp] theorem State.saveFlagRegs_au (s : State) (rs : List Reg) : (s.saveFlagRegs rs).au = s.au := by rw [State.saveFlagRegs_eq]
@[simp] theorem State.saveFlagRegs_mem (s : State) (rs : List Reg) : (s.saveFlagRegs rs).mem = s.mem := by rw [State.saveFlagRegs_eq]
@[simp] theorem State.saveFlagRegs_params (s : State) (rs : List Reg) : (s.saveFlagRegs rs).params = s.params := by rw [State.saveFlagRegs_eq]
@[simp] theorem State.saveFlagRegs_tick (s : State) (rs : List Reg) : (s.saveFlagRegs rs).tick = s.tick := by rw [State.saveFlagRegs_eq]
@[simp] theorem State.saveFlagRegs_lastTick (s : State) (rs : List Reg) : (s.saveFlagRegs rs).lastTick = s.lastTick := by rw [State.saveFlagRegs_eq]
@[simp] theorem State.saveFlagRegs_samples (s : State) (rs : List Reg) : (s.saveFlagRegs rs).samples = s.samples := by rw [State.saveFlagRegs_eq]
@[simp] theorem State.saveFlagRegs_gen (s : State) (rs : List Reg) : (s.saveFlagRegs rs).gen = s.gen := by rw [State.saveFlagRegs_eq]
@[simp] theorem State.saveFlagRegs_unseen (s : State) (rs : List Reg) : (s.saveFlagRegs rs).unseen = s.unseen := by rw [State.saveFlagRegs_eq]
@[simp] theorem State.saveFlagRegs_inp (s : State) (rs : List Reg) : (s.saveFlagRegs rs).inp = s.inp := by rw [State.saveFlagRegs_eq]
@[simp] theorem State.saveFlagRegs_turn (s : State) (rs : List Reg) : (s.saveFlagRegs rs).turn = s.turn := by rw [State.saveFlagRegs_eq]

/-- `loadFlagRegs` changes nothing but `v`. -/
theorem State.loadFlagRegs_eq (s : State) (rs : List Reg) : s.loadFlagRegs rs = { s with v := (s.loadFlagRegs rs).v } := by
  induction rs generalizing s with
  | nil => rfl
  | cons b bs ih =>
    unfold State.loadFlagRegs
    rw [ih]
    rfl

@[simp] theorem State.loadFlagRegs_pc (s : State) (rs : List Reg) : (s.loadFlagRegs rs).pc = s.pc := by rw [State.loadFlagRegs_eq]
@[simp] theorem State.loadFlagRegs_i (s : State) (rs : List Reg) : (s.loadFlagRegs rs).i = s.i := by rw [State.loadFlagRegs_eq]
@[simp] theorem State.loadFlagRegs_sp (s : State) (rs : List Reg) : (s.loadFlagRegs rs).sp = s.sp := by rw [State.loadFlagRegs_eq]
@[simp] theorem State.loadFlagRegs_stack (s : State) (rs : List Reg) : (s.loadFlagRegs rs).stack = s.stack := by rw [State.loadFlagRegs_eq]
@[simp] theorem State.loadFlagRegs_dt (s : State) (rs : List Reg) : (s.loadFlagRegs rs).dt = s.dt := by rw [State.loadFlagRegs_eq]
@[simp] theorem State.loadFlagRegs_st (s : State) (rs : List Reg) : (s.loadFlagRegs rs).st = s.st := by rw [State.loadFlagRegs_eq]
@[simp] theorem State.loadFlagRegs_plane (s : State) (rs : List Reg) : (s.loadFlagRegs rs).plane = s.plane := by rw [State.loadFlagRegs_eq]
@[simp] theorem State.loadFlagRegs_fb (s : State) (rs : List Reg) : (s.loadFlagRegs rs).fb = s.fb := by rw [State.loadFlagRegs_eq]
@[simp] theorem State.loadFlagRegs_run (s : State) (rs : List Reg) : (s.loadFlagRegs rs).run = s.run := by rw [State.loadFlagRegs_eq]
@[simp] theorem State.loadFlagRegs_kw (s : State) (rs : List Reg) : (s.loadFlagRegs rs).kw = s.kw := by rw [State.loadFlagRegs_eq]
@[simp] theorem State.loadFlagRegs_fault (s : State) (rs : List Reg) : (s.loadFlagRegs rs).fault = s.fault := by rw [State.loadFlagRegs_eq]
@[simp] theorem State.loadFlagRegs_au (s : State) (rs : List Reg) : (s.loadFlagRegs rs).au = s.au := by rw [State.loadFlagRegs_eq]
@[simp] theorem State.loadFlagRegs_mem (s : State) (rs : List Reg) : (s.loadFlagRegs rs).mem = s.mem := by rw [State.loadFlagRegs_eq]
@[simp] theorem State.loadFlagRegs_flags (s : State) (rs : List Reg) : (s.loadFlagRegs rs).flags = s.flags := by rw [State.loadFlagRegs_eq]
@[simp] theorem State.loadFlagRegs_params (s : State) (rs : List Reg) : (s.loadFlagRegs rs).params = s.params := by rw [State.loadFlagRegs_eq]
@[simp] theorem State.loadFlagRegs_tick (s : State) (rs : List Reg) : (s.loadFlagRegs rs).tick = s.tick := by rw [State.loadFlagRegs_eq]
@[simp] theorem State.loadFlagRegs_lastTick (s : State) (rs : List Reg) : (s.loadFlagRegs rs).lastTick = s.lastTick := by rw [State.loadFlagRegs_eq]
@[simp] theorem State.loadFlagRegs_samples (s : State) (rs : List Reg) : (s.loadFlagRegs rs).samples = s.samples := by rw [State.loadFlagRegs_eq]
@[simp] theorem State.loadFlagRegs_gen (s : State) (rs : List Reg) : (s.loadFlagRegs rs).gen = s.gen := by rw [State.loadFlagRegs_eq]
@[simp] theorem State.loadFlagRegs_unseen (s : State) (rs : List Reg) : (s.loadFlagRegs rs).unseen = s.unseen := by rw [State.loadFlagRegs_eq]
@[simp] theorem State.loadFlagRegs_inp (s : State) (rs : List Reg) : (s.loadFlagRegs rs).inp = s.inp := by rw [State.loadFlagRegs_eq]
@[simp] theorem State.loadFlagRegs_turn (s : State) (rs : List Reg) : (s.loadFlagRegs rs).turn = s.turn := by rw [State.loadFlagRegs_eq]

/-- `advanceCursor` changes nothing but `au`. -/
theorem State.advanceCursor_eq (s : State) (n : Nat) : s.advanceCursor n = { s with au := (s.advanceCursor n).au } := by
  induction n generalizing s with
  | zero => rfl
  | succ n ih =>
    unfold State.advanceCursor
    rw [ih]

@[simp] theorem State.advanceCursor_v (s : State) (n : Nat) : (s.advanceCursor n).v = s.v := by rw [State.advanceCursor_eq]
@[simp] theorem State.advanceCursor_pc (s : State) (n : Nat) : (s.advanceCursor n).pc = s.pc := by rw [State.advanceCursor_eq]
@[simp] theorem State.advanceCursor_i (s : State) (n : Nat) : (s.advanceCursor n).i = s.i := by rw [State.advanceCursor_eq]
@[simp] theorem State.advanceCursor_sp (s : State) (n : Nat) : (s.advanceCursor n).sp = s.sp := by rw [State.advanceCursor_eq]
@[simp] theorem State.advanceCursor_stack (s : State) (n : Nat) : (s.advanceCursor n).stack = s.stack := by rw [State.advanceCursor_eq]
@[simp] theorem State.advanceCursor_dt (s : State) (n : Nat) : (s.advanceCursor n).dt = s.dt := by rw [State.advanceCursor_eq]
@[simp] theorem State.advanceCursor_st (s : State) (n : Nat) : (s.advanceCursor n).st = s.st := by rw [State.advanceCursor_eq]
@[simp] theorem State.advanceCursor_plane (s : State) (n : Nat) : (s.advanceCursor n).plane = s.plane := by rw [State.advanceCursor_eq]
@[simp] theorem State.advanceCursor_fb (s : State) (n : Nat) : (s.advanceCursor n).fb = s.fb := by rw [State.advanceCursor_eq]
@[simp] theorem State.advanceCursor_run (s : State) (n : Nat) : (s.advanceCursor n).run = s.run := by rw [State.advanceCursor_eq]
@[simp] theorem State.advanceCursor_kw (s : State) (n : Nat) : (s.advanceCursor n).kw = s.kw := by rw [State.advanceCursor_eq]
@[simp] theorem State.advanceCursor_fault (s : State) (n : Nat) : (s.advanceCursor n).fault = s.fault := by rw [State.advanceCursor_eq]
@[simp] theorem State.advanceCursor_mem (s : State) (n : Nat) : (s.advanceCursor n).mem = s.mem := by rw [State.advanceCursor_eq]
@[simp] theorem State.advanceCursor_flags (s : State) (n : Nat) : (s.advanceCursor n).flags = s.flags := by rw [State.advanceCursor_eq]
@[simp] theorem State.advanceCursor_params (s : State) (n : Nat) : (s.advanceCursor n).params = s.params := by rw [State.advanceCursor_eq]
@[simp] theorem State.advanceCursor_tick (s : State) (n : Nat) : (s.advanceCursor n).tick = s.tick := by rw [State.advanceCursor_eq]
@[simp] theorem State.advanceCursor_lastTick (s : State) (n : Nat) : (s.advanceCursor n).lastTick = s.lastTick := by rw [State.advanceCursor_eq]
@[simp] theorem State.advanceCursor_samples (s : State) (n : Nat) : (s.advanceCursor n).samples = s.samples := by rw [State.advanceCursor_eq]
@[simp] theorem State.advanceCursor_gen (s : State) (n : Nat) : (s.advanceCursor n).gen = s.gen := by rw [State.advanceCursor_eq]
@[simp] theorem State.advanceCursor_unseen (s : State) (n : Nat) : (s.advanceCursor n).unseen = s.unseen := by rw [State.advanceCursor_eq]
@[simp] theorem State.advanceCursor_inp (s : State) (n : Nat) : (s.advanceCursor n).inp = s.inp := by rw [State.advanceCursor_eq]
@[simp] theorem State.advanceCursor_turn (s : State) (n : Nat) : (s.advanceCursor n).turn = s.turn := by rw [State.advanceCursor_eq]

/-- `skipIf` changes nothing but `pc`. -/
theorem State.skipIf_eq (s : State) (c : Bool) : s.skipIf c = { s with pc := (s.skipIf c).pc } := by
  cases c <;> rfl

@[simp] theorem State.skipIf_v (s : State) (c : Bool) : (s.skipIf c).v = s.v := by rw [State.skipIf_eq]
@[simp] theorem State.skipIf_i (s : State) (c : Bool) : (s.skipIf c).i = s.i := by rw [State.skipIf_eq]
@[simp] theorem State.skipIf_sp (s : State) (c : Bool) : (s.skipIf c).sp = s.sp := by rw [State.skipIf_eq]
@[simp] theorem State.skipIf_stack (s : State) (c : Bool) : (s.skipIf c).stack = s.stack := by rw [State.skipIf_eq]
@[simp] theorem State.skipIf_dt (s : State) (c : Bool) : (s.skipIf c).dt = s.dt := by rw [State.skipIf_eq]
@[simp] theorem State.skipIf_st (s : State) (c : Bool) : (s.skipIf c).st = s.st := by rw [State.skipIf_eq]
@[simp] theorem State.skipIf_plane (s : State) (c : Bool) : (s.skipIf c).plane = s.plane := by rw [State.skipIf_eq]
@[simp] theorem State.skipIf_fb (s : State) (c : Bool) : (s.skipIf c).fb = s.fb := by rw [State.skipIf_eq]
@[simp] theorem State.skipIf_run (s : State) (c : Bool) : (s.skipIf c).run = s.run := by rw [State.skipIf_eq]
@[simp] theorem State.skipIf_kw (s : State) (c : Bool) : (s.skipIf c).kw = s.kw := by rw [State.skipIf_eq]
@[simp] theorem State.skipIf_fault (s : State) (c : Bool) : (s.skipIf c).fault = s.fault := by rw [State.skipIf_eq]
@[simp] theorem State.skipIf_au (s : State) (c : Bool) : (s.skipIf c).au = s.au := by rw [State.skipIf_eq]
@[simp] theorem State.skipIf_mem (s : State) (c : Bool) : (s.skipIf c).mem = s.mem := by rw [State.skipIf_eq]
@[simp] theorem State.skipIf_flags (s : State) (c : Bool) : (s.skipIf c).flags = s.flags := by rw [State.skipIf_eq]
@[simp] theorem State.skipIf_params (s : State) (c : Bool) : (s.skipIf c).params = s.params := by rw [State.skipIf_eq]
@[simp] theorem State.skipIf_tick (s : State) (c : Bool) : (s.skipIf c).tick = s.tick := by rw [State.skipIf_eq]
@[simp] theorem State.skipIf_lastTick (s : State) (c : Bool) : (s.skipIf c).lastTick = s.lastTick := by rw [State.skipIf_eq]
@[simp] theorem State.skipIf_samples (s : State) (c : Bool) : (s.skipIf c).samples = s.samples := by rw [State.skipIf_eq]
@[simp] theorem State.skipIf_gen (s : State) (c : Bool) : (s.skipIf c).gen = s.gen := by rw [State.skipIf_eq]
@[simp] theorem State.skipIf_unseen (s : State) (c : Bool) : (s.skipIf c).unseen = s.unseen := by rw [State.skipIf_eq]
@[simp] theorem State.skipIf_inp (s : State) (c : Bool) : (s.skipIf c).inp = s.inp := by rw [State.skipIf_eq]
@[simp] theorem State.skipIf_turn (s : State) (c : Bool) : (s.skipIf c).turn = s.turn := by rw [State.skipIf_eq]

/-- `writeBoth` changes nothing but `v`. -/
theorem State.writeBoth_eq (s : State) (x : Reg) (r f : Byte) : s.writeBoth x r f = { s with v := (s.writeBoth x r f).v } := by
  unfold State.writeBoth
  split <;> rfl

@[simp] theorem State.writeBoth_pc (s : State) (x : Reg) (r f : Byte) : (s.writeBoth x r f).pc = s.pc := by rw [State.writeBoth_eq]
@[simp] theorem State.writeBoth_i (s : State) (x : Reg) (r f : Byte) : (s.writeBoth x r f).i = s.i := by rw [State.writeBoth_eq]
@[simp] theorem State.writeBoth_sp (s : State) (x : Reg) (r f : Byte) : (s.writeBoth x r f).sp = s.sp := by rw [State.writeBoth_eq]
@[simp] theorem State.writeBoth_stack (s : State) (x : Reg) (r f : Byte) : (s.writeBoth x r f).stack = s.stack := by rw [State.writeBoth_eq]
@[simp] theorem State.writeBoth_dt (s : State) (x : Reg) (r f : Byte) : (s.writeBoth x r f).dt = s.dt := by rw [State.writeBoth_eq]
@[simp] theorem State.writeBoth_st (s : State) (x : Reg) (r f : Byte) : (s.writeBoth x r f).st = s.st := by rw [State.writeBoth_eq]
@[simp] theorem State.writeBoth_plane (s : State) (x : Reg) (r f : Byte) : (s.writeBoth x r f).plane = s.plane := by rw [State.writeBoth_eq]
@[simp] theorem State.writeBoth_fb (s : State) (x : Reg) (r f : Byte) : (s.writeBoth x r f).fb = s.fb := by rw [State.writeBoth_eq]
@[simp] theorem State.writeBoth_run (s : State) (x : Reg) (r f : Byte) : (s.writeBoth x r f).run = s.run := by rw [State.writeBoth_eq]
@[simp] theorem State.writeBoth_kw (s : State) (x : Reg) (r f : Byte) : (s.writeBoth x r f).kw = s.kw := by rw [State.writeBoth_eq]
@[simp] theorem State.writeBoth_fault (s : State) (x : Reg) (r f : Byte) : (s.writeBoth x r f).fault = s.fault := by rw [State.writeBoth_eq]
@[simp] theorem State.writeBoth_au (s : State) (x : Reg) (r f : Byte) : (s.writeBoth x r f).au = s.au := by rw [State.writeBoth_eq]
@[simp] theorem State.writeBoth_mem (s : State) (x : Reg) (r f : Byte) : (s.writeBoth x r f).mem = s.mem := by rw [State.writeBoth_eq]
@[simp] theorem State.writeBoth_flags (s : State) (x : Reg) (r f : Byte) : (s.writeBoth x r f).flags = s.flags := by rw [State.writeBoth_eq]
@[simp] theorem State.writeBoth_params (s : State) (x : Reg) (r f : Byte) : (s.writeBoth x r f).params = s.params := by rw [State.writeBoth_eq]
@[simp] theorem State.writeBoth_tick (s : State) (x : Reg) (r f : Byte) : (s.writeBoth x r f).tick = s.tick := by rw [State.writeBoth_eq]
@[simp] theorem State.writeBoth_lastTick (s : State) (x : Reg) (r f : Byte) : (s.writeBoth x r f).lastTick = s.lastTick := by rw [State.writeBoth_eq]
@[simp] theorem State.writeBoth_samples (s : State) (x : Reg) (r f : Byte) : (s.writeBoth x r f).samples = s.samples := by rw [State.writeBoth_eq]
@[simp] theorem State.writeBoth_gen (s : State) (x : Reg) (r f : Byte) : (s.writeBoth x r f).gen = s.gen := by rw [State.writeBoth_eq]
@[simp] theorem State.writeBoth_unseen (s : State) (x : Reg) (r f : Byte) : (s.writeBoth x r f).unseen = s.unseen := by rw [State.writeBoth_eq]
@[simp] theorem State.writeBoth_inp (s : State) (x : Reg) (r f : Byte) : (s.writeBoth x r f).inp = s.inp := by rw [State.writeBoth_eq]
@[simp] theorem State.writeBoth_turn (s : State) (x : Reg) (r f : Byte) : (s.writeBoth x r f).turn = s.turn := by rw [State.writeBoth_eq]

/-- `tickDelay` changes nothing but `dt`. -/
theorem State.tickDelay_eq (s : State) : s.tickDelay = { s with dt := (s.tickDelay).dt } := by
  unfold State.tickDelay
  split <;> rfl

@[simp] theorem State.tickDelay_v (s : State) : (s.tickDelay).v = s.v := by rw [State.tickDelay_eq]
@[simp] theorem State.tickDelay_pc (s : State) : (s.tickDelay).pc = s.pc := by rw [State.tickDelay_eq]
@[simp] theorem State.tickDelay_i (s : State) : (s.tickDelay).i = s.i := by rw [State.tickDelay_eq]
@[simp] theorem State.tickDelay_sp (s : State) : (s.tickDelay).sp = s.sp := by rw [State.tickDelay_eq]
@[simp] theorem State.tickDelay_stack (s : State) : (s.tickDelay).stack = s.stack := by rw [State.tickDelay_eq]
@[simp] theorem State.tickDelay_st (s : State) : (s.tickDelay).st = s.st := by rw [State.tickDelay_eq]
@[simp] theorem State.tickDelay_plane (s : State) : (s.tickDelay).plane = s.plane := by rw [State.tickDelay_eq]
@[simp] theorem State.tickDelay_fb (s : State) : (s.tickDelay).fb = s.fb := by rw [State.tickDelay_eq]
@[simp] theorem State.tickDelay_run (s : State) : (s.tickDelay).run = s.run := by rw [State.tickDelay_eq]
@[simp] theorem State.tickDelay_kw (s : State) : (s.tickDelay).kw = s.kw := by rw [State.tickDelay_eq]
@[simp] theorem State.tickDelay_fault (s : State) : (s.tickDelay).fault = s.fault := by rw [State.tickDelay_eq]
@[simp] theorem State.tickDelay_au (s : State) : (s.tickDelay).au = s.au := by rw [State.tickDelay_eq]
@[simp] theorem State.tickDelay_mem (s : State) : (s.tickDelay).mem = s.mem := by rw [State.tickDelay_eq]
@[simp] theorem State.tickDelay_flags (s : State) : (s.tickDelay).flags = s.flags := by rw [State.tickDelay_eq]
@[simp] theorem State.tickDelay_params (s : State) : (s.tickDelay).params = s.params := by rw [State.tickDelay_eq]
@[simp] theorem State.tickDelay_tick (s : State) : (s.tickDelay).tick = s.tick := by rw [State.tickDelay_eq]
@[simp] theorem State.tickDelay_lastTick (s : State) : (s.tickDelay).lastTick = s.lastTick := by rw [State.tickDelay_eq]
@[simp] theorem State.tickDelay_samples (s : State) : (s.tickDelay).samples = s.samples := by rw [State.tickDelay_eq]
@[simp] theorem State.tickDelay_gen (s : State) : (s.tickDelay).gen = s.gen := by rw [State.tickDelay_eq]
@[simp] theorem State.tickDelay_unseen (s : State) : (s.tickDelay).unseen = s.unseen := by rw [State.tickDelay_eq]
@[simp] theorem State.tickDelay_inp (s : State) : (s.tickDelay).inp = s.inp := by rw [State.tickDelay_eq]
@[simp] theorem State.tickDelay_turn (s : State) : (s.tickDelay).turn = s.turn := by rw [State.tickDelay_eq]

/-- `serviceKeyWait` changes nothing but `v`, `kw`, `run`. -/
theorem State.serviceKeyWait_eq (s : State) : s.serviceKeyWait = { s with v := (s.serviceKeyWait).v, kw := (s.serviceKeyWait).kw, run := (s.serviceKeyWait).run } := by
  unfold State.serviceKeyWait
  repeat' split
  all_goals rfl

@[simp] theorem State.serviceKeyWait_pc (s : State) : (s.serviceKeyWait).pc = s.pc := by rw [State.serviceKeyWait_eq]
@[simp] theorem State.serviceKeyWait_i (s : State) : (s.serviceKeyWait).i = s.i := by rw [State.serviceKeyWait_eq]
@[simp] theorem State.serviceKeyWait_sp (s : State) : (s.serviceKeyWait).sp = s.sp := by rw [State.serviceKeyWait_eq]
@[simp] theorem State.serviceKeyWait_stack (s : State) : (s.serviceKeyWait).stack = s.stack := by rw [State.serviceKeyWait_eq]
@[simp] theorem State.serviceKeyWait_dt (s : State) : (s.serviceKeyWait).dt = s.dt := by rw [State.serviceKeyWait_eq]
@[simp] theorem State.serviceKeyWait_st (s : State) : (s.serviceKeyWait).st = s.st := by rw [State.serviceKeyWait_eq]
@[simp] theorem State.serviceKeyWait_plane (s : State) : (s.serviceKeyWait).plane = s.plane := by rw [State.serviceKeyWait_eq]
@[simp] theorem State.serviceKeyWait_fb (s : State) : (s.serviceKeyWait).fb = s.fb := by rw [State.serviceKeyWait_eq]
@[simp] theorem State.serviceKeyWait_fault (s : State) : (s.serviceKeyWait).fault = s.fault := by rw [State.serviceKeyWait_eq]
@[simp] theorem State.serviceKeyWait_au (s : State) : (s.serviceKeyWait).au = s.au := by rw [State.serviceKeyWait_eq]
@[simp] theorem State.serviceKeyWait_mem (s : State) : (s.serviceKeyWait).mem = s.mem := by rw [State.serviceKeyWait_eq]
@[simp] theorem State.serviceKeyWait_flags (s : State) : (s.serviceKeyWait).flags = s.flags := by rw [State.serviceKeyWait_eq]
@[simp] theorem State.serviceKeyWait_params (s : State) : (s.serviceKeyWait).params = s.params := by rw [State.serviceKeyWait_eq]
@[simp] theorem State.serviceKeyWait_tick (s : State) : (s.serviceKeyWait).tick = s.tick := by rw [State.serviceKeyWait_eq]
@[simp] theorem State.serviceKeyWait_lastTick (s : State) : (s.serviceKeyWait).lastTick = s.lastTick := by rw [State.serviceKeyWait_eq]
@[simp] theorem State.serviceKeyWait_samples (s : State) : (s.serviceKeyWait).samples = s.samples := by rw [State.serviceKeyWait_eq]
@[simp] theorem State.serviceKeyWait_gen (s : State) : (s.serviceKeyWait).gen = s.gen := by rw [State.serviceKeyWait_eq]
@[simp] theorem State.serviceKeyWait_unseen (s : State) : (s.serviceKeyWait).unseen = s.unseen := by rw [State.serviceKeyWait_eq]
@[simp] theorem State.serviceKeyWait_inp (s : State) : (s.serviceKeyWait).inp = s.inp := by rw [State.serviceKeyWait_eq]
@[simp] theorem State.serviceKeyWait_turn (s : State) : (s.serviceKeyWait).turn = s.turn := by rw [State.serviceKeyWait_eq]

/-- `tickSound` changes nothing but `st` and `au`. -/
theorem State.tickSound_eq (s : State) : s.tickSound.1 = { s with st := s.tickSound.1.st, au := s.tickSound.1.au } := by
  unfold State.tickSound
  repeat' split
  all_goals rfl

@[simp] theorem State.tickSound_v (s : State) : s.tickSound.1.v = s.v := by rw [State.tickSound_eq]
@[simp] theorem State.tickSound_pc (s : State) : s.tickSound.1.pc = s.pc := by rw [State.tickSound_eq]
@[simp] theorem State.tickSound_i (s : State) : s.tickSound.1.i = s.i := by rw [State.tickSound_eq]
@[simp] theorem State.tickSound_sp (s : State) : s.tickSound.1.sp = s.sp := by rw [State.tickSound_eq]
@[simp] theorem State.tickSound_stack (s : State) : s.tickSound.1.stack = s.stack := by rw [State.tickSound_eq]
@[simp] theorem State.tickSound_dt (s : State) : s.tickSound.1.dt = s.dt := by rw [State.tickSound_eq]
@[simp] theorem State.tickSound_plane (s : State) : s.tickSound.1.plane = s.plane := by rw [State.tickSound_eq]
@[simp] theorem State.tickSound_fb (s : State) : s.tickSound.1.fb = s.fb := by rw [State.tickSound_eq]
@[simp] theorem State.tickSound_run (s : State) : s.tickSound.1.run = s.run := by rw [State.tickSound_eq]
@[simp] theorem State.tickSound_kw (s : State) : s.tickSound.1.kw = s.kw := by rw [State.tickSound_eq]
@[simp] theorem State.tickSound_fault (s : State) : s.tickSound.1.fault = s.fault := by rw [State.tickSound_eq]
@[simp] theorem State.tickSound_mem (s : State) : s.tickSound.1.mem = s.mem := by rw [State.tickSound_eq]
@[simp] theorem State.tickSound_flags (s : State) : s.tickSound.1.flags = s.flags := by rw [State.tickSound_eq]
@[simp] theorem State.tickSound_params (s : State) : s.tickSound.1.params = s.params := by rw [State.tickSound_eq]
@[simp] theorem State.tickSound_tick (s : State) : s.tickSound.1.tick = s.tick := by rw [State.tickSound_eq]
@[simp] theorem State.tickSound_lastTick (s : State) : s.tickSound.1.lastTick = s.lastTick := by rw [State.tickSound_eq]
@[simp] theorem State.tickSound_samples (s : State) : s.tickSound.1.samples = s.samples := by rw [State.tickSound_eq]
@[simp] theorem State.tickSound_gen (s : State) : s.tickSound.1.gen = s.gen := by rw [State.tickSound_eq]
@[simp] theorem State.tickSound_unseen (s : State) : s.tickSound.1.unseen = s.unseen := by rw [State.tickSound_eq]
@[simp] theorem State.tickSound_inp (s : State) : s.tickSound.1.inp = s.inp := by rw [State.tickSound_eq]
@[simp] theorem State.tickSound_turn (s : State) : s.tickSound.1.turn = s.turn := by rw [State.tickSound_eq]

end Sys2Proof.Machine
end

