-- ==== Sys2Proof/Laws/Ops.lean ====
section
/-! SUPPORT. What the named operations over registers, memory, the stack and the flag store do. -/

namespace Sys2Proof.Machine

/-! ## Registers -/

/-- A register read after a register write. -/
theorem State.getV_setV (s : State) (x y : Reg) (b : Byte) :
    (s.setV x b).getV y = if y = x then b else s.getV y := by
  simp only [State.getV, State.setV_v, Vector.getElem_set, BitVec.toNat_inj, eq_comm]

@[simp] theorem State.getV_setV_self (s : State) (x : Reg) (b : Byte) : (s.setV x b).getV x = b := by
  simp [State.getV_setV]

theorem State.getV_setV_ne (s : State) {x y : Reg} (b : Byte) (h : y ≠ x) : (s.setV x b).getV y = s.getV y := by
  simp [State.getV_setV, h]

/-- A register is a field of the register file: states with the same file read alike. -/
theorem State.getV_congr {s t : State} (h : s.v = t.v) (x : Reg) : s.getV x = t.getV x := by
  simp [State.getV, h]

/-- Two register files that read alike are the same file. -/
theorem State.v_ext {s t : State} (h : ∀ x, s.getV x = t.getV x) : s.v = t.v := by
  apply Vector.ext
  intro k hk
  have := h (BitVec.ofNat 4 k)
  have hk' : (BitVec.ofNat 4 k).toNat = k := by
    rw [BitVec.toNat_ofNat]
    exact Nat.mod_eq_of_lt hk
  simpa only [State.getV, hk'] using this

/-- `writeBoth`: VX and VF, in the order the quirk gives; every other register stays (43_alu.md R170). -/
theorem State.getV_writeBoth (s : State) (x y : Reg) (r f : Byte) :
    (s.writeBoth x r f).getV y =
      if y = x ∧ y = Reg.flag then (if s.inp.quirks.vfFlagLast then f else r)
      else if y = x then r else if y = Reg.flag then f else s.getV y := by
  unfold State.writeBoth
  by_cases h1 : y = x <;> by_cases h2 : y = Reg.flag <;> cases s.inp.quirks.vfFlagLast <;>
    simp_all [State.getV_setV]

/-! ## Memory -/

/-- Memory reads are of the two fields that hold memory. -/
theorem State.readByte_congr {s t : State} (hm : s.mem = t.mem) (hp : s.params = t.params) (a : Word) :
    s.readByte a = t.readByte a := by
  simp [State.readByte, hm, hp]

/-- A byte read after a byte write. -/
theorem State.readByte_writeByte (s : State) (a j : Word) (b : Byte) :
    (s.writeByte a b).readByte j = if j = a then b else s.readByte j := by
  simp only [State.readByte, State.writeByte_mem, State.writeByte_params, sparseGet_set, BitVec.toNat_inj]

/-- A byte read after a run of byte writes: the one of the run that falls on it, else what was there. -/
theorem State.readByte_writeBytes (s : State) (a j : Word) (bs : List Byte) (h : bs.length ≤ 65536) :
    (s.writeBytes a bs).readByte j = (bs[(j - a).toNat]?).getD (s.readByte j) := by
  induction bs generalizing s a with
  | nil => simp [State.writeBytes]
  | cons b bs ih =>
    rw [State.writeBytes, ih _ _ (by simp at h; omega), State.readByte_writeByte]
    by_cases hj : j = a
    · subst hj
      have h1 : (j - (j + 1#16)).toNat = 65535 := by bv_omega
      have h2 : (j - j).toNat = 0 := by bv_omega
      simp only [h1, h2, List.getElem?_cons_zero, Option.getD_some, if_true]
      rw [List.getElem?_eq_none (by simp at h; omega)]
      rfl
    · have h1 : (j - a).toNat = (j - (a + 1#16)).toNat + 1 := by bv_omega
      rw [h1, List.getElem?_cons_succ, if_neg hj]

/-- A byte outside a run of byte writes stays. -/
theorem State.readByte_writeBytes_outside (s : State) (a j : Word) (bs : List Byte) (h : bs.length ≤ 65536)
    (hj : bs.length ≤ (j - a).toNat) : (s.writeBytes a bs).readByte j = s.readByte j := by
  rw [State.readByte_writeBytes _ _ _ _ h, List.getElem?_eq_none hj]
  rfl

/-- A byte write keeps memory in canonical form. -/
theorem State.writeByte_memory_wf {s : State} (h : Memory.wf s.params s.mem) (a : Word) (b : Byte) :
    Memory.wf (s.writeByte a b).params (s.writeByte a b).mem :=
  sparseSet_wf h a.isLt

/-- A run of byte writes keeps memory in canonical form. -/
theorem State.writeBytes_memory_wf {s : State} (h : Memory.wf s.params s.mem) (a : Word) (bs : List Byte) :
    Memory.wf (s.writeBytes a bs).params (s.writeBytes a bs).mem := by
  induction bs generalizing s a with
  | nil => exact h
  | cons b bs ih => exact ih (State.writeByte_memory_wf h a b) _

/-- The stores of an instruction keep memory in canonical form. -/
theorem State.storeBytes_memory_wf {s : State} (h : Memory.wf s.params s.mem) (a : Word) (bs : List Byte) :
    Memory.wf (s.storeBytes a bs).params (s.storeBytes a bs).mem := by
  simpa using State.writeBytes_memory_wf h a bs

/-- A byte read after a run of stores. -/
theorem State.readByte_storeBytes (s : State) (a j : Word) (bs : List Byte) (h : bs.length ≤ 65536) :
    (s.storeBytes a bs).readByte j = (bs[(j - a).toNat]?).getD (s.readByte j) :=
  (State.readByte_congr (by simp) (by simp) j).trans (State.readByte_writeBytes s a j bs h)

/-- What a run of `n` stores from `a` upward notes: each address, with the byte that `read` gives there. -/
def storeNotes (read : Word → Byte) (a : Word) : Nat → List (Word × Byte)
  | 0 => []
  | n + 1 => (a, read a) :: storeNotes read (a + 1#16) n

theorem storeNotes_congr {f g : Word → Byte} {a : Word} {n : Nat}
    (h : ∀ j : Word, (j - a).toNat < n → f j = g j) (hn : n ≤ 65536) : storeNotes f a n = storeNotes g a n := by
  induction n generalizing a with
  | zero => rfl
  | succ n ih =>
    unfold storeNotes
    rw [h a (by bv_omega), ih (fun j hj => h j (by bv_omega)) (by omega)]

/-- A run of stores notes the bytes that stood there before the run. -/
theorem State.storeBytes_unseen (s : State) (a : Word) (bs : List Byte) (h : bs.length ≤ 65536) :
    (s.storeBytes a bs).unseen = s.unseen ++ storeNotes s.readByte a bs.length := by
  induction bs generalizing s a with
  | nil => simp [State.storeBytes, storeNotes]
  | cons b bs ih =>
    have hl : bs.length < 65536 := by simpa using h
    have hr : storeNotes (s.storeByte a b).readByte (a + 1#16) bs.length = storeNotes s.readByte (a + 1#16) bs.length :=
      storeNotes_congr (fun j hj => by
        refine (State.readByte_writeByte s a j b).trans (if_neg ?_)
        rintro rfl
        bv_omega) hl.le
    rw [State.storeBytes, ih _ _ hl.le, hr]
    simp [storeNotes]

/-- The byte noted for an address among the notes from the `k`-th on. -/
theorem lookup_storeNotes (f : Word → Byte) (a j : Word) {n : Nat} (k : Nat) (h : n ≤ 65536) :
    ((storeNotes f a n).drop k).lookup j = if k ≤ (j - a).toNat ∧ (j - a).toNat < n then some (f j) else none := by
  induction n generalizing a k with
  | zero => simp [storeNotes]
  | succ n ih =>
    unfold storeNotes
    cases k with
    | zero =>
      have ih0 := ih (a + 1#16) 0 (by omega)
      rw [List.drop_zero] at ih0 ⊢
      rw [List.lookup_cons, ih0]
      by_cases hj : j = a
      · subst hj
        simp
      · have h1 : (j - a).toNat = (j - (a + 1#16)).toNat + 1 := by bv_omega
        have hb : (j == a) = false := by simpa using hj
        rw [hb, h1]
        simp
    | succ k =>
      rw [List.drop_succ_cons, ih _ _ (by omega)]
      by_cases hj : j = a
      · subst hj
        have h1 : (j - (j + 1#16)).toNat = 65535 := by bv_omega
        have h2 : (j - j).toNat = 0 := by bv_omega
        rw [if_neg (by omega), if_neg (by omega)]
      · have h1 : (j - a).toNat = (j - (a + 1#16)).toNat + 1 := by bv_omega
        simp [h1]

/-- Memory after reset is in canonical form, whatever the parameters are. -/
theorem State.reset_memory_wf : Memory.wf State.reset.params State.reset.mem := sparseWf_nil _

theorem State.readBytes_length (s : State) (a : Word) (n : Nat) : (s.readBytes a n).length = n := by
  induction n generalizing a with
  | zero => rfl
  | succ n ih => simp [State.readBytes, ih]

theorem State.readBytes_getElem (s : State) (a : Word) (n k : Nat) (h : k < (s.readBytes a n).length) :
    (s.readBytes a n)[k] = s.readByte (a + BitVec.ofNat 16 k) := by
  induction n generalizing a k with
  | zero => simp [State.readBytes] at h
  | succ n ih =>
    cases k with
    | zero => simp [State.readBytes]
    | succ k =>
      simp only [State.readBytes, List.getElem_cons_succ]
      rw [ih]
      congr 1
      rw [BitVec.add_assoc]
      congr 1
      apply BitVec.eq_of_toNat_eq
      simp [Nat.add_comm]

theorem State.readBytes_congr {s t : State} (hm : s.mem = t.mem) (hp : s.params = t.params) (a : Word) (n : Nat) :
    s.readBytes a n = t.readBytes a n := by
  induction n generalizing a with
  | zero => rfl
  | succ n ih => rw [State.readBytes, State.readBytes, ih, State.readByte_congr hm hp]

/-! ## Register ranges -/

theorem regRange_length (x y : Reg) :
    (regRange x y).length = (if x ≤ y then y.toNat - x.toNat else x.toNat - y.toNat) + 1 := by
  unfold regRange
  split <;> simp

theorem regRange_length_le (x y : Reg) : (regRange x y).length ≤ 16 := by
  rw [regRange_length]
  have := x.isLt
  have := y.isLt
  split <;> omega

/-- The k-th register of a range, in the direction from x toward y. -/
theorem regRange_getElem (x y : Reg) (k : Nat) (h : k < (regRange x y).length) :
    (regRange x y)[k] = if x ≤ y then x + BitVec.ofNat 4 k else x - BitVec.ofNat 4 k := by
  unfold regRange
  split <;> simp

/-- A range holds the registers between its ends, whatever its direction. -/
theorem mem_regRange (x y r : Reg) : r ∈ regRange x y ↔ (x ≤ r ∧ r ≤ y) ∨ (y ≤ r ∧ r ≤ x) := by
  revert x y r
  decide

theorem regRange_nodup (x y : Reg) : (regRange x y).Nodup := by
  revert x y
  decide

/-- The place of a register in a range is its distance from the range's first register. -/
theorem idxOf_regRange (x y r : Reg) (h : r ∈ regRange x y) :
    (regRange x y).idxOf r = if x ≤ y then (r - x).toNat else (x - r).toNat := by
  revert x y r
  decide

/-- A register after a block load: the byte at its place in the list, else what it held. -/
theorem State.getV_loadRegs (s : State) (a : Word) (rs : List Reg) (h : rs.Nodup) (r : Reg) :
    (s.loadRegs a rs).getV r =
      if r ∈ rs then s.readByte (a + BitVec.ofNat 16 (rs.idxOf r)) else s.getV r := by
  induction rs generalizing s a with
  | nil => simp [State.loadRegs]
  | cons q rs ih =>
    obtain ⟨hq, hrs⟩ := List.nodup_cons.1 h
    rw [State.loadRegs, ih _ _ hrs]
    by_cases hr : r = q
    · subst hr
      simp [hq]
    · rw [State.getV_setV_ne _ _ hr]
      by_cases hm : r ∈ rs
      · rw [if_pos hm, if_pos (List.mem_cons_of_mem _ hm), List.idxOf_cons_ne _ (Ne.symm hr)]
        rw [State.readByte_congr (s := s.setV q (s.readByte a)) (t := s) rfl rfl, BitVec.add_assoc]
        congr 2
        apply BitVec.eq_of_toNat_eq
        simp [Nat.add_comm]
      · rw [if_neg hm, if_neg (by simp [hr, hm])]

/-- A register after a load from the flag store. -/
theorem State.getV_loadFlagRegs (s : State) (rs : List Reg) (r : Reg) :
    (s.loadFlagRegs rs).getV r = if r ∈ rs then s.flags[r.toNat]'r.isLt else s.getV r := by
  induction rs generalizing s with
  | nil => simp [State.loadFlagRegs]
  | cons q rs ih =>
    rw [State.loadFlagRegs, ih]
    simp only [State.setV_flags, List.mem_cons]
    by_cases hr : r ∈ rs
    · simp [hr]
    · by_cases hq : r = q
      · subst hq
        simp [hr]
      · simp [hr, hq, State.getV_setV_ne _ _ hq]

/-- A place of the flag store after a save. -/
theorem State.flags_saveFlagRegs (s : State) (rs : List Reg) (r : Reg) :
    (s.saveFlagRegs rs).flags[r.toNat]'r.isLt = if r ∈ rs then s.getV r else s.flags[r.toNat]'r.isLt := by
  induction rs generalizing s with
  | nil => simp [State.saveFlagRegs]
  | cons q rs ih =>
    simp only [State.saveFlagRegs]
    rw [ih]
    simp only [State.getV, List.mem_cons, Vector.getElem_set, BitVec.toNat_inj]
    by_cases hr : r ∈ rs
    · simp [hr]
    · by_cases hq : r = q
      · subst hq
        simp [hr]
      · simp [hr, hq, Ne.symm hq]

/-! ## The call stack -/

theorem State.push_of_lt (s : State) (a : Word) (h : s.sp.val < 16) :
    s.push a = some { s with stack := s.stack.set s.sp.val a h, sp := ⟨s.sp.val + 1, by omega⟩ } := dif_pos h

theorem State.push_of_full (s : State) (a : Word) (h : s.sp = 16) : s.push a = none := by
  unfold State.push
  rw [dif_neg (by simp [h])]

theorem State.pop_of_pos (s : State) (h : 0 < s.sp.val) :
    s.pop = some (s.stack[s.sp.val - 1]'(by omega), { s with sp := ⟨s.sp.val - 1, by omega⟩ }) := dif_pos h

theorem State.pop_of_empty (s : State) (h : s.sp = 0) : s.pop = none := by
  unfold State.pop
  rw [dif_neg (by simp [h])]

end Sys2Proof.Machine
end

