-- ==== Sys2Proof/Laws/Audio.lean ====
section
/-! SUPPORT. What the audio generator does: it changes its own playback state and nothing else (49_audio.md R312 to R318). -/

namespace Sys2Proof.Machine

/-- Pattern bits are read from memory only. -/
theorem State.patternBit_congr {s t : State} (hm : s.mem = t.mem) (hp : s.params = t.params) (b : Word) (c : BitVec 7) :
    s.patternBit b c = t.patternBit b c := by
  unfold State.patternBit patternBitBy
  rw [State.readByte_congr hm hp]

/-- The cursor after `n` advances. -/
theorem State.advanceCursor_cursor (s : State) (n : Nat) :
    (s.advanceCursor n).au.cursor = s.au.cursor + BitVec.ofNat 7 n := by
  induction n generalizing s with
  | zero => simp [State.advanceCursor]
  | succ n ih =>
    rw [State.advanceCursor, ih]
    apply BitVec.eq_of_toNat_eq
    simp
    omega

@[simp] theorem State.advanceCursor_base (s : State) (n : Nat) : (s.advanceCursor n).au.base = s.au.base := by
  induction n generalizing s with
  | zero => rfl
  | succ n ih => rw [State.advanceCursor, ih]

@[simp] theorem State.advanceCursor_phase (s : State) (n : Nat) : (s.advanceCursor n).au.phase = s.au.phase := by
  induction n generalizing s with
  | zero => rfl
  | succ n ih => rw [State.advanceCursor, ih]

@[simp] theorem State.advanceCursor_on (s : State) (n : Nat) : (s.advanceCursor n).au.on = s.au.on := by
  induction n generalizing s with
  | zero => rfl
  | succ n ih => rw [State.advanceCursor, ih]

/-- After at least one advance the bit is the pattern bit of the cursor reached. -/
theorem State.advanceCursor_bit (s : State) {n : Nat} (h : 0 < n) :
    (s.advanceCursor n).au.bit = s.patternBit s.au.base (s.au.cursor + BitVec.ofNat 7 n) := by
  induction n generalizing s with
  | zero => omega
  | succ n ih =>
    rw [State.advanceCursor]
    cases n with
    | zero => rfl
    | succ n =>
      rw [ih _ (by omega)]
      refine (State.patternBit_congr (t := s) rfl rfl _ _).trans ?_
      congr 1
      apply BitVec.eq_of_toNat_eq
      simp
      omega

/-- `afterSample` changes nothing but `au`. -/
theorem State.afterSample_eq (s : State) (rate : Nat) : s.afterSample rate = { s with au := (s.afterSample rate).au } := by
  unfold State.afterSample
  rw [State.advanceCursor_eq]

@[simp] theorem State.afterSample_base (s : State) (rate : Nat) : (s.afterSample rate).au.base = s.au.base := by
  simp [State.afterSample]

@[simp] theorem State.afterSample_on (s : State) (rate : Nat) : (s.afterSample rate).au.on = s.au.on := by
  simp [State.afterSample]

/-- `Generate` changes nothing but `au`, and of it neither the base nor whether the source is installed. -/
theorem State.generate_eq (s : State) (rate n : Nat) :
    (s.generate rate n).2 = { s with au := (s.generate rate n).2.au } ∧
      (s.generate rate n).2.au.base = s.au.base ∧ (s.generate rate n).2.au.on = s.au.on := by
  induction n generalizing s with
  | zero => exact ⟨rfl, rfl, rfl⟩
  | succ n ih =>
    obtain ⟨h1, h2, h3⟩ := ih (s.afterSample rate)
    simp only [State.generate]
    refine ⟨?_, by simpa using h2, by simpa using h3⟩
    rw [h1, State.afterSample_eq]

/-- `Generate` gives `n` samples. -/
theorem State.generate_length (s : State) (rate n : Nat) : (s.generate rate n).1.length = n := by
  induction n generalizing s with
  | zero => rfl
  | succ n ih => simp [State.generate, ih]

/-! ## What the agent reads (20_memory.md R65, R74) -/

/-- With every byte write passed, the agent reads memory as it stands. -/
theorem State.audioByte_settled {s : State} (h : s.unseen = []) (a : Word) : s.audioByte a = s.readByte a := by
  simp [State.audioByte, h]

theorem State.audioBit_settled {s : State} (h : s.unseen = []) (b : Word) (c : BitVec 7) :
    s.audioBit b c = s.patternBit b c := by
  simp [State.audioBit, State.patternBit, patternBitBy, State.audioByte_settled h]

/-- With `k` of a run of stores passed, the agent reads the bytes of those `k` and, elsewhere, what stood there before. -/
theorem State.audioByte_storeBytes {s : State} (hs : s.unseen = []) (a : Word) (bs : List Byte) (h : bs.length ≤ 65536)
    (k : Nat) (j : Word) :
    ({ s.storeBytes a bs with unseen := (s.storeBytes a bs).unseen.drop k } : State).audioByte j =
      if (j - a).toNat < k then (s.storeBytes a bs).readByte j else s.readByte j := by
  unfold State.audioByte
  simp only
  rw [State.storeBytes_unseen s a bs h, hs, List.nil_append, lookup_storeNotes _ _ _ _ h]
  have hr : ({ s.storeBytes a bs with unseen := (storeNotes s.readByte a bs.length).drop k } : State).readByte j =
      (s.storeBytes a bs).readByte j := rfl
  rw [hr]
  by_cases hk : (j - a).toNat < k
  · rw [if_neg (by omega), if_pos hk]
    rfl
  · rw [if_neg hk]
    by_cases hn : (j - a).toNat < bs.length
    · rw [if_pos (by omega)]
      rfl
    · rw [if_neg (by omega), State.readByte_storeBytes _ _ _ _ h, List.getElem?_eq_none (by omega)]
      rfl

/-! ## The agent's moves -/

/-- A move of the agent changes nothing but the playback state, the call in progress, the samples it gives and the byte
writes it has not passed. -/
theorem State.audioMove_eq (s : State) : s.audioMove =
    { s with
      au := s.audioMove.au
      samples := s.audioMove.samples
      gen := s.audioMove.gen
      unseen := s.audioMove.unseen } := by
  unfold State.audioMove State.continueCall
  repeat' split
  all_goals rfl

@[simp] theorem State.audioMove_base (s : State) : s.audioMove.au.base = s.au.base := by
  unfold State.audioMove State.continueCall
  repeat' split
  all_goals rfl

@[simp] theorem State.audioMove_on (s : State) : s.audioMove.au.on = s.au.on := by
  unfold State.audioMove State.continueCall
  repeat' split
  all_goals rfl

/-- What a move does to the call in progress: it begins one, goes on with it, or returns from it with no sample left. -/
theorem State.audioMove_gen (s : State) :
    (s.gen = none ∧ ∃ c, s.inp.audio = some c ∧
      s.audioMove.gen = some { call := c, left := c.count, advancing := false, out := [] }) ∨
    (s.gen = none ∧ s.inp.audio = none ∧ s.audioMove = s) ∨
    (∃ g, s.gen = some g ∧ s.audioMove.gen = some g) ∨
    (∃ g left x, s.gen = some g ∧ g.left = left + 1 ∧
      s.audioMove.gen = some { g with left := left, advancing := true, out := g.out ++ [x] }) ∨
    (∃ g, s.gen = some g ∧ g.left = 0 ∧ s.audioMove.gen = none ∧ s.audioMove.samples = g.out) := by
  cases hg : s.gen with
  | none =>
    cases ha : s.inp.audio with
    | none => exact .inr (.inl ⟨rfl, rfl, by simp [State.audioMove, hg, ha]⟩)
    | some c => exact .inl ⟨rfl, c, rfl, by simp [State.audioMove, hg, ha]⟩
  | some g =>
    refine .inr (.inr ?_)
    simp only [State.audioMove, hg, State.continueCall]
    split
    · exact .inl ⟨g, rfl, by simp [hg]⟩
    · split
      · next hl => exact .inr (.inr ⟨g, rfl, hl, rfl, rfl⟩)
      · next left hl => exact .inr (.inl ⟨g, left, _, rfl, hl, rfl⟩)

end Sys2Proof.Machine
end

