-- ==== Sys2Proof/Safety.lean ====
section
/-! DEFINITION. The terms claims are stated in: the machine's invariant, how a run ends, what an instruction may write, and
what a program can observe. -/

namespace Sys2Proof.Machine

/-- The framebuffer's form: a canonical list of cells inside the active area, bits 6:2 of every cell zero (10_state.md
R31). -/
abbrev Framebuffer.wf (fb : Framebuffer) : Prop :=
  sparseWf cleanCell 8192 fb.cells ∧ ∀ c ∈ fb.cells, fb.active c.1 = true ∧ c.2 &&& 0x7C#8 = 0#8

/-- What every step keeps and reset has. -/
structure State.Inv (s : State) : Prop where
  /-- Memory is in canonical form. -/
  memory : Memory.wf s.params s.mem
  /-- The framebuffer is in its form; bits 6:2 of every cell are 0 (10_state.md R31). -/
  framebuffer : s.fb.wf
  /-- A fault record stands only in a Halted machine (60_exceptions.md R337). -/
  faultHalted : s.fault.isSome = true → s.run = .halted
  /-- A key is held as seen only in the edge-triggered key wait (10_state.md R33). -/
  keySeen : s.kw.seen.isSome = true → s.run = .waitingForKey ∧ s.params.keyWaitEdge = true
  /-- The audio source is installed exactly while the sound timer is not 0 (47_timers.md R262, R267). -/
  audioInstalled : s.au.on = true ↔ s.st ≠ 0#8
  /-- Every sample of a call of Generate in progress is emitted or still to come (49_audio.md R314). -/
  generating : ∀ g, s.gen = some g → g.out.length + g.left = g.call.count

/-- A clean end of a run: Halted with no fault, after EXIT (40_cycle.md R118 (a)). -/
def State.cleanEnd (s : State) : Prop := s.run = .halted ∧ s.fault = none

/-- A fatal end of a run: Halted with a fault record (40_cycle.md R118 (b)). -/
def State.fatalEnd (s : State) : Prop := s.run = .halted ∧ s.fault ≠ none

/-- The registers an instruction may write, VF's flag result included (10_state.md R21, R23). FX0A writes VX only when the
wait ends (46_input.md R243), so it writes none itself. -/
def instrRegisterWrites : Instr → List Reg
  | .cls | .ret | .scd _ | .scu _ | .scr | .scl | .exit | .low | .high => []
  | .jp _ | .call _ | .seImm _ _ | .sneImm _ _ | .seReg _ _ | .saveRange _ _ => []
  | .loadRange x y => regRange x y
  | .ldImm x _ | .addImm x _ | .ldReg x _ | .orReg x _ | .andReg x _ | .xorReg x _ => [x]
  | .addReg x _ | .subReg x _ | .shr x _ | .subn x _ | .shl x _ => [x, Reg.flag]
  | .sneReg _ _ | .ldI _ | .jpV0 _ => []
  | .rnd x _ => [x]
  | .drw _ _ _ => [Reg.flag]
  | .skp _ | .sknp _ | .ldILong _ | .plane _ | .audio => []
  | .ldVxDt x => [x]
  | .ldVxK _ | .ldDt _ | .ldSt _ | .addI _ | .ldF _ | .ldHf _ | .bcd _ | .save _ => []
  | .load x => regRange 0#4 x
  | .saveFlags _ => []
  | .loadFlags x => regRange 0#4 x

/-- How far `Skip()` moves the pc at this state: over the long form 4, else 2 (41_control.md R138). -/
def State.skipWidth (s : State) : Word :=
  if s.readByte s.pc = 0xF0#8 ∧ s.readByte (s.pc + 1#16) = 0x00#8 then 4#16 else 2#16

/-- The audio agent does not move in this step. Where no call of Generate is in progress: no source is installed, or the
callback does not call; where one is: the host gives it no turn and the interpreter does not need the generator (49_audio.md
R316, R317; log 28). -/
def State.audioQuiet (s : State) : Prop := s.audioTurn = false

/-- The call of Generate in progress, moved on `n` times with nothing in between. -/
def State.playOn (s : State) : Nat → State
  | 0 => s
  | n + 1 =>
    match s.gen with
    | some g => (s.continueCall g).playOn n
    | none => s

/-- The plane's bytes of a sprite start at this offset from I: 0 for the first plane drawn, `size` for the second
(45_sprite.md R213). -/
def spriteOffset (selector : BitVec 2) (n : BitVec 4) : Plane → Nat
  | .one => 0
  | .two => if Plane.one.selected selector then spriteSize n else 0

/-- Pixel (y, x) of plane p is one that `DRW vx, vy, n` sets a source bit on at this state: the plane is selected, and some
bit `k` of some byte `t` of the plane's slice is 1 and lies there, wrapped (or, under `cfg.sprite_clip`, inside the screen)
(45_sprite.md R210 to R217). -/
def State.spritePixel (s : State) (vx vy : Reg) (n : BitVec 4) (p : Plane) (y x : Nat) : Prop :=
  p.selected s.plane = true ∧ ∃ t < spriteSize n, ∃ k < 8,
    (s.readByte (s.i + BitVec.ofNat 16 (spriteOffset s.plane n p + t))).getMsbD k = true ∧
    let row := (s.getV vy).toNat % s.fb.res.height + t / spriteRowBytes n
    let col := (s.getV vx).toNat % s.fb.res.width + 8 * (t % spriteRowBytes n) + k
    y = row % s.fb.res.height ∧ x = col % s.fb.res.width ∧
    (s.inp.quirks.spriteClip = true → row < s.fb.res.height ∧ col < s.fb.res.width)

/-- The state with the audio generator's base, cursor, phase and bit put aside: a program can observe none of them
(10_state.md R39). -/
def State.withoutPlayback (s : State) : State :=
  { s with au := { base := 0#16, cursor := 0#7, phase := 0, bit := false, on := s.au.on } }

/-- An outcome's next state seen through `f`. -/
def viewNext {α : Type} (f : State → α) : Host.Outcome State Fault Refusal → Option α
  | .next t => some (f t)
  | .fault _ => none
  | .refused _ => none

end Sys2Proof.Machine
end

