-- ==== Sys2Proof/Laws/Framebuffer.lean ====
section
/-! SUPPORT. What the framebuffer's operations do to each cell, and that they keep its form. -/

namespace Sys2Proof.Machine

/-! ## Cells by number -/

theorem Resolution.width_pos (r : Resolution) : 8 ≤ r.width := by cases r <;> decide
theorem Resolution.height_pos (r : Resolution) : 0 < r.height := by cases r <;> decide
theorem Resolution.width_le (r : Resolution) : r.width ≤ 128 := by cases r <;> decide
theorem Resolution.height_le (r : Resolution) : r.height ≤ 64 := by cases r <;> decide

theorem cellNumber_inj {y x y' x' : Nat} (hx : x < 128) (hx' : x' < 128) :
    cellNumber y' x' = cellNumber y x ↔ y' = y ∧ x' = x := by
  unfold cellNumber
  omega

@[simp] theorem cellNumber_div {y x : Nat} (hx : x < 128) : cellNumber y x / 128 = y := by
  unfold cellNumber
  omega

@[simp] theorem cellNumber_mod {y x : Nat} (hx : x < 128) : cellNumber y x % 128 = x := by
  unfold cellNumber
  omega

theorem cellNumber_div_mod (k : Nat) : cellNumber (k / 128) (k % 128) = k := by
  unfold cellNumber
  omega

theorem Framebuffer.active_iff (fb : Framebuffer) (k : Nat) :
    fb.active k = true ↔ k / 128 < fb.res.height ∧ k % 128 < fb.res.width := by
  simp [Framebuffer.active]

theorem Framebuffer.active_cellNumber (fb : Framebuffer) {y x : Nat} (hx : x < 128) :
    fb.active (cellNumber y x) = true ↔ y < fb.res.height ∧ x < fb.res.width := by
  rw [Framebuffer.active_iff, cellNumber_div hx, cellNumber_mod hx]

theorem Framebuffer.active_lt (fb : Framebuffer) {k : Nat} (h : fb.active k = true) : k < 8192 := by
  rw [Framebuffer.active_iff] at h
  have := fb.res.height_le
  omega

theorem Framebuffer.active_congr {fb fb' : Framebuffer} (h : fb.res = fb'.res) (k : Nat) :
    fb.active k = fb'.active k := by
  simp [Framebuffer.active, h]

/-! ## One cell -/

@[simp] theorem Framebuffer.setCell_res (fb : Framebuffer) (y x : Nat) (c : Byte) : (fb.setCell y x c).res = fb.res := rfl

/-- A cell read after a cell write. -/
theorem Framebuffer.cell_setCell (fb : Framebuffer) {y x y' x' : Nat} (c : Byte) (hx : x < 128) (hx' : x' < 128) :
    (fb.setCell y x c).cell y' x' = if y' = y ∧ x' = x then c else fb.cell y' x' := by
  simp only [Framebuffer.cell, Framebuffer.setCell, sparseGet_set, cellNumber_inj hx hx']

theorem Framebuffer.setCell_wf {fb : Framebuffer} (h : fb.wf) {y x : Nat} {c : Byte} (hy : y < fb.res.height)
    (hx : x < fb.res.width) (hc : c &&& 0x7C#8 = 0#8) : (fb.setCell y x c).wf := by
  have hx' : x < 128 := lt_of_lt_of_le hx fb.res.width_le
  have ha : fb.active (cellNumber y x) = true := (fb.active_cellNumber hx').2 ⟨hy, hx⟩
  refine ⟨sparseSet_wf h.1 (fb.active_lt ha), fun e he => ?_⟩
  rw [Framebuffer.active_congr (fb' := fb) (by simp)]
  rcases sparseSet_mem he with ⟨rfl, _⟩ | he
  · exact ⟨ha, hc⟩
  · exact h.2 e he

/-- In a framebuffer in its form, bits 6:2 of every cell are 0. -/
theorem Framebuffer.cell_bits {fb : Framebuffer} (h : fb.wf) (y x : Nat) : fb.cell y x &&& 0x7C#8 = 0#8 := by
  by_cases hc : fb.cell y x = cleanCell (cellNumber y x)
  · rw [hc]
    show (0x80#8 : Byte) &&& 0x7C#8 = 0#8
    decide
  · exact (h.2 _ (mem_of_sparseGet hc)).2

/-! ## The operations over all cells -/

theorem rebuildCells_mem {move : Host.Cell → Option Host.Cell} {m : List Host.Cell} {e : Host.Cell}
    (h : e ∈ rebuildCells move m) : ∃ c ∈ m, move c = some e := by
  induction m with
  | nil => simp [rebuildCells] at h
  | cons c m ih =>
    unfold rebuildCells at h
    split at h
    · next c' hc =>
      rcases sparseSet_mem h with ⟨rfl, _⟩ | h
      · exact ⟨c, by simp, hc⟩
      · obtain ⟨d, hd, he⟩ := ih h
        exact ⟨d, List.mem_cons_of_mem _ hd, he⟩
    · obtain ⟨d, hd, he⟩ := ih h
      exact ⟨d, List.mem_cons_of_mem _ hd, he⟩

theorem rebuildCells_wf {move : Host.Cell → Option Host.Cell} {m : List Host.Cell} {bound : Nat}
    (h : ∀ c ∈ m, ∀ e, move c = some e → e.1 < bound) : sparseWf cleanCell bound (rebuildCells move m) := by
  induction m with
  | nil => exact sparseWf_nil _
  | cons c m ih =>
    have ih' := ih (fun d hd => h d (List.mem_cons_of_mem _ hd))
    unfold rebuildCells
    split
    · next c' hc => exact sparseSet_wf ih' (h c (by simp) c' hc)
    · exact ih'

/-- A cell that the cell number `j`, and no other, moves onto. -/
theorem rebuildCells_get {move : Host.Cell → Option Host.Cell} (m : List Host.Cell) {j k : Nat} {g : Byte → Byte}
    (hj : ∀ c : Host.Cell, c.1 = j → move c = some (k, g c.2))
    (hne : ∀ c e : Host.Cell, c.1 ≠ j → move c = some e → e.1 ≠ k)
    (hg : g 0x80#8 = 0x80#8) :
    sparseGet cleanCell (rebuildCells move m) k = g (sparseGet cleanCell m j) := by
  induction m with
  | nil => exact hg.symm
  | cons c m ih =>
    unfold rebuildCells
    rw [sparseGet_cons]
    by_cases hc : c.1 = j
    · rw [hj c hc, if_pos hc]
      simp [sparseGet_set]
    · rw [if_neg hc, ← ih]
      split
      · next e he => rw [sparseGet_set, if_neg (Ne.symm (hne c e hc he))]
      · rfl

/-- A cell that nothing moves onto. -/
theorem rebuildCells_get_none {move : Host.Cell → Option Host.Cell} (m : List Host.Cell) {k : Nat}
    (hne : ∀ c e : Host.Cell, move c = some e → e.1 ≠ k) :
    sparseGet cleanCell (rebuildCells move m) k = 0x80#8 := by
  induction m with
  | nil => rfl
  | cons c m ih =>
    unfold rebuildCells
    split
    · next e he => rw [sparseGet_set, if_neg (Ne.symm (hne c e he)), ih]
    · exact ih

@[simp] theorem Framebuffer.mapCells_res (f : Byte → Byte) (fb : Framebuffer) : (fb.mapCells f).res = fb.res := rfl

/-- `for every cell`: each active cell gets `f` of what it held; the rest of the storage stays. -/
theorem Framebuffer.cell_mapCells {f : Byte → Byte} (hf : f 0x80#8 = 0x80#8) (fb : Framebuffer) {y x : Nat} (hx : x < 128) :
    (fb.mapCells f).cell y x =
      if y < fb.res.height ∧ x < fb.res.width then f (fb.cell y x) else fb.cell y x := by
  unfold Framebuffer.cell Framebuffer.mapCells
  rw [rebuildCells_get (j := cellNumber y x) (g := fun b => if fb.active (cellNumber y x) then f b else b)]
  · simp only [fb.active_cellNumber hx]
  · intro c hc
    simp [hc]
  · intro c e hc he
    simp only [Option.some.injEq] at he
    subst he
    exact hc
  · split
    · exact hf
    · rfl

theorem Framebuffer.mapCells_wf {f : Byte → Byte} {fb : Framebuffer} (h : fb.wf)
    (hf : ∀ b, b &&& 0x7C#8 = 0#8 → f b &&& 0x7C#8 = 0#8) : (fb.mapCells f).wf := by
  refine ⟨rebuildCells_wf (fun c hc e he => ?_), fun e he => ?_⟩
  · simp only [Option.some.injEq] at he
    subst he
    exact (h.1.2 c hc).1
  · obtain ⟨c, hc, he⟩ := rebuildCells_mem he
    simp only [Option.some.injEq] at he
    subst he
    obtain ⟨ha, hb⟩ := h.2 c hc
    rw [Framebuffer.active_congr (fb' := fb) (by simp)]
    refine ⟨ha, ?_⟩
    rw [if_pos ha]
    exact hf _ hb

@[simp] theorem Framebuffer.clearPlanes_res (m : BitVec 2) (fb : Framebuffer) : (fb.clearPlanes m).res = fb.res := rfl
@[simp] theorem Framebuffer.invalidate_res (fb : Framebuffer) : fb.invalidate.res = fb.res := rfl
@[simp] theorem Framebuffer.setResolution_res (r : Resolution) (fb : Framebuffer) : (fb.setResolution r).res = r := rfl

/-- `ClearPlanes(mask)` on each active cell (42_display.md R150). -/
theorem Framebuffer.cell_clearPlanes (m : BitVec 2) (fb : Framebuffer) {y x : Nat} (hy : y < fb.res.height)
    (hx : x < fb.res.width) :
    (fb.clearPlanes m).cell y x = (fb.cell y x &&& 0x03#8 &&& ~~~(m.setWidth 8)) ||| 0x80#8 := by
  unfold Framebuffer.clearPlanes
  rw [Framebuffer.cell_mapCells _ _ (lt_of_lt_of_le hx fb.res.width_le), if_pos ⟨hy, hx⟩]
  revert m
  decide

/-- `Invalidate()` on each active cell (42_display.md R160). -/
theorem Framebuffer.cell_invalidate (fb : Framebuffer) {y x : Nat} (hy : y < fb.res.height) (hx : x < fb.res.width) :
    fb.invalidate.cell y x = fb.cell y x ||| 0x80#8 := by
  unfold Framebuffer.invalidate
  rw [Framebuffer.cell_mapCells (by decide) _ (lt_of_lt_of_le hx fb.res.width_le), if_pos ⟨hy, hx⟩]

/-- After `SetResolution` every cell is 0x80 (42_display.md R152). -/
@[simp] theorem Framebuffer.cell_setResolution (r : Resolution) (fb : Framebuffer) (y x : Nat) :
    (fb.setResolution r).cell y x = 0x80#8 := rfl

theorem Framebuffer.clearPlanes_wf {fb : Framebuffer} (h : fb.wf) (m : BitVec 2) : (fb.clearPlanes m).wf :=
  Framebuffer.mapCells_wf h (fun b _ => by revert b m; decide)

theorem Framebuffer.invalidate_wf {fb : Framebuffer} (h : fb.wf) : fb.invalidate.wf :=
  Framebuffer.mapCells_wf h (by decide)

theorem Framebuffer.setResolution_wf (r : Resolution) (fb : Framebuffer) : (fb.setResolution r).wf :=
  ⟨sparseWf_nil _, by simp [Framebuffer.setResolution]⟩

/-! ## Scroll -/

@[simp] theorem Framebuffer.scroll_res (dx dy : Int) (fb : Framebuffer) : (fb.scroll dx dy).res = fb.res := by
  unfold Framebuffer.scroll
  split <;> rfl

theorem Framebuffer.scrollTarget_eq_some {fb : Framebuffer} {dx dy : Int} {k t : Nat}
    (h : fb.scrollTarget dx dy k = some t) :
    fb.active t = true ∧ ((t / 128 : Nat) : Int) = (k / 128 : Nat) + dy ∧ ((t % 128 : Nat) : Int) = (k % 128 : Nat) + dx := by
  unfold Framebuffer.scrollTarget at h
  simp only [Option.ite_none_right_eq_some, Option.some.injEq] at h
  obtain ⟨⟨h1, h2, h3, h4⟩, rfl⟩ := h
  have hw := fb.res.width_le
  have hx : ((k % 128 : Nat) + dx).toNat < 128 := by omega
  rw [fb.active_cellNumber hx, cellNumber_div hx, cellNumber_mod hx]
  omega

/-- A zero-zero scroll does nothing (42_display.md R155). -/
@[simp] theorem Framebuffer.scroll_zero (fb : Framebuffer) : fb.scroll 0 0 = fb := by
  simp [Framebuffer.scroll]

/-- `Scroll(dx, dy)` on each active cell (42_display.md R155). -/
theorem Framebuffer.cell_scroll (fb : Framebuffer) {dx dy : Int} (hd : ¬(dx = 0 ∧ dy = 0)) {y x : Nat}
    (hy : y < fb.res.height) (hx : x < fb.res.width) :
    (fb.scroll dx dy).cell y x =
      (if 0 ≤ (y : Int) - dy ∧ (y : Int) - dy < fb.res.height ∧ 0 ≤ (x : Int) - dx ∧ (x : Int) - dx < fb.res.width
        then fb.cell ((y : Int) - dy).toNat ((x : Int) - dx).toNat &&& 0x03#8 else 0#8) ||| 0x80#8 := by
  have hw := fb.res.width_le
  have hx8 : x < 128 := by omega
  have hact : fb.active (cellNumber y x) = true := (fb.active_cellNumber hx8).2 ⟨hy, hx⟩
  unfold Framebuffer.cell Framebuffer.scroll
  rw [if_neg hd]
  simp only
  by_cases hin : 0 ≤ (y : Int) - dy ∧ (y : Int) - dy < fb.res.height ∧ 0 ≤ (x : Int) - dx ∧ (x : Int) - dx < fb.res.width
  · rw [if_pos hin]
    obtain ⟨sy, hsy⟩ : ∃ n : Nat, (n : Int) = (y : Int) - dy := ⟨((y : Int) - dy).toNat, by omega⟩
    obtain ⟨sx, hsx⟩ : ∃ n : Nat, (n : Int) = (x : Int) - dx := ⟨((x : Int) - dx).toNat, by omega⟩
    rw [← hsy, ← hsx]
    simp only [Int.toNat_natCast]
    have hsx8 : sx < 128 := by omega
    have hsact : fb.active (cellNumber sy sx) = true := (fb.active_cellNumber hsx8).2 (by omega)
    rw [rebuildCells_get (j := cellNumber sy sx) (k := cellNumber y x) (g := fun b => (b &&& 0x03#8) ||| 0x80#8)]
    · intro c hc
      have ht : fb.scrollTarget dx dy (cellNumber sy sx) = some (cellNumber y x) := by
        unfold Framebuffer.scrollTarget
        rw [cellNumber_div hsx8, cellNumber_mod hsx8]
        simp only
        rw [if_pos (by omega)]
        congr 2 <;> omega
      simp [Framebuffer.scrollCell, hc, hsact, ht]
    · intro c e hc he
      unfold Framebuffer.scrollCell at he
      split at he
      · simp only [Option.map_eq_some_iff] at he
        obtain ⟨t, ht, rfl⟩ := he
        obtain ⟨_, h1, h2⟩ := Framebuffer.scrollTarget_eq_some ht
        intro heq
        simp only at heq
        apply hc
        rw [heq, cellNumber_div hx8] at h1
        rw [heq, cellNumber_mod hx8] at h2
        rw [← cellNumber_div_mod c.1]
        congr 1 <;> omega
      · next hna =>
        simp only [Option.some.injEq] at he
        subst he
        intro heq
        exact hna (heq ▸ hact)
    · decide
  · rw [if_neg hin, rebuildCells_get_none]
    · decide
    · intro c e he
      unfold Framebuffer.scrollCell at he
      split at he
      · next hca =>
        simp only [Option.map_eq_some_iff] at he
        obtain ⟨t, ht, rfl⟩ := he
        obtain ⟨_, h1, h2⟩ := Framebuffer.scrollTarget_eq_some ht
        intro heq
        simp only at heq
        rw [Framebuffer.active_iff] at hca
        rw [heq, cellNumber_div hx8] at h1
        rw [heq, cellNumber_mod hx8] at h2
        apply hin
        omega
      · next hna =>
        simp only [Option.some.injEq] at he
        subst he
        intro heq
        exact hna (heq ▸ hact)

theorem Framebuffer.scroll_wf {fb : Framebuffer} (h : fb.wf) (dx dy : Int) : (fb.scroll dx dy).wf := by
  by_cases hd : dx = 0 ∧ dy = 0
  · simpa [hd.1, hd.2] using h
  have key : ∀ c ∈ fb.cells, ∀ e, fb.scrollCell dx dy c = some e → fb.active e.1 = true ∧ e.2 &&& 0x7C#8 = 0#8 := by
    intro c hc e he
    unfold Framebuffer.scrollCell at he
    split at he
    · simp only [Option.map_eq_some_iff] at he
      obtain ⟨t, ht, rfl⟩ := he
      refine ⟨(Framebuffer.scrollTarget_eq_some ht).1, ?_⟩
      show (c.2 &&& 0x03#8 ||| 0x80#8) &&& 0x7C#8 = 0#8
      generalize c.2 = b
      revert b
      decide
    · simp only [Option.some.injEq] at he
      subst he
      exact h.2 c hc
  unfold Framebuffer.scroll
  rw [if_neg hd]
  refine ⟨rebuildCells_wf (fun c hc e he => fb.active_lt (key c hc e he).1), fun e he => ?_⟩
  obtain ⟨c, hc, he⟩ := rebuildCells_mem he
  exact key c hc e he

/-! ## The backend's clearing of dirty markers -/

@[simp] theorem Framebuffer.clearDirty_res (fb : Framebuffer) (l : List (Nat × Nat)) : (fb.clearDirty l).res = fb.res := by
  induction l generalizing fb with
  | nil => rfl
  | cons p l ih =>
    unfold Framebuffer.clearDirty
    rw [ih]
    split <;> rfl

theorem Framebuffer.clearDirty_wf {fb : Framebuffer} (h : fb.wf) (l : List (Nat × Nat)) : (fb.clearDirty l).wf := by
  induction l generalizing fb with
  | nil => exact h
  | cons p l ih =>
    unfold Framebuffer.clearDirty
    apply ih
    split
    · next hp =>
      refine Framebuffer.setCell_wf h hp.1 hp.2 ?_
      have := Framebuffer.cell_bits h p.1 p.2
      generalize fb.cell p.1 p.2 = b at this ⊢
      revert b
      decide
    · exact h

/-- What the backend's clearing leaves of each active cell: the dirty marker is cleared at the cells it names and nowhere
else, and bits 6:0 stay (40_cycle.md R123). -/
theorem Framebuffer.cell_clearDirty (fb : Framebuffer) (l : List (Nat × Nat)) {y x : Nat} (hy : y < fb.res.height)
    (hx : x < fb.res.width) :
    (fb.clearDirty l).cell y x = if (y, x) ∈ l then fb.cell y x &&& 0x7F#8 else fb.cell y x := by
  have hx8 : x < 128 := lt_of_lt_of_le hx fb.res.width_le
  have hbb : ∀ b : Byte, b &&& 0x7F#8 &&& 0x7F#8 = b &&& 0x7F#8 := by decide
  induction l generalizing fb with
  | nil => simp [Framebuffer.clearDirty]
  | cons p l ih =>
    unfold Framebuffer.clearDirty
    by_cases hp : (y, x) = p
    · subst hp
      rw [if_pos ⟨hy, hx⟩]
      simp only
      rw [ih (fb.setCell y x (fb.cell y x &&& 0x7F#8)) hy hx, Framebuffer.cell_setCell _ _ hx8 hx8]
      simp [hbb]
    · have hm : (y, x) ∈ p :: l ↔ (y, x) ∈ l := by simp [hp]
      simp only [hm]
      split
      · next ha =>
        rw [ih (fb.setCell p.1 p.2 (fb.cell p.1 p.2 &&& 0x7F#8)) hy hx,
          Framebuffer.cell_setCell _ _ (lt_of_lt_of_le ha.2 fb.res.width_le) hx8,
          if_neg (show ¬(y = p.1 ∧ x = p.2) from fun h => hp (Prod.ext h.1 h.2))]
      · exact ih _ hy hx

end Sys2Proof.Machine
end

