-- ==== Sys2Proof/Laws/Sprite.lean ====
section
/-! SUPPORT. What `Write`, `DrawRow` and the drawing of slices do to each cell and answer (45_sprite.md R210 to R217). -/

namespace Sys2Proof.Machine

/-- Pixel `k` of a byte drawn at column `x` falls on column `c`. -/
def pixelHits (width x : Nat) (b : Byte) (c k : Nat) : Bool := b.getMsbD k && decide ((x + k) % width = c)

/-- Eight columns from `x`, mod the width, are eight columns. -/
theorem column_inj (r : Resolution) {x k k' : Nat} (hk : k < 8) (hk' : k' < 8)
    (h : (x + k) % r.width = (x + k') % r.width) : k = k' := by
  cases r <;> simp only [Resolution.width] at h <;> omega

@[simp] theorem writePixel_res (p : Plane) (y x : Nat) (b : Byte) (acc : Framebuffer × Bool) (k : Nat) :
    (writePixel p y x b acc k).1.res = acc.1.res := by
  unfold writePixel
  split <;> rfl

@[simp] theorem foldl_writePixel_res (p : Plane) (y x : Nat) (b : Byte) (ks : List Nat) (acc : Framebuffer × Bool) :
    (ks.foldl (writePixel p y x b) acc).1.res = acc.1.res := by
  induction ks generalizing acc with
  | nil => rfl
  | cons k ks ih => rw [List.foldl_cons, ih, writePixel_res]

/-- The cells after some of the pixels of a byte, in different columns. -/
theorem cell_foldl_writePixel (p : Plane) (y x : Nat) (b : Byte) (ks : List Nat) (acc : Framebuffer × Bool)
    (hks : ks.Nodup) (h8 : ∀ k ∈ ks, k < 8) {y' x' : Nat} (hx' : x' < 128) :
    (ks.foldl (writePixel p y x b) acc).1.cell y' x' =
      if y' = y % acc.1.res.height ∧ ks.any (pixelHits acc.1.res.width x b x') = true
        then (acc.1.cell y' x' ^^^ p.mask) ||| 0x80#8 else acc.1.cell y' x' := by
  induction ks generalizing acc with
  | nil => simp
  | cons k ks ih =>
    obtain ⟨hk, hks⟩ := List.nodup_cons.1 hks
    rw [List.foldl_cons, ih _ hks (fun j hj => h8 j (List.mem_cons_of_mem _ hj))]
    simp only [writePixel_res, List.any_cons, Bool.or_eq_true]
    by_cases hb : b.getMsbD k = true
    · have hcol : (x + k) % acc.1.res.width < 128 :=
        lt_of_lt_of_le (Nat.mod_lt _ (lt_of_lt_of_le (by omega) acc.1.res.width_pos)) acc.1.res.width_le
      have hcell : (writePixel p y x b acc k).1.cell y' x' =
          if y' = y % acc.1.res.height ∧ x' = (x + k) % acc.1.res.width
            then (acc.1.cell y' x' ^^^ p.mask) ||| 0x80#8 else acc.1.cell y' x' := by
        unfold writePixel
        rw [if_pos hb]
        simp only [Framebuffer.xorPixel]
        rw [Framebuffer.cell_setCell _ _ hcol hx']
        split
        · next h => rw [h.1, h.2]
        · rfl
      rw [hcell]
      by_cases hy : y' = y % acc.1.res.height
      · by_cases hx : x' = (x + k) % acc.1.res.width
        · have hnone : ks.any (pixelHits acc.1.res.width x b x') = false := by
            rw [List.any_eq_false]
            intro j hj hp
            simp only [pixelHits, Bool.and_eq_true, decide_eq_true_eq] at hp
            have := column_inj acc.1.res (h8 k (by simp)) (h8 j (List.mem_cons_of_mem _ hj)) (hx.symm.trans hp.2.symm)
            exact hk (this ▸ hj)
          have hhit : pixelHits acc.1.res.width x b x' k = true := by simp [pixelHits, hb, hx]
          rw [hnone, hhit, if_neg (by simp), if_pos ⟨hy, hx⟩, if_pos ⟨hy, .inl rfl⟩]
        · have hhit : pixelHits acc.1.res.width x b x' k = false := by simp [pixelHits, Ne.symm hx]
          simp [hhit, hx]
      · simp [hy]
    · have hacc : writePixel p y x b acc k = acc := by
        unfold writePixel
        rw [if_neg hb]
      have hhit : pixelHits acc.1.res.width x b x' k = false := by simp [pixelHits, hb]
      simp [hacc, hhit]

/-- The collision after some of the pixels of a byte, in different columns: one of them fell on a set bit. -/
theorem hit_foldl_writePixel (p : Plane) (y x : Nat) (b : Byte) (ks : List Nat) (acc : Framebuffer × Bool)
    (hks : ks.Nodup) (h8 : ∀ k ∈ ks, k < 8) :
    (ks.foldl (writePixel p y x b) acc).2 =
      (acc.2 || ks.any (fun k => b.getMsbD k &&
        decide (acc.1.cell (y % acc.1.res.height) ((x + k) % acc.1.res.width) &&& p.mask ≠ 0#8))) := by
  induction ks generalizing acc with
  | nil => simp
  | cons k ks ih =>
    obtain ⟨hk, hks'⟩ := List.nodup_cons.1 hks
    rw [List.foldl_cons, ih _ hks' (fun j hj => h8 j (List.mem_cons_of_mem _ hj)), List.any_cons]
    simp only [writePixel_res]
    have hw : ∀ j, (x + j) % acc.1.res.width < 128 := fun j =>
      lt_of_lt_of_le (Nat.mod_lt _ (lt_of_lt_of_le (by omega) acc.1.res.width_pos)) acc.1.res.width_le
    have hsame : (ks.any (fun j => b.getMsbD j && decide ((writePixel p y x b acc k).1.cell (y % acc.1.res.height)
        ((x + j) % acc.1.res.width) &&& p.mask ≠ 0#8))) =
        ks.any (fun j => b.getMsbD j && decide (acc.1.cell (y % acc.1.res.height)
        ((x + j) % acc.1.res.width) &&& p.mask ≠ 0#8)) := by
      rw [Bool.eq_iff_iff, List.any_eq_true, List.any_eq_true]
      refine exists_congr (fun j => and_congr_right (fun hj => ?_))
      have hcell : (writePixel p y x b acc k).1.cell (y % acc.1.res.height) ((x + j) % acc.1.res.width) =
          acc.1.cell (y % acc.1.res.height) ((x + j) % acc.1.res.width) := by
        unfold writePixel
        split
        · simp only [Framebuffer.xorPixel]
          rw [Framebuffer.cell_setCell _ _ (hw k) (hw j), if_neg]
          intro h
          have := column_inj acc.1.res (h8 j (List.mem_cons_of_mem _ hj)) (h8 k (by simp)) h.2
          exact hk (this ▸ hj)
        · rfl
      rw [hcell]
    rw [hsame, ← Bool.or_assoc]
    congr 1
    unfold writePixel
    by_cases hb : b.getMsbD k = true
    · rw [if_pos hb]
      simp [Framebuffer.xorPixel, hb]
    · rw [if_neg hb]
      simp [hb]

/-- `Write` in one form: the zero byte is no exception, since none of its pixels is set. -/
theorem Framebuffer.write_eq (fb : Framebuffer) (p : Plane) (y x : Nat) (b : Byte) :
    fb.write p y x b = (List.range 8).foldl (writePixel p y x b) (fb, false) := by
  unfold Framebuffer.write
  split
  · next h =>
    have key : ∀ ks : List Nat, ks.foldl (writePixel p y x b) (fb, false) = (fb, false) := by
      intro ks
      induction ks with
      | nil => rfl
      | cons k ks ih =>
        rw [List.foldl_cons]
        have : writePixel p y x b (fb, false) k = (fb, false) := by simp [writePixel, h]
        rw [this, ih]
    exact (key _).symm
  · rfl

@[simp] theorem Framebuffer.write_res (fb : Framebuffer) (p : Plane) (y x : Nat) (b : Byte) :
    (fb.write p y x b).1.res = fb.res := by
  rw [Framebuffer.write_eq, foldl_writePixel_res]

/-- Each cell after `Write` (45_sprite.md R210): flipped and dirty where a set bit of the byte falls on it, else as it
was. -/
theorem Framebuffer.cell_write (fb : Framebuffer) (p : Plane) (y x : Nat) (b : Byte) {y' x' : Nat} (hx' : x' < 128) :
    (fb.write p y x b).1.cell y' x' =
      if y' = y % fb.res.height ∧ ∃ k < 8, b.getMsbD k = true ∧ (x + k) % fb.res.width = x'
        then (fb.cell y' x' ^^^ p.mask) ||| 0x80#8 else fb.cell y' x' := by
  rw [Framebuffer.write_eq, cell_foldl_writePixel _ _ _ _ _ _ List.nodup_range (by simp) hx']
  simp [pixelHits, List.any_eq_true, List.mem_range]

/-- What `Write` answers (45_sprite.md R210, R211): a set bit of the byte falls on a cell whose plane bit is set. -/
theorem Framebuffer.hit_write (fb : Framebuffer) (p : Plane) (y x : Nat) (b : Byte) :
    (fb.write p y x b).2 = true ↔
      ∃ k < 8, b.getMsbD k = true ∧
        fb.cell (y % fb.res.height) ((x + k) % fb.res.width) &&& p.mask ≠ 0#8 := by
  rw [Framebuffer.write_eq, hit_foldl_writePixel _ _ _ _ _ _ List.nodup_range (by simp)]
  simp [List.any_eq_true, List.mem_range]

/-! ## The form of the framebuffer -/

theorem Framebuffer.xorPixel_wf {fb : Framebuffer} (h : fb.wf) (p : Plane) {y x : Nat} (hy : y < fb.res.height)
    (hx : x < fb.res.width) : (fb.xorPixel p y x).1.wf := by
  refine Framebuffer.setCell_wf h hy hx ?_
  have hb := Framebuffer.cell_bits h y x
  generalize fb.cell y x = b at hb ⊢
  cases p <;> revert b <;> decide

theorem writePixel_wf {p : Plane} {y x : Nat} {b : Byte} {acc : Framebuffer × Bool} (h : acc.1.wf) (k : Nat) :
    (writePixel p y x b acc k).1.wf := by
  unfold writePixel
  split
  · exact Framebuffer.xorPixel_wf h p (Nat.mod_lt _ acc.1.res.height_pos)
      (Nat.mod_lt _ (lt_of_lt_of_le (by omega) acc.1.res.width_pos))
  · exact h

theorem Framebuffer.write_wf {fb : Framebuffer} (h : fb.wf) (p : Plane) (y x : Nat) (b : Byte) :
    (fb.write p y x b).1.wf := by
  rw [Framebuffer.write_eq]
  have key : ∀ (ks : List Nat) (acc : Framebuffer × Bool), acc.1.wf → (ks.foldl (writePixel p y x b) acc).1.wf := by
    intro ks
    induction ks with
    | nil => exact fun acc h => h
    | cons k ks ih => exact fun acc h => ih _ (writePixel_wf h k)
  exact key _ _ h

@[simp] theorem Framebuffer.drawRow_res (fb : Framebuffer) (p : Plane) (y x : Nat) (b : Byte) (c : Bool) :
    (fb.drawRow p y x b c).1.res = fb.res := by
  unfold Framebuffer.drawRow
  repeat' split
  all_goals simp

theorem Framebuffer.drawRow_wf {fb : Framebuffer} (h : fb.wf) (p : Plane) (y x : Nat) (b : Byte) (c : Bool) :
    (fb.drawRow p y x b c).1.wf := by
  unfold Framebuffer.drawRow
  repeat' split
  all_goals first | exact h | exact Framebuffer.write_wf h _ _ _ _

@[simp] theorem drawSlice_res (p : Plane) (y0 x0 bpr : Nat) (c : Bool) (t : Nat) (bs : List Byte)
    (acc : Framebuffer × Bool) : (drawSlice p y0 x0 bpr c t bs acc).1.res = acc.1.res := by
  induction bs generalizing t acc with
  | nil => rfl
  | cons b bs ih =>
    unfold drawSlice
    rw [ih]
    exact Framebuffer.drawRow_res _ _ _ _ _ _

theorem drawSlice_wf {p : Plane} {y0 x0 bpr : Nat} {c : Bool} (t : Nat) (bs : List Byte) {acc : Framebuffer × Bool}
    (h : acc.1.wf) : (drawSlice p y0 x0 bpr c t bs acc).1.wf := by
  induction bs generalizing t acc with
  | nil => exact h
  | cons b bs ih =>
    unfold drawSlice
    exact ih _ (Framebuffer.drawRow_wf h _ _ _ _ _)

@[simp] theorem State.drawPlanes_res (s : State) (n : BitVec 4) (y0 x0 : Nat) (ps : List Plane) (off : Nat)
    (acc : Framebuffer × Bool) : (s.drawPlanes n y0 x0 ps off acc).1.res = acc.1.res := by
  induction ps generalizing off acc with
  | nil => rfl
  | cons p ps ih =>
    unfold State.drawPlanes
    rw [ih, drawSlice_res]

theorem State.drawPlanes_wf {s : State} {n : BitVec 4} {y0 x0 : Nat} (ps : List Plane) (off : Nat)
    {acc : Framebuffer × Bool} (h : acc.1.wf) : (s.drawPlanes n y0 x0 ps off acc).1.wf := by
  induction ps generalizing off acc with
  | nil => exact h
  | cons p ps ih =>
    unfold State.drawPlanes
    exact ih _ (drawSlice_wf 0 _ h)

/-- A sprite does not change the resolution. -/
@[simp] theorem State.sprite_res (s : State) (x y : Reg) (n : BitVec 4) : (s.sprite x y n).1.res = s.fb.res :=
  State.drawPlanes_res _ _ _ _ _ _ _

/-- A sprite keeps the framebuffer in its form. -/
theorem State.sprite_wf {s : State} (h : s.fb.wf) (x y : Reg) (n : BitVec 4) : (s.sprite x y n).1.wf :=
  State.drawPlanes_wf _ _ h

/-- A clipped byte keeps the bits of the columns below the width and no other (45_sprite.md R214). -/
theorem clipByte_getMsbD (width x : Nat) (b : Byte) {k : Nat} (hk : k < 8) :
    (clipByte width x b).getMsbD k = (b.getMsbD k && decide (k < width - x)) := by
  unfold clipByte
  split
  · next h =>
    generalize width - x = v at h ⊢
    interval_cases v <;> interval_cases k <;> revert b <;> decide
  · next h =>
    have : k < width - x := by omega
    simp [this]

/-! ## Rows, slices -/

/-- Cell (y', x') is one that a set bit of the byte `b`, drawn at row y and column x, falls on: wrapped, or, clipped, inside
the screen (45_sprite.md R210, R214). -/
abbrev rowPixel (r : Resolution) (y x : Nat) (b : Byte) (clip : Bool) (y' x' : Nat) : Prop :=
  y' = y % r.height ∧ ∃ k < 8, b.getMsbD k = true ∧ x' = (x + k) % r.width ∧
    (clip = true → y < r.height ∧ x + k < r.width)

/-- `DrawRow` draws as `Write` does a byte that keeps the bits clipping leaves. -/
theorem Framebuffer.drawRow_cases (fb : Framebuffer) (p : Plane) (y x : Nat) (b : Byte) (clip : Bool) :
    (fb.drawRow p y x b clip = (fb, false) ∧ ∀ y' x', ¬rowPixel fb.res y x b clip y' x') ∨
    ∃ b' : Byte, fb.drawRow p y x b clip = fb.write p y x b' ∧ ∀ k < 8, (b'.getMsbD k = true ↔
      b.getMsbD k = true ∧ (clip = true → y < fb.res.height ∧ x + k < fb.res.width)) := by
  unfold Framebuffer.drawRow
  cases clip with
  | false => exact .inr ⟨b, rfl, fun k _ => by simp⟩
  | true =>
    by_cases h : fb.res.height ≤ y ∨ fb.res.width ≤ x
    · refine .inl ⟨by simp [h], ?_⟩
      rintro y' x' ⟨_, k, _, _, _, hc⟩
      have := hc rfl
      omega
    · refine .inr ⟨_, by rw [if_pos rfl, if_neg h], fun k hk => ?_⟩
      rw [clipByte_getMsbD _ _ _ hk, Bool.and_eq_true, decide_eq_true_iff]
      refine and_congr_right (fun _ => ⟨fun h' _ => ?_, fun h' => ?_⟩)
      · omega
      · have := h' rfl
        omega

/-- Each cell after `DrawRow` (45_sprite.md R214). -/
theorem Framebuffer.cell_drawRow (fb : Framebuffer) (p : Plane) (y x : Nat) (b : Byte) (clip : Bool) {y' x' : Nat}
    (hx' : x' < 128) :
    (fb.drawRow p y x b clip).1.cell y' x' =
      if rowPixel fb.res y x b clip y' x' then (fb.cell y' x' ^^^ p.mask) ||| 0x80#8 else fb.cell y' x' := by
  rcases fb.drawRow_cases p y x b clip with ⟨h, hn⟩ | ⟨b', h, hb⟩
  · rw [h, if_neg (hn y' x')]
  · rw [h, Framebuffer.cell_write _ _ _ _ _ hx']
    refine if_congr (and_congr_right (fun _ => exists_congr (fun k => and_congr_right (fun hk => ?_)))) rfl rfl
    rw [hb k hk, and_assoc, and_comm (a := _ → _), eq_comm (a := x')]

/-- What `DrawRow` answers (45_sprite.md R211, R214). -/
theorem Framebuffer.hit_drawRow (fb : Framebuffer) (p : Plane) (y x : Nat) (b : Byte) (clip : Bool) :
    (fb.drawRow p y x b clip).2 = true ↔
      ∃ y' x', rowPixel fb.res y x b clip y' x' ∧ fb.cell y' x' &&& p.mask ≠ 0#8 := by
  rcases fb.drawRow_cases p y x b clip with ⟨h, hn⟩ | ⟨b', h, hb⟩
  · rw [h]
    exact iff_of_false (by simp) (fun ⟨y', x', hr, _⟩ => hn y' x' hr)
  · rw [h, Framebuffer.hit_write]
    constructor
    · rintro ⟨k, hk, hbk, hc⟩
      have := (hb k hk).1 hbk
      exact ⟨_, _, ⟨rfl, k, hk, this.1, rfl, this.2⟩, hc⟩
    · rintro ⟨_, _, ⟨rfl, k, hk, hbk, rfl, hc⟩, hm⟩
      exact ⟨k, hk, (hb k hk).2 ⟨hbk, hc⟩, hm⟩

/-- Cell (y', x') is one that a set bit of the slice `bs`, whose first byte is byte `t` of the sprite, falls on. -/
abbrev slicePixel (r : Resolution) (y0 x0 bpr : Nat) (clip : Bool) (t : Nat) (bs : List Byte) (y' x' : Nat) : Prop :=
  ∃ j, ∃ h : j < bs.length, rowPixel r (y0 + (t + j) / bpr) (x0 + 8 * ((t + j) % bpr)) bs[j] clip y' x'

theorem slicePixel_cons (r : Resolution) (y0 x0 bpr : Nat) (clip : Bool) (t : Nat) (b : Byte) (bs : List Byte) (y' x' : Nat) :
    slicePixel r y0 x0 bpr clip t (b :: bs) y' x' ↔
      rowPixel r (y0 + t / bpr) (x0 + 8 * (t % bpr)) b clip y' x' ∨ slicePixel r y0 x0 bpr clip (t + 1) bs y' x' := by
  constructor
  · rintro ⟨j, hj, h⟩
    cases j with
    | zero => exact .inl h
    | succ j => exact .inr ⟨j, by simpa using hj, by simpa only [Nat.add_assoc, Nat.add_comm 1 j, List.getElem_cons_succ] using h⟩
  · rintro (h | ⟨j, hj, h⟩)
    · exact ⟨0, by simp, h⟩
    · exact ⟨j + 1, by simpa using hj, by simpa only [Nat.add_assoc, Nat.add_comm 1 j, List.getElem_cons_succ] using h⟩

/-- No two bytes of a sprite fall on one cell: a sprite is at most 16 rows and 16 columns. -/
theorem rowPixel_inj {r : Resolution} {y0 x0 bpr t t' y' x' : Nat} {b b' : Byte} {clip : Bool} (hb : bpr = 1 ∨ bpr = 2)
    (ht : t < 16 * bpr) (ht' : t' < 16 * bpr)
    (h : rowPixel r (y0 + t / bpr) (x0 + 8 * (t % bpr)) b clip y' x')
    (h' : rowPixel r (y0 + t' / bpr) (x0 + 8 * (t' % bpr)) b' clip y' x') : t = t' := by
  obtain ⟨hy, k, hk, _, hx, _⟩ := h
  obtain ⟨hy', k', hk', _, hx', _⟩ := h'
  rcases hb with rfl | rfl <;> cases r <;> simp only [Resolution.width, Resolution.height] at hy hy' hx hx' <;> omega

/-- Each cell after a slice (45_sprite.md R215, R217). -/
theorem cell_drawSlice (p : Plane) (y0 x0 : Nat) {bpr : Nat} (clip : Bool) (t : Nat) (bs : List Byte)
    (acc : Framebuffer × Bool) (hb : bpr = 1 ∨ bpr = 2) (ht : t + bs.length ≤ 16 * bpr) {y' x' : Nat} (hx' : x' < 128) :
    (slicePixel acc.1.res y0 x0 bpr clip t bs y' x' →
      (drawSlice p y0 x0 bpr clip t bs acc).1.cell y' x' = (acc.1.cell y' x' ^^^ p.mask) ||| 0x80#8) ∧
    (¬slicePixel acc.1.res y0 x0 bpr clip t bs y' x' →
      (drawSlice p y0 x0 bpr clip t bs acc).1.cell y' x' = acc.1.cell y' x') := by
  induction bs generalizing t acc with
  | nil => exact ⟨fun ⟨j, hj, _⟩ => absurd hj (by simp), fun _ => rfl⟩
  | cons b bs ih =>
    rw [slicePixel_cons]
    simp only [List.length_cons] at ht
    unfold drawSlice
    obtain ⟨ih1, ih2⟩ := ih (t + 1) ((acc.1.drawRow p (y0 + t / bpr) (x0 + 8 * (t % bpr)) b clip).1,
      acc.2 || (acc.1.drawRow p (y0 + t / bpr) (x0 + 8 * (t % bpr)) b clip).2) (by omega)
    simp only [Framebuffer.drawRow_res] at ih1 ih2
    have hrow := Framebuffer.cell_drawRow acc.1 p (y0 + t / bpr) (x0 + 8 * (t % bpr)) b clip (y' := y') hx'
    by_cases h1 : rowPixel acc.1.res (y0 + t / bpr) (x0 + 8 * (t % bpr)) b clip y' x'
    · refine ⟨fun _ => ?_, fun h => absurd (.inl h1) h⟩
      rw [ih2, hrow, if_pos h1]
      rintro ⟨j, hj, h⟩
      have := rowPixel_inj hb (by omega) (by omega) h1 h
      omega
    · refine ⟨fun h => ?_, fun h => ?_⟩
      · rw [ih1 (h.resolve_left h1), hrow, if_neg h1]
      · rw [ih2 (fun h' => h (.inr h')), hrow, if_neg h1]

/-- What a slice answers: what was answered before it, or a set bit of it falls on a cell whose plane bit is set
(45_sprite.md R211, R216). -/
theorem hit_drawSlice (p : Plane) (y0 x0 : Nat) {bpr : Nat} (clip : Bool) (t : Nat) (bs : List Byte)
    (acc : Framebuffer × Bool) (hb : bpr = 1 ∨ bpr = 2) (ht : t + bs.length ≤ 16 * bpr) :
    (drawSlice p y0 x0 bpr clip t bs acc).2 = true ↔ acc.2 = true ∨
      ∃ y' x', slicePixel acc.1.res y0 x0 bpr clip t bs y' x' ∧ acc.1.cell y' x' &&& p.mask ≠ 0#8 := by
  induction bs generalizing t acc with
  | nil => exact ⟨.inl, fun h => h.resolve_right (fun ⟨_, _, ⟨j, hj, _⟩, _⟩ => absurd hj (by simp))⟩
  | cons b bs ih =>
    simp only [slicePixel_cons]
    simp only [List.length_cons] at ht
    unfold drawSlice
    simp only
    rw [ih (t + 1) _ (by omega)]
    simp only [Framebuffer.drawRow_res, Bool.or_eq_true, Framebuffer.hit_drawRow, or_assoc]
    refine or_congr_right ⟨?_, ?_⟩
    · rintro (⟨y', x', h, hm⟩ | ⟨y', x', ⟨j, hj, h⟩, hm⟩)
      · exact ⟨y', x', .inl h, hm⟩
      · refine ⟨y', x', .inr ⟨j, hj, h⟩, ?_⟩
        have hx' : x' < 128 := by
          obtain ⟨_, k, _, _, rfl, _⟩ := h
          exact lt_of_lt_of_le (Nat.mod_lt _ (lt_of_lt_of_le (by omega) acc.1.res.width_pos)) acc.1.res.width_le
        rwa [Framebuffer.cell_drawRow _ _ _ _ _ _ hx', if_neg] at hm
        intro h1
        have := rowPixel_inj hb (by omega) (by omega) h1 h
        omega
    · rintro ⟨y', x', h | ⟨j, hj, h⟩, hm⟩
      · exact .inl ⟨y', x', h, hm⟩
      · refine .inr ⟨y', x', ⟨j, hj, h⟩, ?_⟩
        have hx' : x' < 128 := by
          obtain ⟨_, k, _, _, rfl, _⟩ := h
          exact lt_of_lt_of_le (Nat.mod_lt _ (lt_of_lt_of_le (by omega) acc.1.res.width_pos)) acc.1.res.width_le
        rwa [Framebuffer.cell_drawRow _ _ _ _ _ _ hx', if_neg]
        intro h1
        have := rowPixel_inj hb (by omega) (by omega) h1 h
        omega
end Sys2Proof.Machine
end

