-- ==== Sys2Proof/Laws/Step.lean ====
section
/-! SUPPORT. What one step can do, said once: whose turn it is, and what the fetch finds. -/

namespace Sys2Proof.Machine

/-! ## Whose turn it is -/

/-- Where the audio agent is quiet, the step is the interpreter's move. -/
theorem step_interpret {s : State} (ha : s.audioQuiet) : step s = mapNext State.nextTurn s.interpret := by
  unfold step
  rw [show s.audioTurn = false from ha]
  rfl

theorem step_audio {s : State} (ha : s.audioTurn = true) : step s = .next s.audioMove.nextTurn := by
  unfold step
  rw [ha]
  rfl

/-- Every step is the audio agent's move or the interpreter's. -/
theorem step_cases (s : State) :
    (s.audioTurn = true ∧ step s = .next s.audioMove.nextTurn) ∨
    (s.audioQuiet ∧ step s = mapNext State.nextTurn s.interpret) := by
  cases ha : s.audioTurn with
  | true => exact .inl ⟨rfl, step_audio ha⟩
  | false => exact .inr ⟨ha, step_interpret ha⟩

/-- Every move of the interpreter is the host's call, the end of a tick, or an instruction. -/
theorem State.interpret_cases (s : State) :
    (s.tick = .between ∧ s.interpret = .next s.settleStores.hostCall) ∨
    ((s.tick = .inTick 0 ∨ ∃ left, s.tick = .inTick (left + 1) ∧ s.run ≠ .running) ∧
      s.interpret = .next s.settleStores.finishTick) ∨
    (∃ left, s.tick = .inTick (left + 1) ∧ s.run = .running ∧
      s.interpret = mapNext (fun t => t.afterInstruction left) s.settleStores.runOne) := by
  unfold State.interpret State.tickPart
  rw [State.settleStores_tick, State.settleStores_run]
  split
  · next ht => exact .inl ⟨ht, rfl⟩
  · next ht => exact .inr (.inl ⟨.inl ht, rfl⟩)
  · next left ht =>
    split
    · next hr => exact .inr (.inr ⟨left, ht, hr, rfl⟩)
    · next hr => exact .inr (.inl ⟨.inr ⟨left, ht, hr⟩, rfl⟩)

theorem step_between {s : State} (ha : s.audioQuiet) (ht : s.tick = .between) :
    step s = .next s.settleStores.hostCall.nextTurn := by
  rw [step_interpret ha]
  simp [State.interpret, State.tickPart, ht, mapNext]

theorem step_instruction {s : State} {left : Nat} (ha : s.audioQuiet) (ht : s.tick = .inTick (left + 1))
    (hr : s.run = .running) :
    step s = mapNext (fun t => (t.afterInstruction left).nextTurn) s.settleStores.runOne := by
  rw [step_interpret ha]
  simp only [State.interpret, State.tickPart, State.settleStores_tick, ht, State.settleStores_run, hr, if_true]
  cases s.settleStores.runOne <;> rfl

theorem step_finish {s : State} {left : Nat} (ha : s.audioQuiet) (ht : s.tick = .inTick left)
    (h : left = 0 ∨ s.run ≠ .running) : step s = .next s.settleStores.finishTick.nextTurn := by
  rw [step_interpret ha]
  cases left with
  | zero => simp [State.interpret, State.tickPart, ht, mapNext]
  | succ n => simp [State.interpret, State.tickPart, ht, h.resolve_left (by omega), mapNext]

/-- With a call of Generate in progress, a quiet step is no Load. -/
theorem State.quiet_not_load {s : State} {g : Generating} (hg : s.gen = some g) (ha : s.audioQuiet) (ht : s.tick = .between) :
    s.inp.call = .tick := by
  cases hc : s.inp.call with
  | tick => rfl
  | load image => simp [State.audioQuiet, State.audioTurn, hg, State.needsGenerator, ht, hc] at ha

/-- With a call of Generate in progress, a quiet step runs no AUDIO, whatever it would write. -/
theorem State.quiet_not_audio {s : State} {g : Generating} {left : Nat} (hg : s.gen = some g) (ha : s.audioQuiet)
    (ht : s.tick = .inTick (left + 1)) (hr : s.run = .running) : s.fetch.instr ≠ some .audio := by
  intro h
  simp [State.audioQuiet, State.audioTurn, hg, State.needsGenerator, ht, hr, h] at ha

/-! ## The fetch -/

theorem State.fetch_protected {s : State} (h : s.pc < 0x200#16) : s.fetch = .protectedRegion := if_pos h

theorem State.fetch_decoded {s : State} {i : Instr} (h : ¬ s.pc < 0x200#16)
    (hd : decodeWord (s.read16 s.pc) (s.read16 (s.pc + 2#16)) = some i) :
    s.fetch = .decoded i (s.jump (s.pc + BitVec.ofNat 16 i.length)) := by
  unfold State.fetch
  rw [if_neg h]
  simp only [hd]

theorem State.fetch_invalid {s : State} (h : ¬ s.pc < 0x200#16)
    (hd : decodeWord (s.read16 s.pc) (s.read16 (s.pc + 2#16)) = none) :
    s.fetch = .invalid (s.read16 s.pc) (s.jump (s.pc + 2#16)) := by
  unfold State.fetch
  rw [if_neg h]
  simp only [hd]

/-- One instruction: a fault of the fetch, a fault of the decode, or the meaning of the instruction decoded. -/
theorem State.runOne_cases (s : State) :
    (s.pc < 0x200#16 ∧ s.runOne = .next (s.raise .protectedRegion none)) ∨
    (∃ w, s.runOne = .next ((s.jump (s.pc + 2#16)).raise .invalidInstruction (some w))) ∨
    (∃ i a, s.runOne = exec i (s.jump a)) := by
  unfold State.runOne
  by_cases h : s.pc < 0x200#16
  · rw [State.fetch_protected h]
    exact .inl ⟨h, rfl⟩
  · cases hd : decodeWord (s.read16 s.pc) (s.read16 (s.pc + 2#16)) with
    | none =>
      rw [State.fetch_invalid h hd]
      exact .inr (.inl ⟨_, rfl⟩)
    | some i =>
      rw [State.fetch_decoded h hd]
      exact .inr (.inr ⟨i, _, rfl⟩)

end Sys2Proof.Machine
end

