-- ==== Sys2Proof/Certificates/Slice0/Obligations.lean ====
section
/-! DEFINITION. The statements for the provers. Each says which rule of spec/ it formalises. `exec` takes the state after the
fetch: `pc` already holds the address after the instruction (40_cycle.md R100). An equation `exec i s = .next { s with … }`
gives the result, the frame and the completion at once: every field not named stays. -/

open Sys2Proof Sys2Proof.Machine

/-! ## Encoding -/

/-- 30_encoding.md R88: for every instruction that has an encoding, and whatever bytes follow it, decoding the bytes of its
encoding gives it back, with every operand at every value, and the bytes after it. -/
def Obligations.DecodeOfEncodeIsTheInstruction : Prop :=
  ∀ (i : Instr) (rest : List Byte), i.wellFormed = true →
    decode (bytesOfWords (encode i) ++ rest) = .ok (i, rest)

/-- R88, R90: what a word decodes to encodes to that word and to no other; the long form's operand is the next word; a
decoded instruction is well formed. -/
def Obligations.EncodeOfDecodeIsTheWord : Prop :=
  ∀ (w next : Word) (i : Instr), decodeWord w next = some i →
    i.word = w ∧ i.wellFormed = true ∧ (w = 0xF000#16 → i = .ldILong next)

/-- R89: the words the decoder refuses are exactly the ones listed as invalid. -/
def Obligations.InvalidWordsAreTheListedOnes : Prop :=
  ∀ w next : Word, decodeWord w next = none ↔
    (fieldG w = 0x0#4 ∧ ¬(fieldX w = 0x0#4 ∧ (fieldY w = 0xC#4 ∨ fieldY w = 0xD#4)) ∧
      w ∉ [0x00E0#16, 0x00EE#16, 0x00FB#16, 0x00FC#16, 0x00FD#16, 0x00FE#16, 0x00FF#16]) ∨
    (fieldG w = 0x5#4 ∧ fieldN w ∉ [0x0#4, 0x2#4, 0x3#4]) ∨
    (fieldG w = 0x8#4 ∧ fieldN w ∈ [0x8#4, 0x9#4, 0xA#4, 0xB#4, 0xC#4, 0xD#4, 0xF#4]) ∨
    (fieldG w = 0x9#4 ∧ fieldN w ≠ 0x0#4) ∨
    (fieldG w = 0xE#4 ∧ fieldNN w ∉ [0x9E#8, 0xA1#8]) ∨
    (fieldG w = 0xF#4 ∧ ((fieldNN w = 0x00#8 ∧ fieldX w ≠ 0x0#4) ∨ (fieldNN w = 0x01#8 ∧ 0x4#4 ≤ fieldX w) ∨
      (fieldNN w = 0x02#8 ∧ fieldX w ≠ 0x0#4) ∨
      fieldNN w ∉ [0x00#8, 0x01#8, 0x02#8, 0x07#8, 0x0A#8, 0x15#8, 0x18#8, 0x1E#8, 0x29#8, 0x30#8, 0x33#8, 0x55#8,
        0x65#8, 0x75#8, 0x85#8]))

/-- 95_test_vectors.md 2.1: words written out from the encoding tables of R84 to R88 and from the vectors of 95 2.1, of every
primary group but 3, 7 and A. -/
def Obligations.SampleWordsDecodeAsTheTableSays : Prop :=
  decodeWord 0x0000#16 0#16 = none ∧ decodeWord 0x00C5#16 0#16 = some (.scd 5#4) ∧
  decodeWord 0x00DF#16 0#16 = some (.scu 0xF#4) ∧ decodeWord 0x00EE#16 0#16 = some .ret ∧
  decodeWord 0x1204#16 0#16 = some (.jp 0x204#12) ∧ decodeWord 0x2206#16 0#16 = some (.call 0x206#12) ∧
  decodeWord 0x4105#16 0#16 = some (.sneImm 1#4 5#8) ∧ decodeWord 0x5123#16 0#16 = some (.loadRange 1#4 2#4) ∧
  decodeWord 0x6A7F#16 0#16 = some (.ldImm 0xA#4 0x7F#8) ∧ decodeWord 0x8014#16 0#16 = some (.addReg 0#4 1#4) ∧
  decodeWord 0x9120#16 0#16 = some (.sneReg 1#4 2#4) ∧ decodeWord 0xBFFF#16 0#16 = some (.jpV0 0xFFF#12) ∧
  decodeWord 0xC00F#16 0#16 = some (.rnd 0#4 0x0F#8) ∧ decodeWord 0xD012#16 0#16 = some (.drw 0#4 1#4 2#4) ∧
  decodeWord 0xE1A1#16 0#16 = some (.sknp 1#4) ∧ decodeWord 0xF000#16 0x1234#16 = some (.ldILong 0x1234#16) ∧
  decodeWord 0xF301#16 0#16 = some (.plane 3#4) ∧ decodeWord 0xF401#16 0#16 = none ∧
  decodeWord 0xF265#16 0#16 = some (.load 2#4) ∧ decodeWord 0xF03A#16 0#16 = none

/-! ## The step -/

/-- 40_cycle.md R100: inside a tick with budget left, Running, at an address not below 0x200, the audio agent quiet, the
step is the execution of the instruction the bytes at the pc decode to, with the pc moved past it; around it the step
takes one off the budget, settles the earlier stores and draws the host's next answers (the model's own fields `tick`,
`unseen`, `turn`, `inp`; log 1, log 4, log 5). -/
def Obligations.StepRunsTheDecodedInstruction : Prop :=
  ∀ (s : State) (left : Nat) (i : Instr), s.audioQuiet → s.tick = .inTick (left + 1) → s.run = .running →
    0x200#16 ≤ s.pc → decodeWord (s.read16 s.pc) (s.read16 (s.pc + 2#16)) = some i →
    step s = mapNext (fun t => { t with tick := .inTick left, turn := t.turn + 1, inp := Config.inputs (t.turn + 1) })
      (exec i { s with pc := s.pc + (if s.read16 s.pc = 0xF000#16 then 4#16 else 2#16), unseen := [] })

/-- R102, 60_exceptions.md R330, R334, R336, R337: a step below 0x200 fetches nothing and changes nothing but the run state
and the record, which gives the fault of code 4 (log 13; `tick`, `unseen`, `turn`, `inp` are the model's own fields, log 1,
log 4, log 5). -/
def Obligations.StepBelowTheEntryPointFaults : Prop :=
  ∀ (s : State) (left : Nat), s.audioQuiet → s.tick = .inTick (left + 1) → s.run = .running → s.pc < 0x200#16 →
    ∃ t, step s = .next t ∧ t.fault.map (fun f => f.reason.code) = some 4 ∧
      t = { s with
        run := .halted
        fault := some { reason := .protectedRegion, pc := s.pc, opcode := none, i := s.i, dt := s.dt, st := s.st,
                        sp := s.sp, stack := s.stack, v := s.v }
        tick := .inTick left
        unseen := []
        turn := s.turn + 1
        inp := Config.inputs (s.turn + 1) }

/-- R104, 60_exceptions.md R330, R331: a word that decodes Invalid faults after the fetch with the fault of code 1 (log 13),
with the advanced pc and the word in the record; nothing else of the machine's state is written (`tick`, `unseen`, `turn`,
`inp` are the model's own fields; log 1, log 4, log 5). -/
def Obligations.StepOnAnInvalidWordFaults : Prop :=
  ∀ (s : State) (left : Nat), s.audioQuiet → s.tick = .inTick (left + 1) → s.run = .running → 0x200#16 ≤ s.pc →
    decodeWord (s.read16 s.pc) (s.read16 (s.pc + 2#16)) = none →
    ∃ t, step s = .next t ∧ t.fault.map (fun f => f.reason.code) = some 1 ∧
      t = { s with
        pc := s.pc + 2#16
        run := .halted
        fault := some { reason := .invalidInstruction, pc := s.pc + 2#16, opcode := some (s.read16 s.pc), i := s.i,
                        dt := s.dt, st := s.st, sp := s.sp, stack := s.stack, v := s.v }
        tick := .inTick left
        unseen := []
        turn := s.turn + 1
        inp := Config.inputs (s.turn + 1) }

/-! ## The tick, reset, load -/

/-- 40_cycle.md R112: a tick of a Running machine starts by reading the budget, once. In this and the next statements
`tick`, `lastTick`, `unseen`, `turn` and `inp` are the model's own fields (log 1, log 4, log 5, log 15). -/
def Obligations.TickStartReadsTheBudget : Prop :=
  ∀ s : State, s.audioQuiet → s.tick = .between → s.inp.call = .tick → s.run = .running →
    step s = .next { s with
      tick := .inTick s.inp.budget
      unseen := []
      turn := s.turn + 1
      inp := Config.inputs (s.turn + 1) }

/-- R111, R114, R115, R123, 47_timers.md R264 to R268: where the budget is used up or the machine waits for a key, and it is
not Halted, the tick renders, then decrements the nonzero timers, and the sound timer's step from 1 to 0 removes the audio
source and is returned; Render's answer is returned and changes nothing. Of the screen only dirty markers may change: bit
7 is cleared at the active cells the backend names and stays at the others, and bits 6:0 and the resolution stay. -/
def Obligations.TickEndRendersThenRunsTheTimers : Prop :=
  ∀ (s : State) (left : Nat), s.audioQuiet → s.tick = .inTick left → (left = 0 ∨ s.run = .waitingForKey) →
    s.run ≠ .halted →
    ∃ t, step s = .next t ∧
      t = { s with
        fb := t.fb
        dt := if s.dt = 0#8 then 0#8 else s.dt - 1#8
        st := if s.st = 0#8 then 0#8 else s.st - 1#8
        au := { s.au with on := if s.st = 1#8 then false else s.au.on }
        tick := .between
        lastTick := some { continueRunning := s.inp.renderContinue, audioStop := decide (s.st = 1#8) }
        unseen := []
        turn := s.turn + 1
        inp := Config.inputs (s.turn + 1) } ∧
      t.fb.res = s.fb.res ∧
      ∀ y x, y < s.fb.res.height → x < s.fb.res.width →
        t.fb.cell y x = if (y, x) ∈ s.inp.renderClean then s.fb.cell y x &&& 0x7F#8 else s.fb.cell y x

/-- R116: a tick that starts or ends Halted renders nothing, decrements no timer, emits no audio-stop event and returns
false. -/
def Obligations.HaltedTickChangesNothing : Prop :=
  ∀ s : State, s.audioQuiet → s.run = .halted →
    ((s.tick = .between ∧ s.inp.call = .tick) ∨ ∃ left, s.tick = .inTick left) →
    step s = .next { s with
      tick := .between
      lastTick := some { continueRunning := false, audioStop := false }
      unseen := []
      turn := s.turn + 1
      inp := Config.inputs (s.turn + 1) }

/-- 46_input.md R244, edge-triggered: the tick of a waiting machine samples the 16 keys. With no key seen yet, the least
key down is remembered; with a key seen, the wait ends when no key is down, and the target register gets the key seen.
No instruction runs (R117): no budget is left for the tick. -/
def Obligations.KeyWaitServiceEdgeTriggered : Prop :=
  ∀ s : State, s.audioQuiet → s.tick = .between → s.inp.call = .tick → s.run = .waitingForKey →
    s.params.keyWaitEdge = true →
    ((∀ j < 16, s.inp.keys.getLsbD j = false) → s.kw.seen = none →
      step s = .next { s with tick := .inTick 0, unseen := [], turn := s.turn + 1, inp := Config.inputs (s.turn + 1) }) ∧
    (∀ k : BitVec 4, s.inp.keys.getLsbD k.toNat = true → (∀ j < k.toNat, s.inp.keys.getLsbD j = false) →
      s.kw.seen = none →
      step s = .next { s with kw := { s.kw with seen := some k }, tick := .inTick 0, unseen := [], turn := s.turn + 1,
                              inp := Config.inputs (s.turn + 1) }) ∧
    (∀ (k : BitVec 4) (j : Nat), j < 16 → s.inp.keys.getLsbD j = true → s.kw.seen = some k →
      step s = .next { s with tick := .inTick 0, unseen := [], turn := s.turn + 1, inp := Config.inputs (s.turn + 1) }) ∧
    (∀ k : BitVec 4, (∀ j < 16, s.inp.keys.getLsbD j = false) → s.kw.seen = some k →
      step s = .next { s with
        v := s.v.set s.kw.target.toNat (k.setWidth 8) s.kw.target.isLt
        kw := { s.kw with seen := none }
        run := .running
        tick := .inTick 0
        unseen := []
        turn := s.turn + 1
        inp := Config.inputs (s.turn + 1) })

/-- 46_input.md R244, level-triggered: the wait ends in the first tick in which a key is down, with the least such key. -/
def Obligations.KeyWaitServiceLevelTriggered : Prop :=
  ∀ s : State, s.audioQuiet → s.tick = .between → s.inp.call = .tick → s.run = .waitingForKey →
    s.params.keyWaitEdge = false →
    ((∀ j < 16, s.inp.keys.getLsbD j = false) →
      step s = .next { s with tick := .inTick 0, unseen := [], turn := s.turn + 1, inp := Config.inputs (s.turn + 1) }) ∧
    (∀ k : BitVec 4, s.inp.keys.getLsbD k.toNat = true → (∀ j < k.toNat, s.inp.keys.getLsbD j = false) →
      step s = .next { s with
        v := s.v.set s.kw.target.toNat (k.setWidth 8) s.kw.target.isLt
        run := .running
        tick := .inTick 0
        unseen := []
        turn := s.turn + 1
        inp := Config.inputs (s.turn + 1) })

/-- 10_state.md R40, 20_memory.md R69, 70_reset_and_hazards.md R360, R361, R363: a Load between ticks resets the machine, a
Halted one too, and copies the image's first 65024 bytes to 0x200; the flag store keeps its contents. -/
def Obligations.LoadResetsTheMachineAndCopiesTheImage : Prop :=
  ∀ (s : State) (image : List Byte), s.audioQuiet → s.tick = .between → s.inp.call = .load image →
    ∃ t, step s = .next t ∧
      (∀ a : Word, t.readByte a =
        if 0x200 ≤ a.toNat ∧ a.toNat - 0x200 < image.length then image[a.toNat - 0x200]?.getD 0#8
        else unlisted s.params a.toNat) ∧
      (∀ r, t.getV r = 0#8) ∧ t.pc = 0x200#16 ∧ t.i = 0#16 ∧ t.sp = 0 ∧ (∀ k : Fin 16, t.stack[k] = 0#16) ∧
      t.dt = 0#8 ∧ t.st = 0#8 ∧ t.plane = 1#2 ∧ t.fb.res.width = 64 ∧ t.fb.res.height = 32 ∧
      (∀ y x, t.fb.cell y x = 0x80#8) ∧ t.run = .running ∧ t.kw = { target := 0#4, seen := none } ∧
      t.fault = none ∧ t.au = { base := 0#16, cursor := 0#7, phase := 0, bit := false, on := false } ∧
      t.flags = s.flags

/-- 10_state.md R40: the value after reset of every piece of the spec's state (no image is loaded). -/
def Obligations.ResetValuesAreThoseOfTheSpec : Prop :=
  (∀ a : Word, State.reset.readByte a =
    if h : a.toNat < 0x50 then State.reset.params.fontSmall[a.toNat]
    else if h' : a.toNat < 0xF0 then State.reset.params.fontBig[a.toNat - 0x50] else 0#8) ∧
  (∀ r, State.reset.getV r = 0#8) ∧ State.reset.pc = 0x200#16 ∧ State.reset.i = 0x0000#16 ∧
  State.reset.sp = 0 ∧ (∀ k : Fin 16, State.reset.stack[k] = 0x0000#16) ∧ State.reset.dt = 0#8 ∧ State.reset.st = 0#8 ∧
  State.reset.plane = 1#2 ∧ State.reset.fb.res.width = 64 ∧ State.reset.fb.res.height = 32 ∧
  (∀ y x, State.reset.fb.cell y x = 0x80#8) ∧ State.reset.run = .running ∧ State.reset.kw.target = 0#4 ∧
  State.reset.kw.seen = none ∧ State.reset.fault = none ∧ State.reset.au.base = 0#16 ∧ State.reset.au.cursor = 0#7 ∧
  State.reset.au.phase = 0 ∧ State.reset.au.bit = false ∧ State.reset.au.on = false

/-! ## Invariants and whole-machine rules -/

/-- The invariant of Safety.lean holds after reset: memory and framebuffer in canonical form, bits 6:2 of every cell 0
(10_state.md R31), no fault record outside a Halted machine, no seen key outside the key wait, the audio source
installed exactly while the sound timer is not 0, every sample of a call in progress emitted or still to come. -/
def Obligations.ResetMeetsTheInvariant : Prop := State.reset.Inv

/-- Every step keeps the invariant, from every state that meets it: whatever the instruction, the host's call or answers. -/
def Obligations.EveryStepKeepsTheInvariant : Prop :=
  ∀ s t : State, s.Inv → step s = .next t → t.Inv

/-- 93_implementation_defined.md §1, "No state of this machine is left stuck": every step of every state answers a next
state, a step that faults too, whose next state holds the record (that a fault is a next state is the model's choice, log
6). -/
def Obligations.EveryStepHasANextState : Prop := ∀ s : State, ∃ t, step s = .next t

/-- 00_scope.md R9: no step changes a parameter. The second clause is of the model's own counter `turn` (log 1): every step
advances it by one. -/
def Obligations.NoStepChangesAParameter : Prop :=
  ∀ s t : State, step s = .next t → t.params = s.params ∧ t.turn = s.turn + 1

/-- 60_exceptions.md R338, 40_cycle.md R116, 10_state.md R34: from a Halted machine nothing but a Load leads on: every other
step leaves it Halted, with its record, registers, memory, screen, timers, flag store and key-wait state as they are, and
the audio generator's base and installation too. The generator's cursor, phase and bit may still move, by the audio agent
(49_audio.md R316). -/
def Obligations.HaltedIsLeftOnlyByLoad : Prop :=
  ∀ s t : State, s.run = .halted → (∀ image, s.tick = .between → s.inp.call ≠ .load image) → step s = .next t →
    t.run = .halted ∧ t.fault = s.fault ∧ t.v = s.v ∧ t.pc = s.pc ∧ t.i = s.i ∧ t.sp = s.sp ∧ t.stack = s.stack ∧
    t.dt = s.dt ∧ t.st = s.st ∧ t.plane = s.plane ∧ t.fb = s.fb ∧ t.mem = s.mem ∧ t.flags = s.flags ∧ t.kw = s.kw ∧
    t.au.base = s.au.base ∧ t.au.on = s.au.on

/-- 42_display.md R163: no instruction but CLS, LOW, HIGH, the scrolls, PLANE and DRW changes the framebuffer. -/
def Obligations.OnlyDisplayInstructionsChangeTheFramebuffer : Prop :=
  ∀ (i : Instr) (s t : State), exec i s = .next t → t.fb ≠ s.fb →
    i = .cls ∨ i = .low ∨ i = .high ∨ i = .scr ∨ i = .scl ∨ (∃ n, i = .scd n) ∨ (∃ n, i = .scu n) ∨
    (∃ n, i = .plane n) ∨ (∃ x y n, i = .drw x y n)

/-- 20_memory.md R63, R71: no instruction but FX33 and the block stores writes memory. -/
def Obligations.OnlyStoresChangeMemory : Prop :=
  ∀ (i : Instr) (s t : State), exec i s = .next t → t.mem ≠ s.mem →
    (∃ x, i = .bcd x) ∨ (∃ x, i = .save x) ∨ (∃ x y, i = .saveRange x y)

/-- 10_state.md R26: only CALL and RET reach the call stack. -/
def Obligations.OnlyCallAndRetReachTheStack : Prop :=
  ∀ (i : Instr) (s t : State), exec i s = .next t → (t.sp ≠ s.sp ∨ t.stack ≠ s.stack) →
    (∃ a, i = .call a) ∨ i = .ret

/-- 10_state.md R21, R23: an instruction writes no register but those R23 lists for it (VF for the six that define a flag
result). -/
def Obligations.RegistersAreWrittenAsListed : Prop :=
  ∀ (i : Instr) (s t : State) (r : Reg), exec i s = .next t → r ∉ instrRegisterWrites i → t.getV r = s.getV r

/-- 10_state.md R25, R27, R28, R29, R37, R35: who writes I, DT, ST (and installs the audio source), the plane selector, the
flag store and the playback state. -/
def Obligations.SpecialRegistersAreWrittenAsListed : Prop :=
  ∀ (i : Instr) (s t : State), exec i s = .next t →
    (t.i ≠ s.i → (∃ a, i = .ldI a) ∨ (∃ a, i = .ldILong a) ∨ (∃ x, i = .addI x) ∨ (∃ x, i = .ldF x) ∨
      (∃ x, i = .ldHf x) ∨ (s.inp.quirks.indexIncrement = true ∧
        ((∃ x y, i = .saveRange x y) ∨ (∃ x y, i = .loadRange x y) ∨ (∃ x, i = .save x) ∨ ∃ x, i = .load x))) ∧
    (t.dt ≠ s.dt → ∃ x, i = .ldDt x) ∧
    ((t.st ≠ s.st ∨ t.au.on ≠ s.au.on) → ∃ x, i = .ldSt x) ∧
    (t.plane ≠ s.plane → ∃ n, i = .plane n) ∧
    (t.flags ≠ s.flags → ∃ x, i = .saveFlags x) ∧
    ((t.au.base ≠ s.au.base ∨ t.au.cursor ≠ s.au.cursor ∨ t.au.phase ≠ s.au.phase ∨ t.au.bit ≠ s.au.bit) → i = .audio)

/-- 40_cycle.md R101, R107, 60_exceptions.md R330: after the fetch, only jumps, call, return and skips write the pc; only
EXIT, FX0A and a fault change the run state, and of the well-formed instructions only CALL and RET raise a fault. -/
def Obligations.ControlStateIsWrittenAsListed : Prop :=
  ∀ (i : Instr) (s t : State), i.wellFormed = true → exec i s = .next t →
    (t.pc ≠ s.pc → (∃ a, i = .jp a) ∨ (∃ a, i = .call a) ∨ i = .ret ∨ (∃ a, i = .jpV0 a) ∨ (∃ x n, i = .seImm x n) ∨
      (∃ x n, i = .sneImm x n) ∨ (∃ x y, i = .seReg x y) ∨ (∃ x y, i = .sneReg x y) ∨ (∃ x, i = .skp x) ∨
      ∃ x, i = .sknp x) ∧
    (t.run ≠ s.run → i = .exit ∨ (∃ x, i = .ldVxK x) ∨ t.fault ≠ none) ∧
    (t.fault ≠ s.fault → (∃ a, i = .call a) ∨ i = .ret) ∧
    (t.kw ≠ s.kw → ∃ x, i = .ldVxK x)

/-- 10_state.md R39 (cursor, phase, bit), R35 and 49_audio.md R310 to R318 (the base: the audio operations alone read it): no
instruction lets a program observe the audio generator's base, cursor, phase or bit: two states that differ only there go
on to states that differ only there. -/
def Obligations.ProgramsCannotObservePlayback : Prop :=
  ∀ (i : Instr) (s : State) (base : Word) (cursor : BitVec 7) (phase : Nat) (bit : Bool),
    viewNext State.withoutPlayback (exec i { s with au := { base := base, cursor := cursor, phase := phase, bit := bit,
                                                            on := s.au.on } }) =
      viewNext State.withoutPlayback (exec i s)

/-- 20_memory.md R62, R73: a byte read after a byte write is the byte written at its address, and what was there at every
other; no address is protected (R71). -/
def Obligations.ReadAfterWriteGivesTheByteWritten : Prop :=
  ∀ (s : State) (a j : Word) (b : Byte), (s.writeByte a b).readByte j = if j = a then b else s.readByte j

/-! ## Control (41_control.md) -/

/-- R130, R135, R136: JP and JP_V0 set the pc (the sum is not reduced to 12 bits); EXIT halts with no fault. -/
def Obligations.JumpsAndExit : Prop :=
  ∀ (nnn : BitVec 12) (s : State),
    exec (.jp nnn) s = .next { s with pc := nnn.setWidth 16 } ∧
    exec (.jpV0 nnn) s = .next { s with pc := nnn.setWidth 16 + (s.getV 0#4).setWidth 16 } ∧
    exec .exit s = .next { s with run := .halted }

/-- R131, R133: CALL with room on the stack pushes the address after itself and jumps. -/
def Obligations.CallPushesTheReturnAddress : Prop :=
  ∀ (nnn : BitVec 12) (s : State) (h : s.sp.val < 16),
    exec (.call nnn) s = .next { s with
      stack := s.stack.set s.sp.val s.pc h
      sp := ⟨s.sp.val + 1, by omega⟩
      pc := nnn.setWidth 16 }

/-- R132, R134: RET with an entry on the stack pops it into the pc; the slot keeps its value. -/
def Obligations.RetPopsTheReturnAddress : Prop :=
  ∀ (s : State) (h : 0 < s.sp.val),
    exec .ret s = .next { s with
      sp := ⟨s.sp.val - 1, by omega⟩
      pc := s.stack[s.sp.val - 1]'(by omega) }

/-- 60_exceptions.md R330, R332, R333, R336, R337: CALL with a full stack and RET with an empty one write the record, of the
fault of code 2 and of code 3 (log 13), and halt; nothing is pushed or popped and the pc stays at the address after the
instruction. The opcode recorded is the encoding of the instruction decoded (log 11, DEDUCED). -/
def Obligations.StackFaultsHaltTheMachine : Prop :=
  ∀ (nnn : BitVec 12) (s : State),
    (s.sp = 16 → ∃ t, exec (.call nnn) s = .next t ∧ t.fault.map (fun f => f.reason.code) = some 2 ∧
      t = { s with
        run := .halted
        fault := some { reason := .stackOverflow, pc := s.pc, opcode := some (0x2#4 ++ nnn), i := s.i, dt := s.dt,
                        st := s.st, sp := 16, stack := s.stack, v := s.v } }) ∧
    (s.sp = 0 → ∃ t, exec .ret s = .next t ∧ t.fault.map (fun f => f.reason.code) = some 3 ∧
      t = { s with
        run := .halted
        fault := some { reason := .stackUnderflow, pc := s.pc, opcode := some 0x00EE#16, i := s.i, dt := s.dt,
                        st := s.st, sp := 0, stack := s.stack, v := s.v } })

/-- R137 to R142: the conditional skips move the pc over the next instruction, 4 bytes where it is the long form, else 2,
exactly where their condition holds; nothing else changes. -/
def Obligations.ConditionalSkips : Prop :=
  ∀ (x y : Reg) (nn : Byte) (s : State),
    exec (.seImm x nn) s = .next { s with pc := if s.getV x = nn then s.pc + s.skipWidth else s.pc } ∧
    exec (.sneImm x nn) s = .next { s with pc := if s.getV x ≠ nn then s.pc + s.skipWidth else s.pc } ∧
    exec (.seReg x y) s = .next { s with pc := if s.getV x = s.getV y then s.pc + s.skipWidth else s.pc } ∧
    exec (.sneReg x y) s = .next { s with pc := if s.getV x ≠ s.getV y then s.pc + s.skipWidth else s.pc }

/-- 46_input.md R240, R241, R242: the key skips ask the host for the key numbered by all 8 bits of VX. -/
def Obligations.KeySkips : Prop :=
  ∀ (x : Reg) (s : State),
    exec (.skp x) s = .next { s with
      pc := if s.inp.keys.getLsbD (s.getV x).toNat = true then s.pc + s.skipWidth else s.pc } ∧
    exec (.sknp x) s = .next { s with
      pc := if s.inp.keys.getLsbD (s.getV x).toNat = false then s.pc + s.skipWidth else s.pc }

/-! ## Display (42_display.md) -/

/-- R150, R151: CLS clears the bits of the selected planes in every active cell and marks it dirty; nothing else
changes. -/
def Obligations.ClsClearsTheSelectedPlanes : Prop :=
  ∀ s : State, ∃ t, exec .cls s = .next t ∧ t = { s with fb := t.fb } ∧ t.fb.res = s.fb.res ∧
    ∀ y x, y < s.fb.res.height → x < s.fb.res.width →
      t.fb.cell y x = (s.fb.cell y x &&& 0x03#8 &&& ~~~(s.plane.setWidth 8)) ||| 0x80#8

/-- R152, R153, R154: LOW and HIGH set the resolution and leave every cell of both planes clear and dirty, whatever the
resolution was and whatever the selector holds. -/
def Obligations.ResolutionChangesClearTheScreen : Prop :=
  ∀ s : State,
    (∃ t, exec .low s = .next t ∧ t = { s with fb := t.fb } ∧ t.fb.res.width = 64 ∧ t.fb.res.height = 32 ∧
      ∀ y x, y < 32 → x < 64 → t.fb.cell y x = 0x80#8) ∧
    (∃ t, exec .high s = .next t ∧ t = { s with fb := t.fb } ∧ t.fb.res.width = 128 ∧ t.fb.res.height = 64 ∧
      ∀ y x, y < 64 → x < 128 → t.fb.cell y x = 0x80#8)

/-- R155 to R159: the scrolls move the plane bits of both planes (down N, up N, right 4, left 4), clear what nothing moves
onto, mark every cell dirty and lose what leaves the screen. -/
def Obligations.ScrollsMoveBothPlanes : Prop :=
  ∀ (n : BitVec 4) (s : State),
    (n ≠ 0#4 → ∃ t, exec (.scd n) s = .next t ∧ t = { s with fb := t.fb } ∧ t.fb.res = s.fb.res ∧
      ∀ y x, y < s.fb.res.height → x < s.fb.res.width →
        t.fb.cell y x = (if n.toNat ≤ y then s.fb.cell (y - n.toNat) x &&& 0x03#8 else 0#8) ||| 0x80#8) ∧
    (n ≠ 0#4 → ∃ t, exec (.scu n) s = .next t ∧ t = { s with fb := t.fb } ∧ t.fb.res = s.fb.res ∧
      ∀ y x, y < s.fb.res.height → x < s.fb.res.width →
        t.fb.cell y x =
          (if y + n.toNat < s.fb.res.height then s.fb.cell (y + n.toNat) x &&& 0x03#8 else 0#8) ||| 0x80#8) ∧
    (∃ t, exec .scr s = .next t ∧ t = { s with fb := t.fb } ∧ t.fb.res = s.fb.res ∧
      ∀ y x, y < s.fb.res.height → x < s.fb.res.width →
        t.fb.cell y x = (if 4 ≤ x then s.fb.cell y (x - 4) &&& 0x03#8 else 0#8) ||| 0x80#8) ∧
    (∃ t, exec .scl s = .next t ∧ t = { s with fb := t.fb } ∧ t.fb.res = s.fb.res ∧
      ∀ y x, y < s.fb.res.height → x < s.fb.res.width →
        t.fb.cell y x = (if x + 4 < s.fb.res.width then s.fb.cell y (x + 4) &&& 0x03#8 else 0#8) ||| 0x80#8)

/-- R155, R156, R157: a zero-zero scroll writes no cell and sets no dirty marker. -/
def Obligations.ScrollByZeroChangesNothing : Prop :=
  ∀ s : State, exec (.scd 0#4) s = .next s ∧ exec (.scu 0#4) s = .next s

/-- R160, R161: PLANE with a mask of 0 to 3 sets the selector and marks every active cell dirty without altering its
pixels. -/
def Obligations.PlaneSelectsAndInvalidates : Prop :=
  ∀ (n : BitVec 4) (s : State), n ≤ 3#4 →
    ∃ t, exec (.plane n) s = .next t ∧ t = { s with plane := n.setWidth 2, fb := t.fb } ∧ t.fb.res = s.fb.res ∧
      ∀ y x, y < s.fb.res.height → x < s.fb.res.width → t.fb.cell y x = s.fb.cell y x ||| 0x80#8

/-! ## Register arithmetic and logic (43_alu.md) -/

/-- R171 to R174: LD_REG, OR, AND and XOR write VX and no flag. -/
def Obligations.CopyAndLogicWriteNoFlag : Prop :=
  ∀ (x y : Reg) (s : State),
    exec (.ldReg x y) s = .next { s with v := s.v.set x.toNat (s.getV y) x.isLt } ∧
    exec (.orReg x y) s = .next { s with v := s.v.set x.toNat (s.getV x ||| s.getV y) x.isLt } ∧
    exec (.andReg x y) s = .next { s with v := s.v.set x.toNat (s.getV x &&& s.getV y) x.isLt } ∧
    exec (.xorReg x y) s = .next { s with v := s.v.set x.toNat (s.getV x ^^^ s.getV y) x.isLt }

/-- R170, R175, R176, R178, R180: the register adds and subtracts wrap mod 256; VF is the carry out, or 1 exactly where no
borrow occurs; where X = F the quirk says which of the two writes VF ends with. The operands are those before any write. -/
def Obligations.AddAndSubtractSetTheFlag : Prop :=
  ∀ (x y r : Reg) (s : State),
    (∃ t, exec (.addReg x y) s = .next t ∧ t = { s with v := t.v } ∧ t.getV r =
      if r = 0xF#4 ∧ (x ≠ 0xF#4 ∨ s.inp.quirks.vfFlagLast = true) then
        (if 255 < (s.getV x).toNat + (s.getV y).toNat then 1#8 else 0#8)
      else if r = x then BitVec.ofNat 8 ((s.getV x).toNat + (s.getV y).toNat) else s.getV r) ∧
    (∃ t, exec (.subReg x y) s = .next t ∧ t = { s with v := t.v } ∧ t.getV r =
      if r = 0xF#4 ∧ (x ≠ 0xF#4 ∨ s.inp.quirks.vfFlagLast = true) then
        (if (s.getV y).toNat ≤ (s.getV x).toNat then 1#8 else 0#8)
      else if r = x then s.getV x - s.getV y else s.getV r) ∧
    (∃ t, exec (.subn x y) s = .next t ∧ t = { s with v := t.v } ∧ t.getV r =
      if r = 0xF#4 ∧ (x ≠ 0xF#4 ∨ s.inp.quirks.vfFlagLast = true) then
        (if (s.getV x).toNat ≤ (s.getV y).toNat then 1#8 else 0#8)
      else if r = x then s.getV y - s.getV x else s.getV r)

/-- R170, R177, R179: the shifts move the source (VX or VY, as the quirk says) by one bit into VX, and the bit moved out
into VF; where X = F the order quirk says which of the two VF ends with. -/
def Obligations.ShiftsSetTheFlag : Prop :=
  ∀ (x y r : Reg) (s : State) (src : Byte), src = (if s.inp.quirks.shiftVx then s.getV x else s.getV y) →
    (∃ t, exec (.shr x y) s = .next t ∧ t = { s with v := t.v } ∧ t.getV r =
      if r = 0xF#4 ∧ (x ≠ 0xF#4 ∨ s.inp.quirks.vfFlagLast = true) then (if src.getLsbD 0 then 1#8 else 0#8)
      else if r = x then BitVec.ofNat 8 (src.toNat / 2) else s.getV r) ∧
    (∃ t, exec (.shl x y) s = .next t ∧ t = { s with v := t.v } ∧ t.getV r =
      if r = 0xF#4 ∧ (x ≠ 0xF#4 ∨ s.inp.quirks.vfFlagLast = true) then (if src.getLsbD 7 then 1#8 else 0#8)
      else if r = x then BitVec.ofNat 8 (src.toNat * 2) else s.getV r)

/-! ## Immediates, index, random (44_immediate_index_random.md) -/

/-- R190, R191, R196: LD_IMM, ADD_IMM (no flag) and RND (the host's byte of this step, masked). -/
def Obligations.ImmediateAndRandomLoads : Prop :=
  ∀ (x : Reg) (nn : Byte) (s : State),
    exec (.ldImm x nn) s = .next { s with v := s.v.set x.toNat nn x.isLt } ∧
    exec (.addImm x nn) s =
      .next { s with v := s.v.set x.toNat (BitVec.ofNat 8 ((s.getV x).toNat + nn.toNat)) x.isLt } ∧
    exec (.rnd x nn) s = .next { s with v := s.v.set x.toNat (s.inp.random &&& nn) x.isLt }

/-- R192, R193, R194, 48_memory_ops.md R284, R285: the loads of I, with ADD_I mod 65536 and no flag, and the font pointers
to the glyph of VX's low nibble. -/
def Obligations.IndexRegisterLoads : Prop :=
  ∀ (nnn : BitVec 12) (nnnn : Word) (x : Reg) (s : State),
    exec (.ldI nnn) s = .next { s with i := nnn.setWidth 16 } ∧
    exec (.ldILong nnnn) s = .next { s with i := nnnn } ∧
    exec (.addI x) s = .next { s with i := BitVec.ofNat 16 (s.i.toNat + (s.getV x).toNat) } ∧
    exec (.ldF x) s = .next { s with i := BitVec.ofNat 16 (5 * ((s.getV x).toNat % 16)) } ∧
    exec (.ldHf x) s = .next { s with i := BitVec.ofNat 16 (0x50 + 10 * ((s.getV x).toNat % 16)) }

/-! ## Sprites (45_sprite.md) -/

/-- R212: a `Write` of the zero byte changes nothing, no dirty marker either, and answers false. -/
def Obligations.WriteOfZeroDoesNothing : Prop :=
  ∀ (fb : Framebuffer) (p : Plane) (y x : Nat), fb.write p y x 0#8 = (fb, false)

/-- R210, R211: `Write` flips the plane's bit of, and marks dirty, exactly the cells its set bits fall on (the row taken mod
the height, each column mod the width), and answers whether one of those bits was set; the other plane takes no part. -/
def Obligations.WriteFlipsTheCellsUnderItsSetBits : Prop :=
  ∀ (fb : Framebuffer) (p : Plane) (y x : Nat) (b : Byte),
    (fb.write p y x b).1.res = fb.res ∧
    (∀ y' x', y' < fb.res.height → x' < fb.res.width →
      (fb.write p y x b).1.cell y' x' =
        if y' = y % fb.res.height ∧ ∃ k < 8, b.getMsbD k = true ∧ x' = (x + k) % fb.res.width
          then (fb.cell y' x' ^^^ p.mask) ||| 0x80#8 else fb.cell y' x') ∧
    ((fb.write p y x b).2 = true ↔
      ∃ k < 8, b.getMsbD k = true ∧ fb.cell (y % fb.res.height) ((x + k) % fb.res.width) &&& p.mask ≠ 0#8)

/-- R218: the same byte written twice at the same place restores every cell's plane bits, and a nonzero byte whose first
write did not collide collides on the second. -/
def Obligations.WritingTwiceCollidesAndRestores : Prop :=
  ∀ (fb : Framebuffer) (p : Plane) (y x : Nat) (b : Byte),
    (∀ y' x', y' < fb.res.height → x' < fb.res.width →
      ((fb.write p y x b).1.write p y x b).1.cell y' x' &&& 0x03#8 = fb.cell y' x' &&& 0x03#8) ∧
    (b ≠ 0#8 → (fb.write p y x b).2 = false → ((fb.write p y x b).1.write p y x b).2 = true)

/-- R210, R211, R213 to R217: DRW, in every shape (1 to 15 rows, or 16 × 16), with one plane, both or none, clipped or
wrapped: each plane's bit of each active cell is flipped exactly where the sprite has a set bit for that plane; a cell is
marked dirty exactly where some plane has one; a cell where none has stays; VF is 1 exactly where some flipped bit was set;
nothing else changes (bits 6:2 of a cell are 0 in every state that meets the invariant of Safety.lean). -/
def Obligations.DrwDrawsTheSpriteAndSetsVF : Prop :=
  ∀ (vx vy : Reg) (n : BitVec 4) (s : State),
    ∃ t, exec (.drw vx vy n) s = .next t ∧ t.fb.res = s.fb.res ∧
      (∃ flag : Byte, t = { s with fb := t.fb, v := s.v.set 15 flag } ∧
        ((flag = 1#8 ∧ ∃ p y x, s.spritePixel vx vy n p y x ∧ s.fb.cell y x &&& p.mask ≠ 0#8) ∨
         (flag = 0#8 ∧ ¬∃ p y x, s.spritePixel vx vy n p y x ∧ s.fb.cell y x &&& p.mask ≠ 0#8))) ∧
      ∀ y x, y < s.fb.res.height → x < s.fb.res.width →
        (∀ p, s.spritePixel vx vy n p y x → t.fb.cell y x &&& p.mask = ~~~(s.fb.cell y x) &&& p.mask) ∧
        (∀ p, ¬s.spritePixel vx vy n p y x → t.fb.cell y x &&& p.mask = s.fb.cell y x &&& p.mask) ∧
        ((∃ p, s.spritePixel vx vy n p y x) → t.fb.cell y x &&& 0x80#8 = 0x80#8) ∧
        ((¬∃ p, s.spritePixel vx vy n p y x) → t.fb.cell y x = s.fb.cell y x)

/-- R213: with plane 0 selected DRW draws nothing and writes VF = 0. -/
def Obligations.DrwWithNoPlaneDrawsNothing : Prop :=
  ∀ (vx vy : Reg) (n : BitVec 4) (s : State), s.plane = 0#2 →
    exec (.drw vx vy n) s = .next { s with v := s.v.set 15 0#8 }

/-! ## Keys, timers, audio (46, 47, 49) -/

/-- 46_input.md R243: FX0A enters the key wait with VX as the target and no key seen; VX is not written yet. -/
def Obligations.KeyWaitEntry : Prop :=
  ∀ (x : Reg) (s : State),
    exec (.ldVxK x) s = .next { s with run := .waitingForKey, kw := { target := x, seen := none } }

/-- 47_timers.md R260, R261, R262: the timer instructions; LD_ST also installs the audio source exactly where VX is not
0. -/
def Obligations.TimerInstructions : Prop :=
  ∀ (x : Reg) (s : State),
    exec (.ldVxDt x) s = .next { s with v := s.v.set x.toNat s.dt x.isLt } ∧
    exec (.ldDt x) s = .next { s with dt := s.getV x } ∧
    exec (.ldSt x) s = .next { s with st := s.getV x, au := { s.au with on := decide (s.getV x ≠ 0#8) } }

/-- 49_audio.md R310, R312, R313: AUDIO latches I as the pattern's base, puts cursor and phase to 0 and reads the first
bit; it neither installs nor removes the source. -/
def Obligations.AudioLatchesThePattern : Prop :=
  ∀ s : State, exec .audio s = .next { s with
    au := { base := s.i, cursor := 0#7, phase := 0, bit := (s.readByte s.i).getLsbD 7, on := s.au.on } }

/-- 49_audio.md R314, R315: a call of Generate with nothing in between changes nothing but the playback state and gives `n`
samples, the first of them the current bit's; after each sample the phase has moved by AUDIO_INTERNAL_HZ less the rate
times the number of cursor advances, and is below the rate; after an advance the bit is the pattern's at the new cursor;
with no sample left the call ends and leaves all of the playback state as it is. -/
def Obligations.GeneratePlaysThePattern : Prop :=
  ∀ (s : State) (rate n : Nat), 0 < rate →
    (s.generate rate n).1.length = n ∧
    (s.generate rate n).2 = { s with au := (s.generate rate n).2.au } ∧
    s.generate rate 0 = ([], s) ∧
    s.generate rate (n + 1) =
      ((if s.au.bit then s.params.audioAmplitude else s.params.audioSilence) :: ((s.afterSample rate).generate rate n).1,
        ((s.afterSample rate).generate rate n).2) ∧
    ∃ q : Nat, (s.afterSample rate).au.phase + rate * q = s.au.phase + s.params.audioInternalHz ∧
      (s.afterSample rate).au.phase < rate ∧
      (s.afterSample rate).au.cursor = s.au.cursor + BitVec.ofNat 7 q ∧
      (s.afterSample rate).au.base = s.au.base ∧ (s.afterSample rate).au.on = s.au.on ∧
      (s.afterSample rate).au.bit = if q = 0 then s.au.bit else
        (s.readByte (s.au.base + BitVec.ofNat 16 ((s.afterSample rate).au.cursor.toNat / 8))).getLsbD
          (7 - (s.afterSample rate).au.cursor.toNat % 8)

/-- 49_audio.md R314, R316, R317, R319, 20_memory.md R74: the steps of the audio agent. Where no call of Generate is in
progress and the callback makes one on an installed source, the step begins it. Where one is in progress and the host
gives the agent its turn, or the interpreter needs the generator, the step is the next part of the loop of R314: the rate
is taken off the phase, the cursor advances and its bit is read as the agent reads memory now; or a sample is emitted and
the phase moves by AUDIO_INTERNAL_HZ; or, with no sample left, the call returns its samples. While no source is installed
the cursor, the phase and the bit do not move (R316). While a call is in progress no step moves the base, none ends the
call but its return, and a step of the interpreter changes nothing of the generator but its installation (R317). The
interpreter needs the generator exactly where a Load comes or an AUDIO is fetched, whatever values it would write
(10_state.md R35, 20_memory.md R75). `gen`, `unseen`, `samples`, `turn` and `inp` are the model's own fields (log 1, log 5,
log 15), and what a call does whose source is removed is log 28. -/
def Obligations.AudioStepsPlayTheCall : Prop :=
  ∀ s : State,
    (∀ c, s.gen = none → s.au.on = true → s.inp.audio = some c →
      step s = .next { s with
        gen := some { call := c, left := c.count, advancing := false, out := [] }
        unseen := s.unseen.drop s.inp.audioSees
        turn := s.turn + 1
        inp := Config.inputs (s.turn + 1) }) ∧
    (∀ g, s.gen = some g → (s.inp.audio ≠ none ∨ s.needsGenerator = true) →
      step s = .next (
        if s.au.on = true ∧ g.advancing = true ∧ g.call.rate ≤ s.au.phase then
          { s with
            au := { s.au with
              phase := s.au.phase - g.call.rate
              cursor := s.au.cursor + 1#7
              bit := (({ s with unseen := s.unseen.drop s.inp.audioSees } : State).audioByte
                (s.au.base + BitVec.ofNat 16 ((s.au.cursor + 1#7).toNat / 8))).getLsbD (7 - (s.au.cursor + 1#7).toNat % 8) }
            unseen := s.unseen.drop s.inp.audioSees
            turn := s.turn + 1
            inp := Config.inputs (s.turn + 1) }
        else if g.left = 0 then
          { s with
            gen := none
            samples := g.out
            unseen := s.unseen.drop s.inp.audioSees
            turn := s.turn + 1
            inp := Config.inputs (s.turn + 1) }
        else
          { s with
            au := { s.au with phase := if s.au.on then s.au.phase + s.params.audioInternalHz else s.au.phase }
            gen := some { g with
              left := g.left - 1
              advancing := true
              out := g.out ++ [if s.au.bit then s.params.audioAmplitude else s.params.audioSilence] }
            unseen := s.unseen.drop s.inp.audioSees
            turn := s.turn + 1
            inp := Config.inputs (s.turn + 1) })) ∧
    (∀ g t, s.gen = some g → step s = .next t →
      t.au.base = s.au.base ∧ (t.gen = none → g.left = 0 ∧ t.samples = g.out) ∧
      (s.au.on = false → t.au = { s.au with on := t.au.on })) ∧
    (∀ g t, s.gen = some g → s.inp.audio = none → s.needsGenerator = false → step s = .next t →
      t.gen = s.gen ∧ t.au = { s.au with on := t.au.on }) ∧
    (s.needsGenerator = true ↔
      (s.tick = .between ∧ ∃ image, s.inp.call = .load image) ∨
      ∃ left, s.tick = .inTick (left + 1) ∧ s.run = .running ∧ 0x200#16 ≤ s.pc ∧
        decodeWord (s.read16 s.pc) (s.read16 (s.pc + 2#16)) = some .audio)

/-! ## Block transfer, BCD, flags (48_memory_ops.md) -/

/-- R280, R282: the block stores put the k-th register of the range, in the direction from X toward Y, at I + k (mod 65536)
and leave every other byte; I moves by the range length exactly under the quirk; nothing else changes (`unseen` is the
model's own note of the byte writes, log 5). -/
def Obligations.BlockStoresWriteTheRange : Prop :=
  ∀ (x y : Reg) (s : State),
    (∃ t, exec (.saveRange x y) s = .next t ∧
      t = { s with
        mem := t.mem
        unseen := t.unseen
        i := if s.inp.quirks.indexIncrement then
          s.i + BitVec.ofNat 16 ((if x ≤ y then y.toNat - x.toNat else x.toNat - y.toNat) + 1) else s.i } ∧
      ∀ a : Word, t.readByte a =
        if (a - s.i).toNat ≤ (if x ≤ y then y.toNat - x.toNat else x.toNat - y.toNat) then
          (if x ≤ y then s.getV (x + BitVec.ofNat 4 (a - s.i).toNat) else s.getV (x - BitVec.ofNat 4 (a - s.i).toNat))
        else s.readByte a) ∧
    (∃ t, exec (.save x) s = .next t ∧
      t = { s with
        mem := t.mem
        unseen := t.unseen
        i := if s.inp.quirks.indexIncrement then s.i + BitVec.ofNat 16 (x.toNat + 1) else s.i } ∧
      ∀ a : Word, t.readByte a =
        if (a - s.i).toNat ≤ x.toNat then s.getV (BitVec.ofNat 4 (a - s.i).toNat) else s.readByte a)

/-- R281, R283: the block loads put the byte at I + k into the k-th register of the range and leave every other register; I
moves by the range length exactly under the quirk; nothing else changes. -/
def Obligations.BlockLoadsReadTheRange : Prop :=
  ∀ (x y : Reg) (s : State),
    (∃ t, exec (.loadRange x y) s = .next t ∧
      t = { s with
        v := t.v
        i := if s.inp.quirks.indexIncrement then
          s.i + BitVec.ofNat 16 ((if x ≤ y then y.toNat - x.toNat else x.toNat - y.toNat) + 1) else s.i } ∧
      ∀ r : Reg, t.getV r =
        if x ≤ r ∧ r ≤ y then s.readByte (s.i + BitVec.ofNat 16 (r.toNat - x.toNat))
        else if y ≤ r ∧ r ≤ x then s.readByte (s.i + BitVec.ofNat 16 (x.toNat - r.toNat))
        else s.getV r) ∧
    (∃ t, exec (.load x) s = .next t ∧
      t = { s with v := t.v, i := if s.inp.quirks.indexIncrement then s.i + BitVec.ofNat 16 (x.toNat + 1) else s.i } ∧
      ∀ r : Reg, t.getV r = if r ≤ x then s.readByte (s.i + BitVec.ofNat 16 r.toNat) else s.getV r)

/-- R281, corner cases: SAVE_RANGE x, y then LOAD_RANGE x, y with the same I restores the registers exactly, in either
direction, whatever the registers held in between. -/
def Obligations.LoadRangeAfterSaveRangeRestores : Prop :=
  ∀ (x y : Reg) (s t u : State) (w : Vector Byte 16),
    exec (.saveRange x y) s = .next t →
    exec (.loadRange x y) { t with i := s.i, v := w } = .next u →
    ∀ r, r ∈ regRange x y → u.getV r = s.getV r

/-- R286: BCD stores the hundreds, tens and ones of VX at I, I + 1, I + 2 (mod 65536) and leaves every other byte; I and all
else stay (`unseen` is the model's own note of the byte writes, log 5). -/
def Obligations.BcdStoresTheDigits : Prop :=
  ∀ (x : Reg) (s : State), ∃ t, exec (.bcd x) s = .next t ∧ t = { s with mem := t.mem, unseen := t.unseen } ∧
    ∀ a : Word, t.readByte a =
      if a = s.i then BitVec.ofNat 8 ((s.getV x).toNat / 100)
      else if a = s.i + 1#16 then BitVec.ofNat 8 ((s.getV x).toNat / 10 % 10)
      else if a = s.i + 2#16 then BitVec.ofNat 8 ((s.getV x).toNat % 10)
      else s.readByte a

/-- R287, R288: SAVEFLAGS copies V0..VX into the flag store and LOADFLAGS copies it back, every other place and register
as it was; memory and I stay, and the index quirk does not apply. -/
def Obligations.FlagStoreTransfers : Prop :=
  ∀ (x : Reg) (s : State),
    (∃ t, exec (.saveFlags x) s = .next t ∧ t = { s with flags := t.flags } ∧
      ∀ k : Fin 16, t.flags[k] = if k.val ≤ x.toNat then s.v[k] else s.flags[k]) ∧
    (∃ t, exec (.loadFlags x) s = .next t ∧ t = { s with v := t.v } ∧
      ∀ k : Fin 16, t.v[k] = if k.val ≤ x.toNat then s.flags[k] else s.v[k])

/-! ## What the audio agent sees of the interpreter's writes (20_memory.md R65, R74; 49_audio.md R319) -/

/-- 20_memory.md R65, R74, 49_audio.md R319, 70_reset_and_hazards.md R370: with the first `k` byte writes of an instruction
passed, for every `k`, the audio agent reads the bytes of those and, at every other address, what stood there before the
instruction: each byte write is seen whole, FX33 and a block store part-done, in the order of their addresses from I
upward. Of an instruction that stores nothing it sees memory as it is. -/
def Obligations.StoresAreSeenPartDone : Prop :=
  ∀ (i : Instr) (s t : State) (k : Nat) (a : Word), exec i { s with unseen := [] } = .next t →
    ({ t with unseen := t.unseen.drop k } : State).audioByte a =
      if (a - s.i).toNat < k then t.readByte a else s.readByte a

/-- 49_audio.md R314, R316, R319: a call of Generate that the audio agent begins on an installed source (R316: on no other)
and moves on with nothing in between, all byte writes of the interpreter passed, ends after some number of moves with the samples and the playback state of Generate's
loop, whatever the rate and the number of samples. -/
def Obligations.AnUninterruptedCallIsGenerate : Prop :=
  ∀ (s : State) (c : AudioCall), s.au.on = true → s.unseen = [] →
    ∃ k, (s.beginCall c).playOn k = { s with
      au := (s.generate c.rate c.count).2.au
      samples := (s.generate c.rate c.count).1
      gen := none }
end

