-- ==== Sys2Proof/Tests/Slice0.lean ====
section
/-! SUPPORT. Tests. Expected results are hand-taken from spec/: the encodings of 30_encoding.md and the vectors of
95_test_vectors.md, named in each comment. -/

namespace Sys2Proof.Tests

open Sys2Proof.Machine

/-! ## Helpers: a small state with every free value replaced by a plain one -/

/-- No quirk on. -/
def quirks : Quirks := { shiftVx := false, indexIncrement := false, spriteClip := false, vfFlagLast := false }

/-- A host that calls Tick, answers no key, draws 0xAB and cleans no cell. -/
def inputs : Inputs :=
  { call := .tick, audio := none, audioSees := 0, budget := 3, quirks := quirks, keys := 0#256, random := 0xAB#8, renderContinue := true,
    renderClean := [] }

/-- Parameters of 95_test_vectors.md 2.11: 4000 Hz, amplitude 9; fonts all 0. -/
def params : Params :=
  { fontSmall := Vector.replicate 80 0#8, fontBig := Vector.replicate 160 0#8, audioInternalHz := 4000, audioAmplitude := 9,
    audioSilence := 0, keyWaitEdge := true }

/-- The reset state with those. -/
def base : State := { State.reset with params := params, inp := inputs, flags := Vector.replicate 16 0#8 }

/-- Inside a tick with budget left. -/
def running : State := { base with tick := .inTick 1 }

/-- `s` with some quirks. -/
def withQuirks (s : State) (q : Quirks) : State := { s with inp := { s.inp with quirks := q } }

/-- A list of register values. -/
def withRegs (s : State) (l : List (Reg × Byte)) : State := l.foldl (fun s p => s.setV p.1 p.2) s

/-- A view of the state an instruction gives. -/
def after {α : Type} (f : State → α) (i : Instr) (s : State) : Option α := viewNext f (exec i s)

/-- VX and VF. -/
def regAndFlag (x : Reg) (s : State) : Byte × Byte := (s.getV x, s.getV 0xF#4)

/-! ## WellFormed: a term for each check, which the check refuses -/

theorem test_wellFormed_refuses_plane_4 : (Instr.plane 4#4).wellFormed = false := by decide
theorem test_wellFormed_takes_plane_3 : (Instr.plane 3#4).wellFormed = true := by decide

/-! ## Decoding: a word of every constructor, from R85 to R87; one of every family bit by bit -/

/-- Bit by bit: display 0000 0000 1100 NNNN, control 0010 NNN, ALU 1000 X Y 0100, immediate 0111 X NN, sprite 1101 X Y N,
input 1110 X 10011110, timers 1111 X 00011000, memory 0101 X Y 0011, audio 1111 0000 00000010. -/
theorem test_decode_bit_by_bit :
    decodeWord 0b0000000011000101#16 0#16 = some (.scd 0b0101#4) ∧
    decodeWord 0b0010101111001101#16 0#16 = some (.call 0b101111001101#12) ∧
    decodeWord 0b1000000100100100#16 0#16 = some (.addReg 0b0001#4 0b0010#4) ∧
    decodeWord 0b0111101000000011#16 0#16 = some (.addImm 0b1010#4 0b00000011#8) ∧
    decodeWord 0b1101000100101111#16 0#16 = some (.drw 0b0001#4 0b0010#4 0b1111#4) ∧
    decodeWord 0b1110001110011110#16 0#16 = some (.skp 0b0011#4) ∧
    decodeWord 0b1111010000011000#16 0#16 = some (.ldSt 0b0100#4) ∧
    decodeWord 0b0101000100100011#16 0#16 = some (.loadRange 0b0001#4 0b0010#4) ∧
    decodeWord 0b1111000000000010#16 0#16 = some .audio := by
  refine ⟨?_, ?_, ?_, ?_, ?_, ?_, ?_, ?_, ?_⟩ <;> decide

theorem test_decode_group0 :
    decodeWord 0x00E0#16 0#16 = some .cls ∧ decodeWord 0x00EE#16 0#16 = some .ret ∧
    decodeWord 0x00C5#16 0#16 = some (.scd 5#4) ∧ decodeWord 0x00DF#16 0#16 = some (.scu 0xF#4) ∧
    decodeWord 0x00FB#16 0#16 = some .scr ∧ decodeWord 0x00FC#16 0#16 = some .scl ∧
    decodeWord 0x00FD#16 0#16 = some .exit ∧ decodeWord 0x00FE#16 0#16 = some .low ∧
    decodeWord 0x00FF#16 0#16 = some .high := by
  refine ⟨?_, ?_, ?_, ?_, ?_, ?_, ?_, ?_, ?_⟩ <;> decide

theorem test_decode_groups_1_to_7 :
    decodeWord 0x1204#16 0#16 = some (.jp 0x204#12) ∧ decodeWord 0x2206#16 0#16 = some (.call 0x206#12) ∧
    decodeWord 0x3F01#16 0#16 = some (.seImm 0xF#4 1#8) ∧ decodeWord 0x4105#16 0#16 = some (.sneImm 1#4 5#8) ∧
    decodeWord 0x5120#16 0#16 = some (.seReg 1#4 2#4) ∧ decodeWord 0x5372#16 0#16 = some (.saveRange 3#4 7#4) ∧
    decodeWord 0x5373#16 0#16 = some (.loadRange 3#4 7#4) ∧ decodeWord 0x6A7F#16 0#16 = some (.ldImm 0xA#4 0x7F#8) ∧
    decodeWord 0x7004#16 0#16 = some (.addImm 0#4 4#8) := by
  refine ⟨?_, ?_, ?_, ?_, ?_, ?_, ?_, ?_, ?_⟩ <;> decide

theorem test_decode_group8 :
    decodeWord 0x8120#16 0#16 = some (.ldReg 1#4 2#4) ∧ decodeWord 0x8121#16 0#16 = some (.orReg 1#4 2#4) ∧
    decodeWord 0x8122#16 0#16 = some (.andReg 1#4 2#4) ∧ decodeWord 0x8123#16 0#16 = some (.xorReg 1#4 2#4) ∧
    decodeWord 0x8014#16 0#16 = some (.addReg 0#4 1#4) ∧ decodeWord 0x8125#16 0#16 = some (.subReg 1#4 2#4) ∧
    decodeWord 0x8126#16 0#16 = some (.shr 1#4 2#4) ∧ decodeWord 0x8127#16 0#16 = some (.subn 1#4 2#4) ∧
    decodeWord 0x812E#16 0#16 = some (.shl 1#4 2#4) := by
  refine ⟨?_, ?_, ?_, ?_, ?_, ?_, ?_, ?_, ?_⟩ <;> decide

theorem test_decode_groups_9_to_E :
    decodeWord 0x9120#16 0#16 = some (.sneReg 1#4 2#4) ∧ decodeWord 0xA123#16 0#16 = some (.ldI 0x123#12) ∧
    decodeWord 0xB300#16 0#16 = some (.jpV0 0x300#12) ∧ decodeWord 0xC00F#16 0#16 = some (.rnd 0#4 0x0F#8) ∧
    decodeWord 0xD012#16 0#16 = some (.drw 0#4 1#4 2#4) ∧ decodeWord 0xE19E#16 0#16 = some (.skp 1#4) ∧
    decodeWord 0xE1A1#16 0#16 = some (.sknp 1#4) := by
  refine ⟨?_, ?_, ?_, ?_, ?_, ?_, ?_⟩ <;> decide

theorem test_decode_groupF :
    decodeWord 0xF000#16 0x1234#16 = some (.ldILong 0x1234#16) ∧ decodeWord 0xF301#16 0#16 = some (.plane 3#4) ∧
    decodeWord 0xF002#16 0#16 = some .audio ∧ decodeWord 0xF507#16 0#16 = some (.ldVxDt 5#4) ∧
    decodeWord 0xF30A#16 0#16 = some (.ldVxK 3#4) ∧ decodeWord 0xF015#16 0#16 = some (.ldDt 0#4) ∧
    decodeWord 0xF218#16 0#16 = some (.ldSt 2#4) ∧ decodeWord 0xF31E#16 0#16 = some (.addI 3#4) := by
  refine ⟨?_, ?_, ?_, ?_, ?_, ?_, ?_, ?_⟩ <;> decide

theorem test_decode_groupF_memory :
    decodeWord 0xF529#16 0#16 = some (.ldF 5#4) ∧ decodeWord 0xFA30#16 0#16 = some (.ldHf 0xA#4) ∧
    decodeWord 0xF233#16 0#16 = some (.bcd 2#4) ∧ decodeWord 0xF155#16 0#16 = some (.save 1#4) ∧
    decodeWord 0xF265#16 0#16 = some (.load 2#4) ∧ decodeWord 0xF175#16 0#16 = some (.saveFlags 1#4) ∧
    decodeWord 0xF185#16 0#16 = some (.loadFlags 1#4) := by
  refine ⟨?_, ?_, ?_, ?_, ?_, ?_, ?_⟩ <;> decide

/-- 95 2.1: words that decode Invalid. -/
theorem test_decode_invalid :
    decodeWord 0x0000#16 0#16 = none ∧ decodeWord 0x0123#16 0#16 = none ∧ decodeWord 0x00E1#16 0#16 = none ∧
    decodeWord 0x5121#16 0#16 = none ∧ decodeWord 0x8008#16 0#16 = none ∧ decodeWord 0x9121#16 0#16 = none ∧
    decodeWord 0xE1A2#16 0#16 = none ∧ decodeWord 0xF100#16 0#16 = none ∧ decodeWord 0xF401#16 0#16 = none ∧
    decodeWord 0xF102#16 0#16 = none ∧ decodeWord 0xF03A#16 0#16 = none ∧ decodeWord 0xF0FF#16 0#16 = none := by
  refine ⟨?_, ?_, ?_, ?_, ?_, ?_, ?_, ?_, ?_, ?_, ?_, ?_⟩ <;> decide

/-- R88, R91: the long form takes four bytes, the high byte first; other words two; too few bytes are refused. -/
theorem test_decode_bytes :
    decode [0xF0#8, 0x00#8, 0x12#8, 0x34#8, 0x60#8] = .ok (.ldILong 0x1234#16, [0x60#8]) ∧
    decode [0x12#8, 0x04#8, 0x00#8] = .ok (.jp 0x204#12, [0x00#8]) ∧
    decode [0x51#8, 0x21#8] = .error (.invalidInstruction 0x5121#16) ∧
    decode [0xF0#8, 0x00#8, 0x12#8] = .error .truncated := by
  refine ⟨?_, ?_, ?_, ?_⟩ <;> rfl

/-! ## The step -/

/-- 95 2.2: at FFFE the word wraps round to 0 and the pc too. -/
theorem test_step_wraps_the_pc :
    viewNext (fun t => (t.getV 0#4, t.pc))
      (step ({ running with pc := 0xFFFE#16 }.writeBytes 0xFFFE#16 [0x60#8, 0x07#8])) = some (7#8, 0#16) := by decide

/-- 95 2.2: the long form at FFFE takes its operand from address 0 and leaves the pc at 2. -/
theorem test_step_long_form_wraps :
    viewNext (fun t => (t.i, t.pc))
      (step ({ running with pc := 0xFFFE#16 }.writeBytes 0xFFFE#16 [0xF0#8, 0x00#8, 0xF0#8, 0x90#8])) =
      some (0xF090#16, 2#16) := by decide

/-- 95 2.2: below 0x200 nothing is fetched. -/
theorem test_step_protected :
    viewNext (fun t => (t.pc, t.run, t.fault.map (fun f => (f.reason.code, f.opcode))))
      (step ({ running with pc := 0x1FE#16 }.writeBytes 0x1FE#16 [0x00#8, 0xE0#8])) =
      some (0x1FE#16, .halted, some (4, none)) := by decide

/-- 95 2.2: an invalid word faults after the fetch. -/
theorem test_step_invalid :
    viewNext (fun t => (t.pc, t.run, t.fault.map (fun f => (f.reason.code, f.opcode))))
      (step ({ running with pc := 0x300#16 }.writeBytes 0x300#16 [0x51#8, 0x21#8])) =
      some (0x302#16, .halted, some (1, some 0x5121#16)) := by decide

/-- The placed word is the one the next step runs, from reset, whatever the free values are: 6A7F writes 7F into VA. -/
theorem test_withFetchWord_runs :
    viewNext (fun t => (t.getV 0xA#4, t.pc)) (step (State.reset.withFetchWord 16 0x6A7F)) = some (0x7F#8, 0x202#16) := by
  decide

/-- The table's numbering: the first word is the low half; the long form's operand is 0 where the table gives 16 bits. -/
theorem test_decodeTableWord :
    decodeTableWord 32 0x1234F000 = some (.ldILong 0x1234#16) ∧ decodeTableWord 16 0xF000 = some (.ldILong 0#16) ∧
    decodeTableWord 16 0x5121 = none := by
  refine ⟨?_, ?_, ?_⟩ <;> decide

/-! ## Control (95 2.3) -/

theorem test_jp : after (fun t => t.pc) (.jp 0x204#12) { base with pc := 0x20A#16 } = some 0x204#16 := by decide

/-- sp = 15 at 300: stack[15] = 302, sp = 16. -/
theorem test_call_fills_the_stack :
    after (fun t => (t.pc, t.sp, t.stack[15])) (.call 0x400#12) { base with pc := 0x302#16, sp := 15 } =
      some (0x400#16, 16, 0x302#16) := by decide

/-- sp = 16: StackOverflow, code 2, opcode 2400. -/
theorem test_call_overflow :
    after (fun t => (t.pc, t.sp, t.fault.map (fun f => (f.reason.code, f.opcode)))) (.call 0x400#12)
      { base with pc := 0x302#16, sp := 16 } = some (0x302#16, 16, some (2, some 0x2400#16)) := by decide

theorem test_ret :
    after (fun t => (t.pc, t.sp)) .ret { base with pc := 0x208#16, sp := 1, stack := base.stack.set 0 0x202#16 } =
      some (0x202#16, 0) := by decide

/-- sp = 0: StackUnderflow, code 3. -/
theorem test_ret_underflow :
    after (fun t => (t.pc, t.run, t.fault.map (fun f => (f.reason.code, f.opcode)))) .ret { base with pc := 0x302#16 } =
      some (0x302#16, .halted, some (3, some 0x00EE#16)) := by decide

/-- V0 = FF, BFFF: 10FE. -/
theorem test_jpV0 : after (fun t => t.pc) (.jpV0 0xFFF#12) (base.setV 0#4 0xFF#8) = some 0x10FE#16 := by decide

theorem test_exit :
    after (fun t => (t.run, t.fault.isNone, t.pc)) .exit { base with pc := 0x302#16 } = some (.halted, true, 0x302#16) := by
  decide

/-- 3001 over the long form: 208. -/
theorem test_seImm_long :
    after (fun t => t.pc) (.seImm 0#4 1#8)
      (({ base with pc := 0x204#16 }.setV 0#4 1#8).writeBytes 0x204#16 [0xF0#8, 0x00#8]) = some 0x208#16 := by decide

/-- 3001 over another word: 206. -/
theorem test_seImm_short :
    after (fun t => t.pc) (.seImm 0#4 1#8)
      (({ base with pc := 0x204#16 }.setV 0#4 1#8).writeBytes 0x204#16 [0x60#8, 0x00#8]) = some 0x206#16 := by decide

theorem test_sneImm :
    after (fun t => t.pc) (.sneImm 1#4 5#8) ({ base with pc := 0x302#16 }.setV 1#4 5#8) = some 0x302#16 := by decide

/-- 5330 always skips. -/
theorem test_seReg : after (fun t => t.pc) (.seReg 3#4 3#4) { base with pc := 0x302#16 } = some 0x304#16 := by decide

/-- 9120 with V1 = 7, V2 = 8 over the long form: 306. -/
theorem test_sneReg :
    after (fun t => t.pc) (.sneReg 1#4 2#4)
      ((withRegs { base with pc := 0x302#16 } [(1#4, 7#8), (2#4, 8#8)]).writeBytes 0x302#16 [0xF0#8, 0x00#8]) =
      some 0x306#16 := by decide

/-! ## Arithmetic and logic (95 2.4) -/

theorem test_ldReg : after (regAndFlag 0#4) (.ldReg 0#4 1#4) (withRegs base [(1#4, 0x34#8)]) = some (0x34#8, 0#8) := by decide

/-- V0 = F0, V1 = 3C, VF = 55. -/
def logic : State := withRegs base [(0#4, 0xF0#8), (1#4, 0x3C#8), (0xF#4, 0x55#8)]

theorem test_or : after (regAndFlag 0#4) (.orReg 0#4 1#4) logic = some (0xFC#8, 0x55#8) := by decide
theorem test_and : after (regAndFlag 0#4) (.andReg 0#4 1#4) logic = some (0x30#8, 0x55#8) := by decide
theorem test_xor : after (regAndFlag 0#4) (.xorReg 0#4 1#4) logic = some (0xCC#8, 0x55#8) := by decide

theorem test_add :
    after (regAndFlag 0#4) (.addReg 0#4 1#4) (withRegs base [(0#4, 0x80#8), (1#4, 0x80#8)]) = some (0#8, 1#8) := by decide

/-- 8F14 with VF = 10, V1 = 20: 00 with the flag last, 30 with the result last. -/
theorem test_add_vf :
    after (fun t => t.getV 0xF#4) (.addReg 0xF#4 1#4)
      (withQuirks (withRegs base [(0xF#4, 0x10#8), (1#4, 0x20#8)]) { quirks with vfFlagLast := true }) = some 0#8 ∧
    after (fun t => t.getV 0xF#4) (.addReg 0xF#4 1#4) (withRegs base [(0xF#4, 0x10#8), (1#4, 0x20#8)]) = some 0x30#8 := by
  refine ⟨?_, ?_⟩ <;> decide

/-- V0 = V1 = 7: no borrow. -/
theorem test_sub_equal :
    after (regAndFlag 0#4) (.subReg 0#4 1#4) (withRegs base [(0#4, 7#8), (1#4, 7#8)]) = some (0#8, 1#8) := by decide

theorem test_sub_borrow :
    after (regAndFlag 0#4) (.subReg 0#4 1#4) (withRegs base [(0#4, 5#8), (1#4, 9#8)]) = some (0xFC#8, 0#8) := by decide

theorem test_subn :
    after (regAndFlag 0#4) (.subn 0#4 1#4) (withRegs base [(0#4, 5#8), (1#4, 9#8)]) = some (4#8, 1#8) := by decide

theorem test_subn_borrow :
    after (regAndFlag 0#4) (.subn 0#4 1#4) (withRegs base [(0#4, 9#8), (1#4, 5#8)]) = some (0xFC#8, 0#8) := by decide

/-- V0 = 05, V1 = 0C: from V0 under the quirk, else from V1. -/
theorem test_shr :
    after (regAndFlag 0#4) (.shr 0#4 1#4)
      (withQuirks (withRegs base [(0#4, 5#8), (1#4, 0x0C#8)]) { quirks with shiftVx := true }) = some (2#8, 1#8) ∧
    after (regAndFlag 0#4) (.shr 0#4 1#4) (withRegs base [(0#4, 5#8), (1#4, 0x0C#8)]) = some (6#8, 0#8) := by
  refine ⟨?_, ?_⟩ <;> decide

/-- V0 = 81, V1 = 40. -/
theorem test_shl :
    after (regAndFlag 0#4) (.shl 0#4 1#4)
      (withQuirks (withRegs base [(0#4, 0x81#8), (1#4, 0x40#8)]) { quirks with shiftVx := true }) = some (2#8, 1#8) ∧
    after (regAndFlag 0#4) (.shl 0#4 1#4) (withRegs base [(0#4, 0x81#8), (1#4, 0x40#8)]) = some (0x80#8, 0#8) := by
  refine ⟨?_, ?_⟩ <;> decide

/-! ## Immediates, index, random (95 2.5) -/

theorem test_ldImm : after (fun t => t.getV 0xA#4) (.ldImm 0xA#4 0x7F#8) base = some 0x7F#8 := by decide

/-- V0 = FF plus 1 wraps, VF stays. -/
theorem test_addImm :
    after (regAndFlag 0#4) (.addImm 0#4 1#8) (withRegs base [(0#4, 0xFF#8), (0xF#4, 7#8)]) = some (0#8, 7#8) := by decide

theorem test_ldI : after (fun t => t.i) (.ldI 0x123#12) base = some 0x123#16 := by decide
theorem test_ldILong : after (fun t => t.i) (.ldILong 0x1234#16) base = some 0x1234#16 := by decide

/-- I = FFFF, V0 = 2: 0001, no flag. -/
theorem test_addI :
    after (fun t => (t.i, t.getV 0xF#4)) (.addI 0#4) { withRegs base [(0#4, 2#8)] with i := 0xFFFF#16 } =
      some (1#16, 0#8) := by decide

/-- The draw is AB: AB and 0F is 0B. -/
theorem test_rnd : after (fun t => t.getV 0#4) (.rnd 0#4 0x0F#8) base = some 0x0B#8 := by decide

/-! ## Display (95 2.6) -/

/-- cell(0, 0) = 03, cell(0, 4) = 01; the rest as after reset. -/
def screen : State := { base with fb := (base.fb.setCell 0 0 0x03#8).setCell 0 4 0x01#8 }

theorem test_cls_plane1 : after (fun t => t.fb.cell 0 0) .cls screen = some 0x82#8 := by decide
theorem test_cls_plane0 : after (fun t => t.fb.cell 0 0) .cls { screen with plane := 0#2 } = some 0x83#8 := by decide
theorem test_low :
    after (fun t => (t.fb.res, t.fb.cell 0 0, t.plane)) .low { screen with plane := 2#2 } = some (.low, 0x80#8, 2#2) := by decide
theorem test_high : after (fun t => (t.fb.res, t.fb.cell 0 0)) .high screen = some (.high, 0x80#8) := by decide

/-- 00C2: both planes move. -/
theorem test_scd : after (fun t => (t.fb.cell 2 0, t.fb.cell 0 0)) (.scd 2#4) screen = some (0x83#8, 0x80#8) := by decide

/-- 00C0: nothing changes, no dirty bit set. -/
theorem test_scd_zero : after (fun t => t.fb.cell 0 0) (.scd 0#4) screen = some 0x03#8 := by decide

/-- 00D1: off the top. -/
theorem test_scu : after (fun t => (t.fb.cell 0 0, t.fb.cell 31 0)) (.scu 1#4) screen = some (0x80#8, 0x80#8) := by decide
theorem test_scr : after (fun t => (t.fb.cell 0 4, t.fb.cell 0 8, t.fb.cell 0 0)) .scr screen =
    some (0x83#8, 0x81#8, 0x80#8) := by decide
theorem test_scl : after (fun t => (t.fb.cell 0 0, t.fb.cell 0 4)) .scl screen = some (0x81#8, 0x80#8) := by decide
theorem test_plane :
    after (fun t => (t.plane, t.fb.cell 0 0)) (.plane 2#4) screen = some (2#2, 0x83#8) := by decide

/-- R161, "Faults": a mask of 4 is InvalidInstruction; the selector stays. -/
theorem test_plane_4 :
    after (fun t => (t.plane, t.run, t.fault.map (fun f => f.opcode))) (.plane 4#4) base =
      some (1#2, .halted, some (some 0xF401#16)) := by decide

/-! ## Sprites (95 2.7) -/

/-- 95 2.7: V0 = 3E, F0 at I, wrapped: columns 62, 63, 0, 1. -/
theorem test_drw_wraps :
    after (fun t => (t.fb.cell 0 62, t.fb.cell 0 63, t.fb.cell 0 0, t.fb.cell 0 1, t.getV 0xF#4)) (.drw 0#4 1#4 1#4)
      ((withRegs { base with i := 0x300#16 } [(0#4, 0x3E#8)]).writeByte 0x300#16 0xF0#8) =
      some (0x81#8, 0x81#8, 0x81#8, 0x81#8, 0#8) := by decide

/-- 95 2.7: plane 3, cell(0, 0) = 02, 80 at I and I + 1: 81, and plane 2 collided. -/
theorem test_drw_both_planes :
    after (fun t => (t.fb.cell 0 0, t.getV 0xF#4)) (.drw 0#4 1#4 1#4)
      ({ base with i := 0x300#16, plane := 3#2, fb := base.fb.setCell 0 0 0x02#8 }.writeBytes 0x300#16 [0x80#8, 0x80#8]) =
      some (0x81#8, 1#8) := by decide

/-- 45 R214: byte F0 at column 62 of 64 keeps its two highest bits. -/
theorem test_clipByte : clipByte 64 62 0xF0#8 = 0xC0#8 := by decide

/-! ## Keys (95 2.8) -/

/-- Key 5 down. -/
def key5 : State := { (base.setV 1#4 5#8) with pc := 0x302#16, inp := { inputs with keys := 0x20#256 } }

theorem test_skp : after (fun t => t.pc) (.skp 1#4) key5 = some 0x304#16 := by decide

/-- V1 = 15: all 8 bits pass to the host (key 21 is up). -/
theorem test_skp_all_bits : after (fun t => t.pc) (.skp 1#4) (key5.setV 1#4 0x15#8) = some 0x302#16 := by decide
theorem test_sknp : after (fun t => t.pc) (.sknp 1#4) key5 = some 0x302#16 := by decide
theorem test_ldVxK :
    after (fun t => (t.run, t.kw.target, t.kw.seen)) (.ldVxK 3#4) base = some (.waitingForKey, 3#4, none) := by decide

/-! ## Timers (95 2.9) -/

theorem test_ldVxDt : after (fun t => t.getV 5#4) (.ldVxDt 5#4) { base with dt := 0x3C#8 } = some 0x3C#8 := by decide
theorem test_ldDt : after (fun t => t.dt) (.ldDt 0#4) (base.setV 0#4 3#8) = some 3#8 := by decide
theorem test_ldSt : after (fun t => (t.st, t.au.on)) (.ldSt 2#4) (base.setV 2#4 2#8) = some (2#8, true) := by decide
theorem test_ldSt_zero :
    after (fun t => (t.st, t.au.on)) (.ldSt 0#4) { base with st := 5#8, au := { base.au with on := true } } =
      some (0#8, false) := by decide

/-- The sound timer's last tick gives the audio-stop event and removes the source; DT = 0 does not wrap. -/
theorem test_timerTick :
    ({ base with st := 1#8, au := { base.au with on := true } }.timerTick.1.st,
     { base with st := 1#8, au := { base.au with on := true } }.timerTick.1.au.on,
     { base with st := 1#8, au := { base.au with on := true } }.timerTick.1.dt,
     { base with st := 1#8, au := { base.au with on := true } }.timerTick.2) = (0#8, false, 0#8, true) := by decide

/-! ## Memory operations (95 2.10) -/

/-- V0..V2 = AA BB CC. -/
def abc : State := withRegs base [(0#4, 0xAA#8), (1#4, 0xBB#8), (2#4, 0xCC#8)]

/-- 5022 at FFFE under the quirk: memory wraps, I = 1. -/
theorem test_saveRange_wraps :
    after (fun t => (t.readByte 0xFFFE#16, t.readByte 0xFFFF#16, t.readByte 0#16, t.i)) (.saveRange 0#4 2#4)
      (withQuirks { abc with i := 0xFFFE#16 } { quirks with indexIncrement := true }) =
      some (0xAA#8, 0xBB#8, 0xCC#8, 1#16) := by decide

/-- Descending: V2 first. -/
theorem test_saveRange_descending :
    after (fun t => (t.readByte 0x300#16, t.readByte 0x302#16, t.i)) (.saveRange 2#4 0#4) { abc with i := 0x300#16 } =
      some (0xCC#8, 0xAA#8, 0x300#16) := by decide

/-- Memory 300.. = 02 05 04. -/
def digits : State := { base with i := 0x300#16 }.writeBytes 0x300#16 [2#8, 5#8, 4#8]

theorem test_loadRange_descending :
    after (fun t => (t.getV 7#4, t.getV 6#4, t.getV 5#4, t.getV 4#4)) (.loadRange 7#4 5#4) digits =
      some (2#8, 5#8, 4#8, 0#8) := by decide
theorem test_save :
    after (fun t => (t.readByte 0x300#16, t.readByte 0x301#16, t.i)) (.save 0#4)
      (withQuirks { abc with i := 0x300#16 } { quirks with indexIncrement := true }) = some (0xAA#8, 0#8, 0x301#16) := by
  decide
theorem test_load_regs :
    after (fun t => (t.getV 0#4, t.getV 1#4, t.getV 2#4, t.i)) (.load 2#4) digits = some (2#8, 5#8, 4#8, 0x300#16) := by
  decide
theorem test_ldF : after (fun t => t.i) (.ldF 0#4) (base.setV 0#4 0x1A#8) = some 0x32#16 := by decide
theorem test_ldHf : after (fun t => t.i) (.ldHf 0#4) (base.setV 0#4 0x0F#8) = some 0xE6#16 := by decide
theorem test_bcd :
    after (fun t => (t.readByte 0x300#16, t.readByte 0x301#16, t.readByte 0x302#16, t.i)) (.bcd 0#4)
      { base.setV 0#4 0xFE#8 with i := 0x300#16 } = some (2#8, 5#8, 4#8, 0x300#16) := by decide
theorem test_bcd_100 :
    after (fun t => (t.readByte 0x300#16, t.readByte 0x301#16, t.readByte 0x302#16)) (.bcd 0#4)
      { base.setV 0#4 0x64#8 with i := 0x300#16 } = some (1#8, 0#8, 0#8) := by decide
theorem test_saveFlags :
    after (fun t => (t.flags[0], t.flags[1], t.flags[2])) (.saveFlags 1#4) abc = some (0xAA#8, 0xBB#8, 0#8) := by decide
theorem test_loadFlags :
    after (fun t => (t.getV 0#4, t.getV 1#4, t.getV 2#4)) (.loadFlags 1#4)
      { abc with flags := (Vector.replicate 16 0#8).set 0 7#8 } = some (7#8, 0#8, 0xCC#8) := by decide

/-! ## Audio (95 2.11) -/

/-- Memory 400 = A0, I = 400, after `F002`. -/
def pattern : State := ({ base with i := 0x400#16 }.writeByte 0x400#16 0xA0#8).setBaseAddr 0x400#16

/-- A1: base 400, cursor 0, phase 0, bit 1. -/
theorem test_audio :
    after (fun t => t.au) .audio ({ base with i := 0x400#16 }.writeByte 0x400#16 0xA0#8) =
      some { base := 0x400#16, cursor := 0#7, phase := 0, bit := true, on := false } := by decide

/-- A3: `Generate(2000, 4)`: A A 0 0, cursor 8 after it. -/
theorem test_generate :
    ((pattern.generate 2000 4).1, (pattern.generate 2000 4).2.au.cursor) = ([9, 9, 0, 0], 8#7) := by decide

/-- The same with the source installed. -/
def patternOn : State := pattern.setAudio true

/-- A3 in the agent's own moves: 13 after the call begins (4 samples, 8 advances, the return). -/
theorem test_call_in_moves :
    ((patternOn.beginCall ⟨1999, 4⟩).playOn 13).samples = [9, 9, 0, 0] ∧
    ((patternOn.beginCall ⟨1999, 4⟩).playOn 13).au.cursor = 8#7 ∧
    ((patternOn.beginCall ⟨1999, 4⟩).playOn 13).gen.isNone = true := by
  refine ⟨?_, ?_, ?_⟩ <;> decide

/-- R316: the source is removed after the call began: cursor and phase stay, and the current bit goes on (log 28). -/
theorem test_call_without_source :
    (((patternOn.beginCall ⟨1999, 2⟩).setAudio false).playOn 3).samples = [9, 9] ∧
    (((patternOn.beginCall ⟨1999, 2⟩).setAudio false).playOn 3).au = { pattern.au with on := false } := by
  refine ⟨?_, ?_⟩ <;> decide

/-- R65: FE as digits at 0x300; with one byte write passed the agent reads 2 at 0x300 and the old 0 at 0x301. -/
theorem test_bcd_part_done :
    after (fun t => ({ t with unseen := t.unseen.drop 1 }.audioByte 0x300#16, { t with unseen := t.unseen.drop 1 }.audioByte
        0x301#16, t.readByte 0x301#16)) (.bcd 0#4) { base.setV 0#4 0xFE#8 with i := 0x300#16 } =
      some (2#8, 0#8, 5#8) := by decide

/-! ## Witnesses: for every statement with hypotheses, a state and operands that meet them all, each clause at a boundary -/

theorem witness_DecodeOfEncodeIsTheInstruction : (Instr.drw 0xF#4 0#4 0xF#4).wellFormed = true ∧
    (Instr.ldILong 0xFFFF#16).wellFormed = true ∧ (Instr.plane 3#4).wellFormed = true := ⟨rfl, rfl, by decide⟩

theorem witness_EncodeOfDecodeIsTheWord : decodeWord 0xF000#16 0x1234#16 = some (.ldILong 0x1234#16) := by decide

/-- `F002` at 0x200, the lowest address a step fetches at. -/
def placed : State := running.writeBytes 0x200#16 [0xF0#8, 0x02#8]

theorem witness_StepRunsTheDecodedInstruction :
    placed.audioQuiet ∧ placed.tick = .inTick (0 + 1) ∧ placed.run = .running ∧ 0x200#16 ≤ placed.pc ∧
    decodeWord (placed.read16 placed.pc) (placed.read16 (placed.pc + 2#16)) = some .audio :=
  ⟨rfl, rfl, rfl, by decide, by decide⟩

/-- One below the entry point. -/
def below : State := { running with pc := 0x1FF#16 }

theorem witness_StepBelowTheEntryPointFaults :
    below.audioQuiet ∧ below.tick = .inTick (0 + 1) ∧ below.run = .running ∧ below.pc < 0x200#16 :=
  ⟨rfl, rfl, rfl, by decide⟩

/-- Memory is 0 at 0x200, and `0000` is invalid. -/
theorem witness_StepOnAnInvalidWordFaults :
    running.audioQuiet ∧ running.tick = .inTick (0 + 1) ∧ running.run = .running ∧ 0x200#16 ≤ running.pc ∧
    decodeWord (running.read16 running.pc) (running.read16 (running.pc + 2#16)) = none :=
  ⟨rfl, rfl, rfl, by decide, by decide⟩

theorem witness_TickStartReadsTheBudget :
    base.audioQuiet ∧ base.tick = .between ∧ base.inp.call = .tick ∧ base.run = .running := ⟨rfl, rfl, rfl, rfl⟩

/-- A waiting machine. -/
def waiting : State := { base with run := .waitingForKey }

/-- A waiting machine in a tick with budget left. -/
def waitingInTick : State := { waiting with tick := .inTick 1 }

/-- A machine whose budget is used up. -/
def spent : State := { base with tick := .inTick 0 }

/-- The backend cleans the last active cell of the screen, and a cell outside it. -/
def cleaning : State := { spent with inp := { inputs with renderClean := [(31, 63), (32, 63)] } }

theorem witness_TickEndRendersThenRunsTheTimers :
    (cleaning.audioQuiet ∧ cleaning.tick = .inTick 0 ∧ cleaning.run ≠ .halted) ∧
    (waitingInTick.audioQuiet ∧ waitingInTick.tick = .inTick 1 ∧ waitingInTick.run = .waitingForKey ∧
      waitingInTick.run ≠ .halted) ∧
    (31 < cleaning.fb.res.height ∧ 63 < cleaning.fb.res.width ∧ (31, 63) ∈ cleaning.inp.renderClean ∧
      (31, 62) ∉ cleaning.inp.renderClean) :=
  ⟨⟨rfl, rfl, by decide⟩, ⟨rfl, rfl, rfl, by decide⟩, by decide, by decide, by decide, by decide⟩

/-- A halted machine, between two ticks and inside one. -/
def halted : State := { base with run := .halted }
def haltedInTick : State := { halted with tick := .inTick 0 }

theorem witness_HaltedTickChangesNothing :
    (halted.audioQuiet ∧ halted.run = .halted ∧ halted.tick = .between ∧ halted.inp.call = .tick) ∧
    (haltedInTick.audioQuiet ∧ haltedInTick.run = .halted ∧ haltedInTick.tick = .inTick 0) :=
  ⟨⟨rfl, rfl, rfl, rfl⟩, rfl, rfl, rfl⟩

/-- A waiting machine between two ticks: the latch, the keys down, the key seen. -/
def waitingWith (edge : Bool) (keys : BitVec 256) (seen : Option (BitVec 4)) : State :=
  { waiting with
    params := { params with keyWaitEdge := edge }
    inp := { inputs with keys := keys }
    kw := { target := 3#4, seen := seen } }

/-- The premises of both key-wait statements, whatever the latch, the keys and the key seen. -/
theorem witness_keyWait (edge : Bool) (keys : BitVec 256) (seen : Option (BitVec 4)) :
    (waitingWith edge keys seen).audioQuiet ∧ (waitingWith edge keys seen).tick = .between ∧
    (waitingWith edge keys seen).inp.call = .tick ∧ (waitingWith edge keys seen).run = .waitingForKey ∧
    (waitingWith edge keys seen).params.keyWaitEdge = edge ∧ (waitingWith edge keys seen).kw.seen = seen ∧
    (waitingWith edge keys seen).inp.keys = keys := ⟨rfl, rfl, rfl, rfl, rfl, rfl, rfl⟩

/-- The premises of the clauses on such machines: no key down (and none, or key 15, seen); the least key down is 0, is 15; a
key down and key 15 seen. -/
theorem witness_KeyWaitServiceEdgeTriggered :
    (∀ j < 16, (waitingWith true 0#256 none).inp.keys.getLsbD j = false) ∧
    (∀ j < 16, (waitingWith true 0#256 (some 15#4)).inp.keys.getLsbD j = false) ∧
    ((waitingWith true 1#256 none).inp.keys.getLsbD (0#4).toNat = true ∧
      ∀ j < (0#4).toNat, (waitingWith true 1#256 none).inp.keys.getLsbD j = false) ∧
    ((waitingWith true 0x8000#256 none).inp.keys.getLsbD (15#4).toNat = true ∧
      ∀ j < (15#4).toNat, (waitingWith true 0x8000#256 none).inp.keys.getLsbD j = false) ∧
    (waitingWith true 0x8000#256 (some 15#4)).inp.keys.getLsbD 15 = true :=
  ⟨by decide, by decide, ⟨by decide, by decide⟩, ⟨by decide, by decide⟩, by decide⟩

/-- No key down; the least key down is 0, is 15. -/
theorem witness_KeyWaitServiceLevelTriggered :
    (∀ j < 16, (waitingWith false 0#256 none).inp.keys.getLsbD j = false) ∧
    ((waitingWith false 1#256 none).inp.keys.getLsbD (0#4).toNat = true ∧
      ∀ j < (0#4).toNat, (waitingWith false 1#256 none).inp.keys.getLsbD j = false) ∧
    ((waitingWith false 0x8000#256 none).inp.keys.getLsbD (15#4).toNat = true ∧
      ∀ j < (15#4).toNat, (waitingWith false 0x8000#256 none).inp.keys.getLsbD j = false) :=
  ⟨by decide, ⟨by decide, by decide⟩, by decide, by decide⟩

/-- A halted machine, an image of one byte: 0x200 is inside it, 0x201 is not. -/
def loading : State := { halted with inp := { inputs with call := .load [0x12#8] } }

theorem witness_LoadResetsTheMachineAndCopiesTheImage :
    loading.audioQuiet ∧ loading.tick = .between ∧ loading.inp.call = .load [0x12#8] ∧
    (0x200 ≤ (0x200#16).toNat ∧ (0x200#16).toNat - 0x200 < [0x12#8].length) ∧
    ¬(0x200 ≤ (0x201#16).toNat ∧ (0x201#16).toNat - 0x200 < [0x12#8].length) :=
  ⟨rfl, rfl, rfl, by decide, by decide⟩

/-- The invariant holds of it. -/
theorem base_inv : base.Inv :=
  ⟨sparseWf_nil _, ⟨sparseWf_nil _, by simp [base, State.reset]⟩, by decide, by decide, by decide, fun g h => nomatch h⟩

theorem witness_EveryStepKeepsTheInvariant : base.Inv ∧ ∃ t, step base = .next t := ⟨base_inv, _, rfl⟩

theorem witness_NoStepChangesAParameter : ∃ t, step base = .next t := ⟨_, rfl⟩

theorem witness_HaltedIsLeftOnlyByLoad :
    halted.run = .halted ∧ (∀ image, halted.tick = .between → halted.inp.call ≠ .load image) ∧
    ∃ t, step halted = .next t := ⟨rfl, by simp [halted, base, inputs], _, rfl⟩

theorem witness_OnlyDisplayInstructionsChangeTheFramebuffer : ∃ t, exec .high base = .next t ∧ t.fb ≠ base.fb :=
  ⟨_, rfl, by decide⟩

theorem witness_OnlyStoresChangeMemory : ∃ t, exec (.save 0#4) abc = .next t ∧ t.mem ≠ abc.mem := ⟨_, rfl, by decide⟩

theorem witness_OnlyCallAndRetReachTheStack :
    ∃ t, exec (.call 0x300#12) base = .next t ∧ (t.sp ≠ base.sp ∨ t.stack ≠ base.stack) := ⟨_, rfl, by decide⟩

theorem witness_RegistersAreWrittenAsListed :
    ∃ t, exec (.addReg 1#4 2#4) base = .next t ∧ (3#4 : Reg) ∉ instrRegisterWrites (.addReg 1#4 2#4) :=
  ⟨_, rfl, by decide⟩

/-- One instruction for each clause. -/
theorem witness_SpecialRegistersAreWrittenAsListed :
    (∃ t, exec (.ldI 1#12) base = .next t ∧ t.i ≠ base.i) ∧ (∃ t, exec (.ldDt 0#4) abc = .next t ∧ t.dt ≠ abc.dt) ∧
    (∃ t, exec (.ldSt 0#4) abc = .next t ∧ t.st ≠ abc.st) ∧ (∃ t, exec (.plane 3#4) base = .next t ∧ t.plane ≠ base.plane) ∧
    (∃ t, exec (.saveFlags 0#4) abc = .next t ∧ t.flags ≠ abc.flags) ∧
    ∃ t, exec .audio { base with i := 1#16 } = .next t ∧ t.au.base ≠ base.au.base :=
  ⟨⟨_, rfl, by decide⟩, ⟨_, rfl, by decide⟩, ⟨_, rfl, by decide⟩, ⟨_, rfl, by decide⟩, ⟨_, rfl, by decide⟩, _, rfl, by decide⟩

/-- One instruction for each clause. -/
theorem witness_ControlStateIsWrittenAsListed :
    (Instr.jp 0x300#12).wellFormed = true ∧ (∃ t, exec (.jp 0x300#12) base = .next t ∧ t.pc ≠ base.pc) ∧
    (∃ t, exec .exit base = .next t ∧ t.run ≠ base.run) ∧ (∃ t, exec .ret base = .next t ∧ t.fault ≠ base.fault) ∧
    ∃ t, exec (.ldVxK 1#4) base = .next t ∧ t.kw ≠ base.kw :=
  ⟨rfl, ⟨_, rfl, by decide⟩, ⟨_, rfl, by decide⟩, ⟨_, rfl, by decide⟩, _, rfl, by decide⟩

/-- The last free slot, the last entry, the full stack, the empty stack. -/
theorem witness_stack : { base with sp := 15 }.sp.val < 16 ∧ 0 < { base with sp := 1 }.sp.val ∧
    { base with sp := 16 }.sp = 16 ∧ base.sp = 0 := by decide

/-- The smallest and the largest amount of a scroll that moves. -/
theorem witness_ScrollsMoveBothPlanes : (1#4 : BitVec 4) ≠ 0#4 ∧ (15#4 : BitVec 4) ≠ 0#4 := by decide

theorem witness_PlaneSelectsAndInvalidates : (3#4 : BitVec 4) ≤ 3#4 := by decide

theorem witness_ShiftsSetTheFlag :
    ∃ src : Byte, src = (if base.inp.quirks.shiftVx then base.getV 0#4 else base.getV 1#4) := ⟨_, rfl⟩

/-- W2: a write onto clear cells does not collide. -/
theorem witness_WritingTwiceCollidesAndRestores :
    (0xFF#8 : Byte) ≠ 0#8 ∧ (base.fb.write .one 0 0 0xFF#8).2 = false := by decide

/-- A sprite of one row, 80 at I, at (0, 0): its pixel is cell (0, 0) of plane 1 and no cell of plane 2. -/
def dot : State := { base with i := 0x300#16 }.writeByte 0x300#16 0x80#8

theorem witness_DrwDrawsTheSpriteAndSetsVF :
    dot.spritePixel 0#4 0#4 1#4 .one 0 0 ∧ ¬dot.spritePixel 0#4 0#4 1#4 .two 0 0 :=
  ⟨⟨by decide, 0, by decide, 0, by decide, by decide, by decide, by decide, by decide⟩, fun h => absurd h.1 (by decide)⟩

theorem witness_DrwWithNoPlaneDrawsNothing : { base with plane := 0#2 }.plane = 0#2 := rfl

theorem witness_GeneratePlaysThePattern : 0 < 1 := by decide

/-- The source installed, and a call at rate 1 for one sample. -/
def playing : State := { base with au := { base.au with on := true }, inp := { inputs with audio := some ⟨0, 1⟩ } }

/-- A call at rate 2000 in progress, `left` samples still to come; the host gives the agent its turn or not. -/
def generating (audio : Option AudioCall) (advancing : Bool) (left phase : Nat) : State :=
  { playing with
    gen := some { call := ⟨1999, 4⟩, left := left, advancing := advancing, out := [] }
    au := { playing.au with phase := phase }
    inp := { inputs with audio := audio } }

/-- An instruction is next while a call is in progress and the host gives the audio agent no turn. I is 0, the base too, and
cursor, phase and bit are 0, so that `AUDIO` would write what the generator holds. -/
def nextDuringCall (bytes : List Byte) : State := { generating none true 1 0 with tick := .inTick 1 }.writeBytes 0x200#16 bytes

/-- `AUDIO` is next: the interpreter waits for the call. -/
def waitingForCall : State := nextDuringCall [0xF0#8, 0x02#8]

/-- The source is removed while a call is in progress. -/
def silenced : State :=
  { generating (some ⟨0, 0⟩) true 1 2000 with au := { (generating (some ⟨0, 0⟩) true 1 2000).au with on := false } }

/-- A Load comes while a call is in progress. -/
def loadDuringCall : State := { generating none true 1 0 with inp := { inputs with call := .load [0x12#8] } }

/-- Each clause: a call begins; a call goes on because the host says so (the phase just at the rate: an advance; just below
it: a sample; no sample left: the return), with no source installed, and because the interpreter needs the generator (AUDIO,
Load); a call is in progress and nobody asks. -/
theorem witness_AudioStepsPlayTheCall :
    (playing.gen = none ∧ playing.au.on = true ∧ playing.inp.audio = some ⟨0, 1⟩) ∧
    ((generating (some ⟨0, 0⟩) true 1 2000).gen.isSome = true ∧ (generating (some ⟨0, 0⟩) true 1 2000).inp.audio ≠ none ∧
      (generating (some ⟨0, 0⟩) true 1 2000).gen.map (fun g => decide (g.call.rate ≤ 2000)) = some true) ∧
    (generating (some ⟨0, 0⟩) true 1 1999).gen.map (fun g => decide (g.call.rate ≤ 1999)) = some false ∧
    (generating (some ⟨0, 0⟩) true 0 1999).gen.map (fun g => g.left) = some 0 ∧
    (silenced.gen.isSome = true ∧ silenced.inp.audio ≠ none ∧ silenced.au.on = false ∧ ∃ t, step silenced = .next t) ∧
    (waitingForCall.gen.isSome = true ∧ waitingForCall.inp.audio = none ∧ waitingForCall.needsGenerator = true) ∧
    (loadDuringCall.gen.isSome = true ∧ loadDuringCall.inp.audio = none ∧ loadDuringCall.needsGenerator = true) ∧
    ((generating none true 1 0).gen.isSome = true ∧ (generating none true 1 0).inp.audio = none ∧
      (generating none true 1 0).needsGenerator = false ∧ ∃ t, step (generating none true 1 0) = .next t) :=
  ⟨⟨rfl, rfl, rfl⟩, ⟨rfl, by decide, by decide⟩, by decide, rfl, ⟨rfl, by decide, rfl, _, rfl⟩,
    ⟨rfl, rfl, by decide⟩, ⟨rfl, rfl, by decide⟩, rfl, rfl, by decide, _, rfl⟩

/-- A block store, and an instruction that stores nothing; with one byte write passed, I is among the passed, I + 1 not. -/
theorem witness_StoresAreSeenPartDone :
    (∃ t, exec (.saveRange 0#4 2#4) { abc with unseen := [] } = .next t) ∧
    (∃ t, exec .cls { abc with unseen := [] } = .next t) ∧
    (abc.i - abc.i).toNat < 1 ∧ ¬(abc.i + 1#16 - abc.i).toNat < 1 :=
  ⟨⟨_, rfl⟩, ⟨_, rfl⟩, by decide, by decide⟩

theorem witness_AnUninterruptedCallIsGenerate : patternOn.au.on = true ∧ patternOn.unseen = [] := by decide

theorem witness_LoadRangeAfterSaveRangeRestores :
    ∃ t u, exec (.saveRange 7#4 3#4) abc = .next t ∧
      exec (.loadRange 7#4 3#4) { t with i := abc.i, v := Vector.replicate 16 0#8 } = .next u ∧ 5#4 ∈ regRange 7#4 3#4 :=
  ⟨_, _, rfl, rfl, by decide⟩

/-! ## The tick, the key wait and Load, one step each (95 2.8, 2.12, 2.13) -/

/-- K3: in tick 4 no key is down, key 5 was seen: V3 = 5, Running. -/
theorem test_keyWait_latches :
    viewNext (fun t => (t.getV 3#4, t.run, t.kw.seen)) (step (waitingWith true 0#256 (some 5#4))) =
      some (5#8, .running, none) := by decide

/-- K3: in tick 2 keys 5 and 9 are down: 5 is remembered. K4: level-triggered, V3 = 5 at once. -/
theorem test_keyWait_sees_the_least :
    viewNext (fun t => (t.kw.seen, t.run)) (step (waitingWith true 0x220#256 none)) = some (some 5#4, .waitingForKey) ∧
    viewNext (fun t => (t.getV 3#4, t.run)) (step (waitingWith false 0x220#256 none)) = some (5#8, .running) := by
  refine ⟨?_, ?_⟩ <;> decide

/-- R317: `AUDIO` waits for the call in progress, though it would write what the generator holds; the call emits its
sample in this step, and the pc stays. -/
theorem test_audio_waits_for_the_call :
    viewNext (fun t => (t.pc, t.gen.map (fun g => (g.left, g.out)))) (step waitingForCall) =
      some (0x200#16, some (0, [0])) ∧
    after (fun t => t.au) .audio waitingForCall = some waitingForCall.au := by
  refine ⟨?_, ?_⟩ <;> decide

/-- R75, R318: `FX18` with V0 = 0 does not wait: the source is removed, and the call is still in progress. -/
theorem test_ldSt_does_not_wait :
    viewNext (fun t => (t.pc, t.au.on, t.gen.map (fun g => g.left))) (step (nextDuringCall [0xF0#8, 0x18#8])) =
      some (0x202#16, false, some 1) := by decide

/-- R123: only the dirty marker of the cell the backend names is cleared. -/
theorem test_render_cleans :
    viewNext (fun t => (t.fb.cell 31 63, t.fb.cell 31 62)) (step cleaning) = some (0x00#8, 0x80#8) := by decide

/-- 2.12: budget 0, DT = 3: DT = 2, and Tick returns Render's answer and no audio stop. -/
theorem test_tick_end :
    viewNext (fun t => (t.dt, t.lastTick)) (step { spent with dt := 3#8 }) = some (2#8, some ⟨true, false⟩) := by decide

/-- 2.12: a halted tick changes nothing and returns false. -/
theorem test_tick_halted :
    viewNext (fun t => (t.dt, t.lastTick)) (step { halted with dt := 3#8 }) = some (3#8, some ⟨false, false⟩) := by decide

/-- L1, L3: the image byte at 0x200, the rest 0, the machine Running. -/
theorem test_load :
    viewNext (fun t => (t.readByte 0x200#16, t.readByte 0x201#16, t.run, t.pc)) (step loading) =
      some (0x12#8, 0#8, .running, 0x200#16) := by decide

end Sys2Proof.Tests
end

section
/-! What one step leaves unchanged of the model's own fields: no instruction writes the parameters, the counter or the place
in the tick, and no part of a tick writes the parameters or the counter (00_scope.md R9; log 1). -/

namespace Sys2Proof.Machine

/-! ## The call stack -/

/-- `push` changes nothing but the stack and its pointer. -/
theorem State.push_eq {s t : State} {a : Word} (h : s.push a = some t) : t = { s with sp := t.sp, stack := t.stack } := by
  unfold State.push at h
  split at h
  · obtain rfl := Option.some.inj h
    rfl
  · cases h

/-- `pop` changes nothing but the stack pointer. -/
theorem State.pop_eq {s t : State} {a : Word} (h : s.pop = some (a, t)) : t = { s with sp := t.sp } := by
  unfold State.pop at h
  split at h
  · obtain ⟨-, rfl⟩ := Prod.mk.inj (Option.some.inj h)
    rfl
  · cases h

/-! ## Instructions -/

/-- Of the model's own fields, `t` may differ from `s` in the byte writes still unseen only. -/
structure State.OwnFieldsKept (s t : State) : Prop where
  params : t.params = s.params
  tick : t.tick = s.tick
  lastTick : t.lastTick = s.lastTick
  samples : t.samples = s.samples
  gen : t.gen = s.gen
  inp : t.inp = s.inp
  turn : t.turn = s.turn

/-- Taking a fault touches the record and the run state only. -/
theorem State.raise_ownFieldsKept (s : State) (r : FaultReason) (w : Option Word) : s.OwnFieldsKept (s.raise r w) := by
  constructor <;> rfl

theorem execCall_ownFieldsKept {nnn : BitVec 12} {s t : State} (h : execCall nnn s = .next t) : s.OwnFieldsKept t := by
  unfold execCall at h
  split at h
  · next u hu =>
    obtain rfl := Host.Outcome.next.inj h
    rw [State.push_eq hu]
    constructor <;> rfl
  · obtain rfl := Host.Outcome.next.inj h
    exact s.raise_ownFieldsKept _ _

theorem execRet_ownFieldsKept {s t : State} (h : execRet s = .next t) : s.OwnFieldsKept t := by
  unfold execRet at h
  split at h
  · next a u hu =>
    obtain rfl := Host.Outcome.next.inj h
    rw [State.pop_eq hu]
    constructor <;> rfl
  · obtain rfl := Host.Outcome.next.inj h
    exact s.raise_ownFieldsKept _ _

theorem execPlane_ownFieldsKept {n : BitVec 4} {s t : State} (h : execPlane n s = .next t) : s.OwnFieldsKept t := by
  obtain rfl := Host.Outcome.next.inj h
  split
  · constructor <;> rfl
  · exact s.raise_ownFieldsKept _ _

/-- No instruction writes a field of the model's own, but the notes of its byte writes. The three meanings that branch have
a lemma each; every other one is a composition of named updates, whose field lemmas say the rest. -/
theorem exec_ownFieldsKept {i : Instr} {s t : State} (h : exec i s = .next t) : s.OwnFieldsKept t := by
  cases i
  case call nnn => exact execCall_ownFieldsKept h
  case ret => exact execRet_ownFieldsKept h
  case plane n => exact execPlane_ownFieldsKept h
  all_goals
    obtain rfl := Host.Outcome.next.inj h
    constructor <;> simp

/-- One instruction, the fetch and its faults included, writes no field of the model's own but the notes. -/
theorem State.runOne_ownFieldsKept {s t : State} (h : s.runOne = .next t) : s.OwnFieldsKept t := by
  obtain ⟨-, hr⟩ | ⟨w, hr⟩ | ⟨i, a, hr⟩ := s.runOne_cases
  · obtain rfl := Host.Outcome.next.inj (hr.symm.trans h)
    exact s.raise_ownFieldsKept _ _
  · obtain rfl := Host.Outcome.next.inj (hr.symm.trans h)
    exact { (s.jump (s.pc + 2#16)).raise_ownFieldsKept .invalidInstruction (some w) with }
  · exact { exec_ownFieldsKept (hr.symm.trans h) with }

/-! ## The tick around the instructions -/

/-- The end of a tick changes nothing but the screen, the timers, the playback state and what is noted of the tick. -/
theorem State.finishTick_eq (s : State) : s.finishTick =
    { s with
      fb := s.finishTick.fb
      dt := s.finishTick.dt
      st := s.finishTick.st
      au := s.finishTick.au
      tick := s.finishTick.tick
      lastTick := s.finishTick.lastTick } := by
  unfold State.finishTick
  split
  · rfl
  · simp only [State.timerTick]
    rw [State.tickSound_eq, State.tickDelay_eq]
    rfl

/-- The start of a tick changes nothing but what the key-wait service writes and what is noted of the tick. -/
theorem State.startTick_eq (s : State) : s.startTick =
    { s with
      v := s.startTick.v
      kw := s.startTick.kw
      run := s.startTick.run
      tick := s.startTick.tick
      lastTick := s.startTick.lastTick } := by
  unfold State.startTick
  split
  · rfl
  · rw [State.serviceKeyWait_eq]
  · rfl

/-- A Load keeps the parameters (70_reset_and_hazards.md R360; log 14). -/
@[simp] theorem State.loadImage_params (s : State) (image : List Byte) : (s.loadImage image).params = s.params :=
  State.writeBytes_params s.fullReset _ _

/-- A Load keeps the counter (log 14). -/
@[simp] theorem State.loadImage_turn (s : State) (image : List Byte) : (s.loadImage image).turn = s.turn :=
  State.writeBytes_turn s.fullReset _ _

/-- Whatever the host calls, the parameters stay. -/
@[simp] theorem State.hostCall_params (s : State) : s.hostCall.params = s.params := by
  unfold State.hostCall
  split
  · rw [State.startTick_eq]
  · exact State.loadImage_params s _

/-- Whatever the host calls, the counter stays. -/
@[simp] theorem State.hostCall_turn (s : State) : s.hostCall.turn = s.turn := by
  unfold State.hostCall
  split
  · rw [State.startTick_eq]
  · exact State.loadImage_turn s _

/-! ## A step -/

/-- What `mapNext` answers is a next state taken on by `f`. -/
theorem mapNext_eq_next {f : State → State} {o : Host.Outcome State Fault Refusal} {t : State} :
    mapNext f o = .next t ↔ ∃ u, o = .next u ∧ f u = t := by
  cases o <;> simp [mapNext]

/-- The interpreter's move keeps the parameters and the counter. -/
theorem State.interpret_params_turn {s t : State} (h : s.interpret = .next t) : t.params = s.params ∧ t.turn = s.turn := by
  obtain ⟨-, hi⟩ | ⟨-, hi⟩ | ⟨left, -, -, hi⟩ := s.interpret_cases
  · obtain rfl := Host.Outcome.next.inj (hi.symm.trans h)
    simp
  · obtain rfl := Host.Outcome.next.inj (hi.symm.trans h)
    rw [State.finishTick_eq]
    simp
  · obtain ⟨u, hu, rfl⟩ := mapNext_eq_next.1 (hi.symm.trans h)
    have hkept := State.runOne_ownFieldsKept hu
    exact ⟨hkept.params, hkept.turn⟩

/-- Settles O18: either agent's move keeps the parameters and the counter, which the end of the step then advances. -/
theorem noStepChangesAParameter : Obligations.NoStepChangesAParameter := by
  intro s t h
  obtain ⟨-, hs⟩ | ⟨-, hs⟩ := step_cases s
  · obtain rfl := Host.Outcome.next.inj (hs.symm.trans h)
    rw [State.audioMove_eq]
    simp
  · obtain ⟨u, hu, rfl⟩ := mapNext_eq_next.1 (hs.symm.trans h)
    obtain ⟨hparams, hturn⟩ := State.interpret_params_turn hu
    simp [hparams, hturn]

end Sys2Proof.Machine
end

section
/-! The three meanings that branch, CALL, RET and PLANE: what each may change, where it faults and where it does not. -/

namespace Sys2Proof.Machine

/-- CALL changes nothing but the pc and the call stack or, where it faults, the record and the run state. -/
theorem execCall_cases {nnn : BitVec 12} {s t : State} (h : exec (.call nnn) s = .next t) :
    (∃ pc sp stack, t = { s with pc := pc, sp := sp, stack := stack }) ∨ ∃ r w, t = s.raise r w := by
  change execCall nnn s = .next t at h
  unfold execCall at h
  split at h
  · next u hu =>
    obtain rfl := Host.Outcome.next.inj h
    rw [State.push_eq hu]
    exact .inl ⟨_, _, _, rfl⟩
  · obtain rfl := Host.Outcome.next.inj h
    exact .inr ⟨_, _, rfl⟩

/-- RET changes nothing but the pc and the stack pointer or, where it faults, the record and the run state. -/
theorem execRet_cases {s t : State} (h : exec .ret s = .next t) :
    (∃ pc sp, t = { s with pc := pc, sp := sp }) ∨ ∃ r w, t = s.raise r w := by
  change execRet s = .next t at h
  unfold execRet at h
  split at h
  · next a u hu =>
    obtain rfl := Host.Outcome.next.inj h
    rw [State.pop_eq hu]
    exact .inl ⟨_, _, rfl⟩
  · obtain rfl := Host.Outcome.next.inj h
    exact .inr ⟨_, _, rfl⟩

/-- PLANE sets the selector and invalidates the screen or, with a mask of 4 or more, faults. -/
theorem execPlane_cases {n : BitVec 4} {s t : State} (h : exec (.plane n) s = .next t) :
    (∃ plane, t = { s with plane := plane, fb := s.fb.invalidate }) ∨ ∃ r w, t = s.raise r w := by
  obtain rfl := Host.Outcome.next.inj h
  split
  · exact .inl ⟨_, rfl⟩
  · exact .inr ⟨_, _, rfl⟩

end Sys2Proof.Machine
end

section
/-! The invariant of Safety.lean holds after reset, and every move of either agent keeps it (O15, O16): one rule for each
operation of the state that touches what the invariant speaks of. -/

namespace Sys2Proof.Machine

/-! ## The invariant through the operations of the state -/

/-- `t` holds what `s` does in every field the invariant speaks of. -/
structure State.InvFieldsKept (s t : State) : Prop where
  params : t.params = s.params
  mem : t.mem = s.mem
  fb : t.fb = s.fb
  fault : t.fault = s.fault
  run : t.run = s.run
  kw : t.kw = s.kw
  st : t.st = s.st
  on : t.au.on = s.au.on
  gen : t.gen = s.gen

theorem State.Inv.of_fieldsKept {s t : State} (h : s.Inv) (k : s.InvFieldsKept t) : t.Inv where
  memory := by rw [k.params, k.mem]; exact h.memory
  framebuffer := by rw [k.fb]; exact h.framebuffer
  faultHalted := by rw [k.fault, k.run]; exact h.faultHalted
  keySeen := by rw [k.kw, k.run, k.params]; exact h.keySeen
  audioInstalled := by rw [k.on, k.st]; exact h.audioInstalled
  generating := by rw [k.gen]; exact h.generating

theorem State.Inv.fault_eq_none {s : State} (h : s.Inv) (hr : s.run ≠ .halted) : s.fault = none :=
  Option.not_isSome_iff_eq_none.1 (fun hf => hr (h.faultHalted hf))

theorem State.Inv.seen_eq_none {s : State} (h : s.Inv) (hr : s.run ≠ .waitingForKey) : s.kw.seen = none :=
  Option.not_isSome_iff_eq_none.1 (fun hk => hr (h.keySeen hk).1)

/-- A Running machine may halt, with a fault record or without one (60_exceptions.md R337). -/
theorem State.Inv.halt {s : State} (h : s.Inv) (hr : s.run = .running) (f : Option FaultRecord) :
    ({ s with run := .halted, fault := f } : State).Inv :=
  { h with
    faultHalted := fun _ => rfl
    keySeen := by simp [h.seen_eq_none (by simp [hr])] }

theorem State.Inv.raise {s : State} (h : s.Inv) (hr : s.run = .running) (r : FaultReason) (w : Option Word) :
    (s.raise r w).Inv :=
  h.halt hr _

theorem State.Inv.setFb {s : State} (h : s.Inv) {fb : Framebuffer} (hfb : fb.wf) : ({ s with fb := fb } : State).Inv :=
  { h with framebuffer := hfb }

/-- A canonical memory may stand in place of the one held, whatever byte writes are noted. -/
theorem State.Inv.setMem {s : State} (h : s.Inv) {m : Memory} (hm : Memory.wf s.params m) (u : List (Word × Byte)) :
    ({ s with mem := m, unseen := u } : State).Inv :=
  { h with memory := hm }

theorem State.Inv.writeBytes {s : State} (h : s.Inv) (a : Word) (bs : List Byte) : (s.writeBytes a bs).Inv := by
  have hm := State.writeBytes_memory_wf h.memory a bs
  rw [State.writeBytes_params] at hm
  rw [State.writeBytes_eq]
  exact h.setMem hm s.unseen

theorem State.Inv.storeBytes {s : State} (h : s.Inv) (a : Word) (bs : List Byte) : (s.storeBytes a bs).Inv := by
  have hm := State.storeBytes_memory_wf h.memory a bs
  rw [State.storeBytes_params] at hm
  rw [State.storeBytes_frame]
  exact h.setMem hm _

/-- The wait begins with no key seen, and no fault stands in a Running machine (46_input.md R243). -/
theorem State.Inv.beginKeyWait {s : State} (h : s.Inv) (hr : s.run = .running) (x : Reg) :
    ({ s with run := .waitingForKey, kw := { target := x, seen := none } } : State).Inv :=
  { h with
    faultHalted := by simp [h.fault_eq_none (by simp [hr])]
    keySeen := by simp }

/-- The sound timer is set and the source is installed or removed with it (47_timers.md R262). -/
theorem State.Inv.setSound {s : State} (h : s.Inv) (b : Byte) : ({ s with st := b }.setAudio (b != 0#8)).Inv :=
  { h with audioInstalled := by simp }

/-! ## An instruction -/

/-- Every instruction of a Running machine keeps the invariant. -/
theorem State.Inv.exec_next {s t : State} {i : Instr} (h : s.Inv) (hr : s.run = .running) (he : exec i s = .next t) :
    t.Inv := by
  cases i
  case call nnn =>
    obtain ⟨pc, sp, stack, rfl⟩ | ⟨r, w, rfl⟩ := execCall_cases he
    · exact { h with }
    · exact h.raise hr r w
  case ret =>
    obtain ⟨pc, sp, rfl⟩ | ⟨r, w, rfl⟩ := execRet_cases he
    · exact { h with }
    · exact h.raise hr r w
  case plane n =>
    obtain ⟨plane, rfl⟩ | ⟨r, w, rfl⟩ := execPlane_cases he
    · exact { h.setFb (Framebuffer.invalidate_wf h.framebuffer) with }
    · exact h.raise hr r w
  all_goals obtain rfl := Host.Outcome.next.inj he
  case cls => exact h.setFb (Framebuffer.clearPlanes_wf h.framebuffer _)
  case low => exact h.setFb (Framebuffer.setResolution_wf _ _)
  case high => exact h.setFb (Framebuffer.setResolution_wf _ _)
  case scd | scu | scr | scl => exact h.setFb (Framebuffer.scroll_wf h.framebuffer _ _)
  case drw x y n => exact { h.setFb (State.sprite_wf h.framebuffer x y n) with }
  case exit => exact h.halt hr s.fault
  case ldVxK x => exact h.beginKeyWait hr x
  case ldSt x => exact h.setSound (s.getV x)
  case bcd x => exact h.storeBytes _ _
  case saveRange | save => exact { h.storeBytes _ _ with }
  all_goals exact h.of_fieldsKept (by constructor <;> simp)

theorem State.Inv.runOne {s t : State} (h : s.Inv) (hr : s.run = .running) (he : s.runOne = .next t) : t.Inv := by
  obtain ⟨-, hs⟩ | ⟨w, hs⟩ | ⟨i, a, hs⟩ := s.runOne_cases
  · obtain rfl := Host.Outcome.next.inj (hs.symm.trans he)
    exact h.raise hr _ _
  · obtain rfl := Host.Outcome.next.inj (hs.symm.trans he)
    exact ({ h with } : (s.jump (s.pc + 2#16)).Inv).raise hr _ _
  · exact ({ h with } : (s.jump a).Inv).exec_next hr (hs.symm.trans he)

/-! ## The tick around the instructions -/

/-- The service of a waiting machine: a key becomes seen in the edge-triggered wait only, and where the wait ends no key
stays seen (46_input.md R244). -/
theorem State.Inv.serviceKeyWait {s : State} (h : s.Inv) (hr : s.run = .waitingForKey) : s.serviceKeyWait.Inv := by
  have hfault : s.fault = none := h.fault_eq_none (by simp [hr])
  unfold State.serviceKeyWait
  split
  · next hedge =>
    split
    · split
      · exact { h with keySeen := fun _ => ⟨hr, hedge⟩ }
      · exact h
    · split
      · exact h
      · exact { h with
          faultHalted := by simp [hfault]
          keySeen := by simp }
  · next hlevel =>
    split
    · exact { h with
        faultHalted := by simp [hfault]
        keySeen := fun hk => absurd (h.keySeen hk).2 hlevel }
    · exact h

theorem State.Inv.startTick {s : State} (h : s.Inv) : s.startTick.Inv := by
  unfold State.startTick
  split
  · exact { h with }
  · next hr => exact { h.serviceKeyWait hr with }
  · exact { h with }

/-- The sound timer's step: it removes the source exactly where it reaches 0 (47_timers.md R267). -/
theorem State.Inv.tickSound {s : State} (h : s.Inv) : s.tickSound.1.Inv := by
  unfold State.tickSound
  split
  · exact h
  · next h0 =>
    split
    · exact h.setSound 0#8
    · next h1 =>
      exact { h with
        audioInstalled := h.audioInstalled.trans (iff_of_true h0 (fun he => h1 (by bv_omega))) }

theorem State.Inv.finishTick {s : State} (h : s.Inv) : s.finishTick.Inv := by
  unfold State.finishTick
  split
  · exact { h with }
  · have hrender : s.render.Inv := h.setFb (Framebuffer.clearDirty_wf h.framebuffer _)
    have hdelay : s.render.tickDelay.Inv := hrender.of_fieldsKept (by constructor <;> simp)
    exact { hdelay.tickSound with }

/-! ## Reset and Load -/

/-- Settles O15: the reset state is in canonical form, Running and silent. -/
theorem resetMeetsTheInvariant : Obligations.ResetMeetsTheInvariant where
  memory := State.reset_memory_wf
  framebuffer := ⟨sparseWf_nil _, by simp [State.reset]⟩
  faultHalted := by simp [State.reset]
  keySeen := by simp [State.reset]
  audioInstalled := by simp [State.reset]
  generating := by simp [State.reset]

/-- The full reset meets the invariant whatever state it starts from: no byte is listed, so the memory is canonical under
any parameters (70_reset_and_hazards.md R360). -/
theorem State.fullReset_inv (s : State) : s.fullReset.Inv :=
  { resetMeetsTheInvariant with
    memory := sparseWf_nil _
    keySeen := nofun }

theorem State.Inv.hostCall {s : State} (h : s.Inv) : s.hostCall.Inv := by
  unfold State.hostCall
  split
  · exact h.startTick
  · exact s.fullReset_inv.writeBytes _ _

/-! ## A step -/

theorem State.Inv.interpret {s t : State} (h : s.Inv) (hi : s.interpret = .next t) : t.Inv := by
  have hsettled : s.settleStores.Inv := { h with }
  obtain ⟨-, hs⟩ | ⟨-, hs⟩ | ⟨left, -, hr, hs⟩ := s.interpret_cases
  · obtain rfl := Host.Outcome.next.inj (hs.symm.trans hi)
    exact hsettled.hostCall
  · obtain rfl := Host.Outcome.next.inj (hs.symm.trans hi)
    exact hsettled.finishTick
  · obtain ⟨u, hu, rfl⟩ := mapNext_eq_next.1 (hs.symm.trans hi)
    exact { hsettled.runOne hr hu with }

/-- A move of the audio agent keeps the count of a call's samples: each one emitted is one less to come (49_audio.md
R314). -/
theorem State.Inv.audioMove_generating {s : State} (h : s.Inv) {g : Generating} (hg : s.audioMove.gen = some g) :
    g.out.length + g.left = g.call.count := by
  obtain ⟨-, c, -, hm⟩ | ⟨hn, -, hm⟩ | ⟨g', hg', hm⟩ | ⟨g', left, x, hg', hleft, hm⟩ | ⟨g', -, -, hm, -⟩ :=
    s.audioMove_gen
  · obtain rfl := Option.some.inj (hm.symm.trans hg)
    simp
  · rw [hm, hn] at hg
    cases hg
  · obtain rfl := Option.some.inj (hm.symm.trans hg)
    exact h.generating _ hg'
  · obtain rfl := Option.some.inj (hm.symm.trans hg)
    have hcount := h.generating _ hg'
    simp only [List.length_append, List.length_singleton]
    omega
  · rw [hm] at hg
    cases hg

theorem State.Inv.audioMove {s : State} (h : s.Inv) : s.audioMove.Inv := by
  have hon : s.audioMove.au.on = true ↔ s.st ≠ 0#8 := by
    rw [State.audioMove_on]
    exact h.audioInstalled
  have hgen := fun g => h.audioMove_generating (g := g)
  rw [State.audioMove_eq]
  exact { h with audioInstalled := hon, generating := hgen }

/-- Settles O16: either agent's move keeps the invariant, and the host's next answers are no part of it. -/
theorem everyStepKeepsTheInvariant : Obligations.EveryStepKeepsTheInvariant := by
  intro s t h hstep
  obtain ⟨-, hs⟩ | ⟨-, hs⟩ := step_cases s
  · obtain rfl := Host.Outcome.next.inj (hs.symm.trans hstep)
    exact { h.audioMove with }
  · obtain ⟨u, hu, rfl⟩ := mapNext_eq_next.1 (hs.symm.trans hstep)
    exact { h.interpret hu with }

end Sys2Proof.Machine
end

section
/-! What reset and Load leave in every piece of the spec's state (10_state.md R40, 70_reset_and_hazards.md R360). -/

namespace Sys2Proof.Machine

/-! ## Memory -/

/-- Where no byte is listed, memory reads as the reset contents. -/
theorem State.readByte_of_mem_nil {s : State} (h : s.mem = []) (a : Word) : s.readByte a = unlisted s.params a.toNat := by
  rw [State.readByte, h, sparseGet_nil]

/-- A byte after a Load: the image's byte where the image reaches, else the reset contents. The part of an image beyond
`maxImage` would lie past the last address (20_memory.md R69). -/
theorem State.readByte_loadImage (s : State) (image : List Byte) (a : Word) :
    (s.loadImage image).readByte a =
      if 0x200 ≤ a.toNat ∧ a.toNat - 0x200 < image.length then image[a.toNat - 0x200]?.getD 0#8
      else unlisted s.params a.toNat := by
  have hlen : (image.take maxImage).length ≤ 65536 := by simp [maxImage]
  have hreset : s.fullReset.readByte a = unlisted s.params a.toNat := State.readByte_of_mem_nil (s := s.fullReset) rfl a
  rw [State.loadImage, State.readByte_writeBytes _ _ _ _ hlen, hreset]
  by_cases ha : 0x200 ≤ a.toNat
  · have hoff : (a - entryPoint).toNat = a.toNat - 0x200 := by unfold entryPoint; bv_omega
    have hmax : a.toNat - 0x200 < maxImage := by have := a.isLt; unfold maxImage; omega
    rw [hoff, List.getElem?_take_of_lt hmax]
    by_cases hin : a.toNat - 0x200 < image.length
    · simp [ha, hin]
    · simp [hin]
  · have hoff : (image.take maxImage).length ≤ (a - entryPoint).toNat := by
      rw [List.length_take]
      unfold maxImage entryPoint
      bv_omega
    rw [List.getElem?_eq_none hoff, if_neg (fun h => ha h.1)]
    rfl

/-! ## Reset -/

theorem State.reset_getV (r : Reg) : State.reset.getV r = 0#8 := Vector.getElem_replicate ..

theorem State.reset_stack (k : Fin 16) : State.reset.stack[k] = 0#16 := Vector.getElem_replicate ..

theorem State.reset_cell (y x : Nat) : State.reset.fb.cell y x = 0x80#8 := rfl

/-- Settles O14: memory reads as the fonts and zeroes since nothing is listed, and the other values are those of
`State.reset`. -/
theorem resetValuesAreThoseOfTheSpec : Obligations.ResetValuesAreThoseOfTheSpec :=
  ⟨State.readByte_of_mem_nil rfl, State.reset_getV, rfl, rfl, rfl, State.reset_stack, rfl, rfl, rfl, rfl, rfl,
    State.reset_cell, rfl, rfl, rfl, rfl, rfl, rfl, rfl, rfl, rfl⟩

/-! ## Load -/

/-- A Load changes memory after the full reset and nothing else. -/
theorem State.loadImage_eq (s : State) (image : List Byte) :
    s.loadImage image = { s.fullReset with mem := (s.loadImage image).mem } :=
  State.writeBytes_eq ..

/-- Settles O13: the Load's memory is `State.readByte_loadImage`, and every other piece of the state is that of the full
reset. -/
theorem loadResetsTheMachineAndCopiesTheImage : Obligations.LoadResetsTheMachineAndCopiesTheImage := by
  intro s image ha ht hc
  have hcall : s.settleStores.hostCall = s.settleStores.loadImage image := by
    unfold State.hostCall
    rw [State.settleStores_inp, hc]
  refine ⟨_, step_between ha ht, ?_⟩
  rw [hcall]
  refine ⟨State.readByte_loadImage s.settleStores image, ?_⟩
  rw [State.loadImage_eq]
  exact ⟨State.reset_getV, rfl, rfl, rfl, State.reset_stack, rfl, rfl, rfl, rfl, rfl, State.reset_cell, rfl, rfl, rfl, rfl,
    rfl⟩

end Sys2Proof.Machine
end

section
/-! What an instruction may write: the call stack, the registers, and the special registers, the flag store and the
playback state (10_state.md R21, R23, R25 to R29, R35, R37). -/

namespace Sys2Proof.Machine

/-- Settles O22: of the instructions that are neither CALL nor RET none touches the stack, a PLANE that faults included. -/
theorem onlyCallAndRetReachTheStack : Obligations.OnlyCallAndRetReachTheStack := by
  intro i s t he hne
  cases i
  case call nnn => exact .inl ⟨nnn, rfl⟩
  case ret => exact .inr rfl
  case plane n => obtain ⟨_, rfl⟩ | ⟨_, _, rfl⟩ := execPlane_cases he <;> simp at hne
  all_goals
    obtain rfl := Host.Outcome.next.inj he
    simp at hne

/-! ## Registers -/

/-- `writeBoth` writes VX and VF only. -/
theorem State.getV_writeBoth_ne (s : State) {x y : Reg} (r f : Byte) (h : y ∉ [x, Reg.flag]) :
    (s.writeBoth x r f).getV y = s.getV y := by
  simp only [List.mem_cons, List.not_mem_nil, or_false, not_or] at h
  simp [State.getV_writeBoth, h]

/-- A load from memory writes the registers of its range only. -/
theorem State.getV_loadRegs_ne (s : State) (a : Word) {x y r : Reg} (h : r ∉ regRange x y) :
    (s.loadRegs a (regRange x y)).getV r = s.getV r := by
  rw [State.getV_loadRegs _ _ _ (regRange_nodup x y), if_neg h]

/-- Settles O23: the register writers go through `setV`, `writeBoth` or a load of a range; every other instruction keeps
the register file. -/
theorem registersAreWrittenAsListed : Obligations.RegistersAreWrittenAsListed := by
  intro i s t r he hr
  cases i
  case call nnn => obtain ⟨_, _, _, rfl⟩ | ⟨_, _, rfl⟩ := execCall_cases he <;> rfl
  case ret => obtain ⟨_, _, rfl⟩ | ⟨_, _, rfl⟩ := execRet_cases he <;> rfl
  case plane n => obtain ⟨_, rfl⟩ | ⟨_, _, rfl⟩ := execPlane_cases he <;> rfl
  all_goals obtain rfl := Host.Outcome.next.inj he
  case ldImm | addImm | ldReg | orReg | andReg | xorReg | rnd | drw | ldVxDt =>
    exact State.getV_setV_ne _ _ (List.ne_of_not_mem_cons hr)
  case addReg | subReg | shr | subn | shl => exact s.getV_writeBoth_ne _ _ hr
  case loadRange | load => exact s.getV_loadRegs_ne _ hr
  case loadFlags => exact (s.getV_loadFlagRegs _ r).trans (if_neg hr)
  all_goals exact State.getV_congr (by simp) r

/-! ## Special registers -/

/-- A block transfer moves I under the quirk only (48_memory_ops.md R280 to R283). -/
theorem State.indexIncrement_of_indexAfter_ne {s : State} {n : Nat} (h : s.indexAfter n ≠ s.i) :
    s.inp.quirks.indexIncrement = true := by
  by_contra hq
  exact h (if_neg hq)

/-- Settles O24: each of these places has one instruction, or one family for I, whose meaning writes it; all the others keep
it, CALL, RET and PLANE where they fault too. -/
theorem specialRegistersAreWrittenAsListed : Obligations.SpecialRegistersAreWrittenAsListed := by
  intro i s t he
  cases i
  case call nnn => obtain ⟨_, _, _, rfl⟩ | ⟨_, _, rfl⟩ := execCall_cases he <;> simp
  case ret => obtain ⟨_, _, rfl⟩ | ⟨_, _, rfl⟩ := execRet_cases he <;> simp
  case plane n => obtain ⟨_, rfl⟩ | ⟨_, _, rfl⟩ := execPlane_cases he <;> simp
  all_goals obtain rfl := Host.Outcome.next.inj he
  case saveRange | loadRange | save | load =>
    simpa using fun h => State.indexIncrement_of_indexAfter_ne h
  all_goals simp

end Sys2Proof.Machine
end

section
/-! No instruction reads the audio generator's base, cursor, phase or bit: putting them aside before an instruction or after
it comes to the same (10_state.md R35, R39). -/

namespace Sys2Proof.Machine

/-! ## Putting the playback state aside commutes with the operations of the state -/

theorem State.storeBytes_withoutPlayback (s : State) (a : Word) (bs : List Byte) :
    s.withoutPlayback.storeBytes a bs = (s.storeBytes a bs).withoutPlayback := by
  induction bs generalizing s a with
  | nil => rfl
  | cons b bs ih => exact ih (s.storeByte a b) (a + 1#16)

theorem State.loadRegs_withoutPlayback (s : State) (a : Word) (rs : List Reg) :
    s.withoutPlayback.loadRegs a rs = (s.loadRegs a rs).withoutPlayback := by
  induction rs generalizing s a with
  | nil => rfl
  | cons r rs ih => exact ih (s.setV r (s.readByte a)) (a + 1#16)

theorem State.saveFlagRegs_withoutPlayback (s : State) (rs : List Reg) :
    s.withoutPlayback.saveFlagRegs rs = (s.saveFlagRegs rs).withoutPlayback := by
  induction rs generalizing s with
  | nil => rfl
  | cons r rs ih => exact ih { s with flags := s.flags.set r.toNat (s.getV r) r.isLt }

theorem State.loadFlagRegs_withoutPlayback (s : State) (rs : List Reg) :
    s.withoutPlayback.loadFlagRegs rs = (s.loadFlagRegs rs).withoutPlayback := by
  induction rs generalizing s with
  | nil => rfl
  | cons r rs ih => exact ih (s.setV r (s.flags[r.toNat]'r.isLt))

theorem State.skipIf_withoutPlayback (s : State) (c : Bool) :
    s.withoutPlayback.skipIf c = (s.skipIf c).withoutPlayback := by
  cases c <;> rfl

theorem State.writeBoth_withoutPlayback (s : State) (x : Reg) (r f : Byte) :
    s.withoutPlayback.writeBoth x r f = (s.writeBoth x r f).withoutPlayback := by
  unfold State.writeBoth
  rw [apply_ite State.withoutPlayback]
  rfl

theorem State.push_withoutPlayback (s : State) (a : Word) :
    s.withoutPlayback.push a = (s.push a).map State.withoutPlayback := by
  by_cases h : s.sp.val < 16
  · rw [State.push_of_lt s a h]
    exact State.push_of_lt s.withoutPlayback a h
  · have hfull : s.sp = 16 := by omega
    rw [State.push_of_full s a hfull]
    exact State.push_of_full s.withoutPlayback a hfull

theorem State.pop_withoutPlayback (s : State) :
    s.withoutPlayback.pop = s.pop.map (fun p => (p.1, p.2.withoutPlayback)) := by
  by_cases h : 0 < s.sp.val
  · rw [State.pop_of_pos s h]
    exact State.pop_of_pos s.withoutPlayback h
  · have hempty : s.sp = 0 := by omega
    rw [State.pop_of_empty s hempty]
    exact State.pop_of_empty s.withoutPlayback hempty

theorem State.drawPlanes_withoutPlayback (s : State) (n : BitVec 4) (y0 x0 : Nat) (ps : List Plane) (off : Nat)
    (acc : Framebuffer × Bool) : s.withoutPlayback.drawPlanes n y0 x0 ps off acc = s.drawPlanes n y0 x0 ps off acc := by
  induction ps generalizing off acc with
  | nil => rfl
  | cons p ps ih =>
    unfold State.drawPlanes
    rw [ih, State.readBytes_congr (s := s.withoutPlayback) (t := s) rfl rfl]
    rfl

/-- A sprite is drawn from memory and the registers. -/
theorem State.sprite_withoutPlayback (s : State) (x y : Reg) (n : BitVec 4) :
    s.withoutPlayback.sprite x y n = s.sprite x y n :=
  s.drawPlanes_withoutPlayback ..

/-! ## Instructions -/

theorem execCall_withoutPlayback (nnn : BitVec 12) (s : State) :
    exec (.call nnn) s.withoutPlayback = mapNext State.withoutPlayback (exec (.call nnn) s) := by
  change execCall nnn s.withoutPlayback = mapNext _ (execCall nnn s)
  unfold execCall
  rw [show s.withoutPlayback.push s.withoutPlayback.pc = _ from s.push_withoutPlayback s.pc]
  cases s.push s.pc <;> rfl

theorem execRet_withoutPlayback (s : State) :
    exec .ret s.withoutPlayback = mapNext State.withoutPlayback (exec .ret s) := by
  change execRet s.withoutPlayback = mapNext _ (execRet s)
  unfold execRet
  rw [State.pop_withoutPlayback]
  cases s.pop <;> rfl

theorem execPlane_withoutPlayback (n : BitVec 4) (s : State) :
    exec (.plane n) s.withoutPlayback = mapNext State.withoutPlayback (exec (.plane n) s) := by
  change execPlane n s.withoutPlayback = mapNext _ (execPlane n s)
  unfold execPlane
  split <;> rfl

/-- Next states that agree without the playback state are seen alike. -/
theorem viewNext_withoutPlayback_of_eq {s t : State} (h : t = s.withoutPlayback) :
    viewNext State.withoutPlayback (.next t) = viewNext State.withoutPlayback (.next s) := by
  rw [h]
  rfl

theorem viewNext_withoutPlayback_of_eq_setI {s t : State} (h : t = s.withoutPlayback) (a : Word) :
    viewNext State.withoutPlayback (.next { t with i := a }) =
      viewNext State.withoutPlayback (.next { s with i := a }) := by
  rw [h]
  rfl

theorem viewNext_mapNext_withoutPlayback (o : Host.Outcome State Fault Refusal) :
    viewNext State.withoutPlayback (mapNext State.withoutPlayback o) = viewNext State.withoutPlayback o := by
  cases o <;> rfl

/-- An instruction that starts without the playback state ends, seen without it, as it does where it starts with it. AUDIO
sets all of that state from I and memory; every other instruction leaves it and reads none of it. -/
theorem viewNext_exec_withoutPlayback (i : Instr) (s : State) :
    viewNext State.withoutPlayback (exec i s.withoutPlayback) = viewNext State.withoutPlayback (exec i s) := by
  cases i
  case call nnn => rw [execCall_withoutPlayback, viewNext_mapNext_withoutPlayback]
  case ret => rw [execRet_withoutPlayback, viewNext_mapNext_withoutPlayback]
  case plane n => rw [execPlane_withoutPlayback, viewNext_mapNext_withoutPlayback]
  case seImm | sneImm | seReg | sneReg | skp | sknp =>
    exact viewNext_withoutPlayback_of_eq (s.skipIf_withoutPlayback _)
  case addReg | subReg | shr | subn | shl =>
    exact viewNext_withoutPlayback_of_eq (s.writeBoth_withoutPlayback _ _ _)
  case saveRange | save =>
    exact viewNext_withoutPlayback_of_eq_setI (s.storeBytes_withoutPlayback _ _) _
  case loadRange | load =>
    exact viewNext_withoutPlayback_of_eq_setI (s.loadRegs_withoutPlayback _ _) _
  case bcd => exact viewNext_withoutPlayback_of_eq (s.storeBytes_withoutPlayback _ _)
  case saveFlags => exact viewNext_withoutPlayback_of_eq (s.saveFlagRegs_withoutPlayback _)
  case loadFlags => exact viewNext_withoutPlayback_of_eq (s.loadFlagRegs_withoutPlayback _)
  case drw x y n =>
    exact viewNext_withoutPlayback_of_eq (congrArg
      (fun p : Framebuffer × Bool => ({ s.withoutPlayback with fb := p.1 } : State).setV Reg.flag (flagByte p.2))
      (s.sprite_withoutPlayback x y n))
  all_goals rfl

/-- Settles O26: the two states are the same one without the playback state. -/
theorem programsCannotObservePlayback : Obligations.ProgramsCannotObservePlayback := by
  intro i s base cursor phase bit
  rw [← viewNext_exec_withoutPlayback i s, ← viewNext_exec_withoutPlayback]
  rfl

end Sys2Proof.Machine
end

section
/-! Who writes memory, and what the audio agent sees of the byte writes (20_memory.md R62, R63, R65, R71, R73, R74;
49_audio.md R319). -/

namespace Sys2Proof.Machine

/-- Settles O27: the address written reads as the byte written, and no other address changes. -/
theorem readAfterWriteGivesTheByteWritten : Obligations.ReadAfterWriteGivesTheByteWritten :=
  State.readByte_writeByte

/-- An instruction keeps memory and notes no byte write, or it is FX33 or a block store and its byte writes go from I
upward. -/
theorem exec_mem_cases {i : Instr} {s t : State} (h : exec i s = .next t) :
    (t.mem = s.mem ∧ t.unseen = s.unseen) ∨
    (((∃ x, i = .bcd x) ∨ (∃ x, i = .save x) ∨ ∃ x y, i = .saveRange x y) ∧
      ∃ bs : List Byte, bs.length ≤ 16 ∧
        t.mem = (s.storeBytes s.i bs).mem ∧ t.unseen = (s.storeBytes s.i bs).unseen) := by
  cases i
  case call nnn => obtain ⟨_, _, _, rfl⟩ | ⟨_, _, rfl⟩ := execCall_cases h <;> exact .inl ⟨rfl, rfl⟩
  case ret => obtain ⟨_, _, rfl⟩ | ⟨_, _, rfl⟩ := execRet_cases h <;> exact .inl ⟨rfl, rfl⟩
  case plane n => obtain ⟨_, rfl⟩ | ⟨_, _, rfl⟩ := execPlane_cases h <;> exact .inl ⟨rfl, rfl⟩
  all_goals obtain rfl := Host.Outcome.next.inj h
  case bcd x => exact .inr ⟨.inl ⟨x, rfl⟩, bcdDigits (s.getV x), by simp [bcdDigits], rfl, rfl⟩
  case save x =>
    exact .inr ⟨.inr (.inl ⟨x, rfl⟩), (regRange 0#4 x).map s.getV, by simp [regRange_length_le], rfl, rfl⟩
  case saveRange x y =>
    exact .inr ⟨.inr (.inr ⟨x, y, rfl⟩), (regRange x y).map s.getV, by simp [regRange_length_le], rfl, rfl⟩
  all_goals exact .inl (by simp)

/-- Settles O21: an instruction that changes memory is one whose meaning stores bytes. -/
theorem onlyStoresChangeMemory : Obligations.OnlyStoresChangeMemory := by
  intro i s t he hne
  obtain ⟨hmem, -⟩ | ⟨hstore, -⟩ := exec_mem_cases he
  · exact absurd hmem hne
  · exact hstore

/-- With `k` more byte writes passed, what the agent reads depends on memory, the parameters and the notes only. -/
theorem State.audioByte_drop_congr {s t : State} (hm : s.mem = t.mem) (hp : s.params = t.params)
    (hu : s.unseen = t.unseen) (k : Nat) (a : Word) :
    ({ s with unseen := s.unseen.drop k } : State).audioByte a =
      ({ t with unseen := t.unseen.drop k } : State).audioByte a :=
  congrArg₂ Option.getD (congrArg (fun notes => (notes.drop k).lookup a) hu) (State.readByte_congr hm hp a)

/-- What the agent reads with `k` of an instruction's byte writes passed, where those of the instructions before all are:
memory as it is where nothing is stored; of a store's notes the last ones hide exactly the writes still to come. -/
theorem exec_audioByte_drop {i : Instr} {s t : State} (hs : s.unseen = []) (he : exec i s = .next t) (k : Nat) (a : Word) :
    ({ t with unseen := t.unseen.drop k } : State).audioByte a =
      if (a - s.i).toNat < k then t.readByte a else s.readByte a := by
  have hp : t.params = s.params := (exec_ownFieldsKept he).params
  obtain ⟨hm, hu⟩ | ⟨-, bs, hlen, hm, hu⟩ := exec_mem_cases he
  · have hread : t.readByte a = s.readByte a := State.readByte_congr hm hp a
    have hpassed : t.unseen.drop k = [] := by rw [hu, hs, List.drop_nil]
    rw [State.audioByte_settled hpassed, hread, ite_self]
    exact hread
  · have hp' : t.params = (s.storeBytes s.i bs).params := hp.trans (s.storeBytes_params s.i bs).symm
    calc ({ t with unseen := t.unseen.drop k } : State).audioByte a
      _ = ({ s.storeBytes s.i bs with unseen := (s.storeBytes s.i bs).unseen.drop k } : State).audioByte a :=
        State.audioByte_drop_congr hm hp' hu k a
      _ = if (a - s.i).toNat < k then (s.storeBytes s.i bs).readByte a else s.readByte a :=
        State.audioByte_storeBytes hs s.i bs (by omega) k a
      _ = if (a - s.i).toNat < k then t.readByte a else s.readByte a := by rw [State.readByte_congr hm hp']

/-- Settles O59: the instruction starts with every earlier byte write passed, and to forget the notes changes no byte of
memory. -/
theorem storesAreSeenPartDone : Obligations.StoresAreSeenPartDone :=
  fun _ _ _ k a he => exec_audioByte_drop rfl he k a

end Sys2Proof.Machine
end

section
/-! The encoder and the decoder agree (30_encoding.md R85 to R91): a word is decoded by its group, so what holds of the
decoder is said group by group first. -/

namespace Sys2Proof

/-! ## Decoding what was encoded -/

/-- The first word of the long form takes the word after it as its operand (R91). -/
theorem decodeWord_longWord (next : Word) : decodeWord longWord next = some (.ldILong next) := rfl

/-- The first word of an instruction decodes to it, whatever word follows; the long form's operand is the word after it. -/
theorem decodeWord_word {i : Instr} {next : Word} (hw : i.wellFormed = true)
    (hnext : ∀ nnnn, i = .ldILong nnnn → next = nnnn) : decodeWord i.word next = some i := by
  cases i
  case cls | ret | scr | scl | exit | low | high | audio => rfl
  case ldILong nnnn => rw [← hnext nnnn rfl]; exact decodeWord_longWord next
  case scd | scu =>
    simp [Instr.word, decodeWord, decodeGroup0, fieldG_n, fieldX_n, fieldY_n, fieldN_n]
  case jp | call | ldI | jpV0 =>
    simp [Instr.word, decodeWord, fieldG_nnn, fieldNNN_nnn]
  case seImm | sneImm | ldImm | addImm | rnd =>
    simp [Instr.word, decodeWord, fieldG_xnn, fieldX_xnn, fieldNN_xnn]
  case seReg | saveRange | loadRange =>
    simp [Instr.word, decodeWord, decodeGroup5, fieldG_xyn, fieldX_xyn, fieldY_xyn, fieldN_xyn]
  case ldReg | orReg | andReg | xorReg | addReg | subReg | shr | subn | shl =>
    simp [Instr.word, decodeWord, decodeGroup8, fieldG_xyn, fieldX_xyn, fieldY_xyn, fieldN_xyn]
  case sneReg | drw =>
    simp [Instr.word, decodeWord, fieldG_xyn, fieldX_xyn, fieldY_xyn, fieldN_xyn]
  case skp | sknp =>
    simp [Instr.word, decodeWord, decodeGroupE, fieldG_xnn, fieldX_xnn, fieldNN_xnn]
  case plane n =>
    have hn : n ≤ 0x3#4 := of_decide_eq_true hw
    simp [Instr.word, decodeWord, decodeGroupF, fieldG_xnn, fieldX_xnn, fieldNN_xnn, hn]
  case ldVxDt | ldVxK | ldDt | ldSt | addI | ldF | ldHf | bcd | save | load | saveFlags | loadFlags =>
    simp [Instr.word, decodeWord, decodeGroupF, fieldG_xnn, fieldX_xnn, fieldNN_xnn]

/-- Only the long form begins with its first word (R91): that word decodes to nothing else. -/
theorem Instr.word_ne_longWord {i : Instr} (hw : i.wellFormed = true) (hi : ∀ nnnn, i ≠ .ldILong nnnn) :
    i.word ≠ longWord := by
  intro hlong
  have hd := decodeWord_word (next := 0#16) hw (fun nnnn h => absurd h (hi nnnn))
  rw [hlong, decodeWord_longWord] at hd
  exact hi 0#16 (Option.some.inj hd).symm

theorem encode_of_ne_ldILong {i : Instr} (hi : ∀ nnnn, i ≠ .ldILong nnnn) : encode i = [i.word] := by
  unfold encode
  split
  · next nnnn => exact absurd rfl (hi nnnn)
  · rfl

theorem decode_bytesOfWords_one {w : Word} {i : Instr} (hw : w ≠ longWord) (hd : decodeWord w 0#16 = some i)
    (rest : List Byte) : decode (bytesOfWords [w] ++ rest) = .ok (i, rest) := by
  simp [bytesOfWords, decode, wordOf_bytes, hw, hd]

theorem decode_bytesOfWords_long (nnnn : Word) (rest : List Byte) :
    decode (bytesOfWords [longWord, nnnn] ++ rest) = .ok (.ldILong nnnn, rest) := by
  simp [bytesOfWords, decode, wordOf_bytes, decodeWord_longWord]

/-- Settles O1: the long form takes two words, any other instruction one, and that one is not the long form's first. -/
theorem decodeOfEncodeIsTheInstruction : Obligations.DecodeOfEncodeIsTheInstruction := by
  intro i rest hw
  by_cases hi : ∃ nnnn, i = .ldILong nnnn
  · obtain ⟨nnnn, rfl⟩ := hi
    exact decode_bytesOfWords_long nnnn rest
  · have hne : ∀ nnnn, i ≠ .ldILong nnnn := not_exists.1 hi
    rw [encode_of_ne_ldILong hne]
    exact decode_bytesOfWords_one (Instr.word_ne_longWord hw hne)
      (decodeWord_word hw (fun nnnn h => absurd h (hne nnnn))) rest

/-! ## Encoding what was decoded -/

/-- The instruction has an encoding, and `w` is its first word. -/
def Instr.Encodes (i : Instr) (w : Word) : Prop := i.word = w ∧ i.wellFormed = true

/-- Where the decoder gives an instruction, it is one with an encoding, and `w` is its first word. -/
def OnlyEncodes (w : Word) (o : Option Instr) : Prop := ∀ i, o = some i → i.Encodes w

theorem OnlyEncodes.none {w : Word} : OnlyEncodes w .none := nofun

theorem OnlyEncodes.some {w : Word} {i : Instr} (h : i.Encodes w) : OnlyEncodes w (.some i) := by
  rintro _ ⟨⟩
  exact h

theorem OnlyEncodes.ite {w : Word} {c : Prop} [Decidable c] {a b : Option Instr} (ha : c → OnlyEncodes w a)
    (hb : ¬c → OnlyEncodes w b) : OnlyEncodes w (if c then a else b) := by
  split
  · exact ha ‹c›
  · exact hb ‹¬c›

/-- One entry of an encoding table: under its condition the instruction, else what the entries after it give. -/
theorem OnlyEncodes.entry {w : Word} {c : Prop} [Decidable c] {i : Instr} {b : Option Instr} (hi : c → i.Encodes w)
    (hb : ¬c → OnlyEncodes w b) : OnlyEncodes w (if c then .some i else b) :=
  .ite (fun hc => .some (hi hc)) hb

theorem OnlyEncodes.of_eq {w w' : Word} (hw : w = w') {o : Option Instr} (h : OnlyEncodes w o) : OnlyEncodes w' o :=
  hw ▸ h

theorem nnn_of_fieldG {w : Word} {g : BitVec 4} (h : fieldG w = g) : g ++ fieldNNN w = w := by
  rw [← h, word_eq_nnn]

theorem xnn_of_fieldG {w : Word} {g : BitVec 4} (h : fieldG w = g) : g ++ fieldX w ++ fieldNN w = w := by
  rw [← h, word_eq_xnn]

theorem xyn_of_fieldG {w : Word} {g : BitVec 4} (h : fieldG w = g) : g ++ fieldX w ++ fieldY w ++ fieldN w = w := by
  rw [← h, word_eq_xyn]

theorem xyn_of_fieldG_fieldN {w : Word} {g n : BitVec 4} (hg : fieldG w = g) (hn : fieldN w = n) :
    g ++ fieldX w ++ fieldY w ++ n = w := by
  rw [← hn, xyn_of_fieldG hg]

/-- A word of group 0 whose X is 0 begins with `00Y` (R85). -/
theorem n_of_fieldG_fieldX_fieldY {w : Word} {y : BitVec 4} {c : BitVec 12} (hg : fieldG w = 0x0#4)
    (hxy : fieldX w = 0x0#4 ∧ fieldY w = y) (hc : 0x0#4 ++ 0x0#4 ++ y = c) : c ++ fieldN w = w := by
  obtain ⟨hx, hy⟩ := hxy
  have hword := xyn_of_fieldG hg
  rwa [hx, hy, hc] at hword

theorem onlyEncodes_decodeGroup0 {w : Word} (hg : fieldG w = 0x0#4) : OnlyEncodes w (decodeGroup0 w) := by
  unfold decodeGroup0
  refine .entry (fun hxy => ⟨n_of_fieldG_fieldX_fieldY hg hxy rfl, rfl⟩) (fun _ => ?_)
  refine .entry (fun hxy => ⟨n_of_fieldG_fieldX_fieldY hg hxy rfl, rfl⟩) (fun _ => ?_)
  repeat refine .entry (by rintro rfl; exact ⟨rfl, rfl⟩) (fun _ => ?_)
  exact .none

theorem onlyEncodes_decodeGroup5 (x y n : BitVec 4) : OnlyEncodes (0x5#4 ++ x ++ y ++ n) (decodeGroup5 x y n) := by
  unfold decodeGroup5
  repeat refine .entry (by rintro rfl; exact ⟨rfl, rfl⟩) (fun _ => ?_)
  exact .none

theorem onlyEncodes_decodeGroup8 (x y n : BitVec 4) : OnlyEncodes (0x8#4 ++ x ++ y ++ n) (decodeGroup8 x y n) := by
  unfold decodeGroup8
  repeat refine .entry (by rintro rfl; exact ⟨rfl, rfl⟩) (fun _ => ?_)
  exact .none

theorem onlyEncodes_decodeGroupE (x : BitVec 4) (nn : Byte) : OnlyEncodes (0xE#4 ++ x ++ nn) (decodeGroupE x nn) := by
  unfold decodeGroupE
  repeat refine .entry (by rintro rfl; exact ⟨rfl, rfl⟩) (fun _ => ?_)
  exact .none

/-- F000, FN01 and F002 ask for a value of X too (R87). -/
theorem onlyEncodes_decodeGroupF (x : BitVec 4) (nn : Byte) (next : Word) :
    OnlyEncodes (0xF#4 ++ x ++ nn) (decodeGroupF x nn next) := by
  unfold decodeGroupF
  refine .ite (by rintro rfl; exact .entry (by rintro rfl; exact ⟨rfl, rfl⟩) (fun _ => .none)) (fun _ => ?_)
  refine .ite (by rintro rfl; exact .entry (fun hx => ⟨rfl, decide_eq_true hx⟩) (fun _ => .none)) (fun _ => ?_)
  refine .ite (by rintro rfl; exact .entry (by rintro rfl; exact ⟨rfl, rfl⟩) (fun _ => .none)) (fun _ => ?_)
  repeat refine .entry (by rintro rfl; exact ⟨rfl, rfl⟩) (fun _ => ?_)
  exact .none

/-- What a word decodes to has that word as its first: each group gives back the fields it was read from. -/
theorem onlyEncodes_decodeWord (w next : Word) : OnlyEncodes w (decodeWord w next) := by
  have g5 := onlyEncodes_decodeGroup5 (fieldX w) (fieldY w) (fieldN w)
  have g8 := onlyEncodes_decodeGroup8 (fieldX w) (fieldY w) (fieldN w)
  have gE := onlyEncodes_decodeGroupE (fieldX w) (fieldNN w)
  have gF := onlyEncodes_decodeGroupF (fieldX w) (fieldNN w) next
  unfold decodeWord
  refine .ite (fun hg => onlyEncodes_decodeGroup0 hg) (fun _ => ?_)
  refine .entry (fun hg => ⟨nnn_of_fieldG hg, rfl⟩) (fun _ => ?_)
  refine .entry (fun hg => ⟨nnn_of_fieldG hg, rfl⟩) (fun _ => ?_)
  refine .entry (fun hg => ⟨xnn_of_fieldG hg, rfl⟩) (fun _ => ?_)
  refine .entry (fun hg => ⟨xnn_of_fieldG hg, rfl⟩) (fun _ => ?_)
  refine .ite (fun hg => g5.of_eq (xyn_of_fieldG hg)) (fun _ => ?_)
  refine .entry (fun hg => ⟨xnn_of_fieldG hg, rfl⟩) (fun _ => ?_)
  refine .entry (fun hg => ⟨xnn_of_fieldG hg, rfl⟩) (fun _ => ?_)
  refine .ite (fun hg => g8.of_eq (xyn_of_fieldG hg)) (fun _ => ?_)
  refine .ite (fun hg => .entry (fun hn => ⟨xyn_of_fieldG_fieldN hg hn, rfl⟩) (fun _ => .none)) (fun _ => ?_)
  refine .entry (fun hg => ⟨nnn_of_fieldG hg, rfl⟩) (fun _ => ?_)
  refine .entry (fun hg => ⟨nnn_of_fieldG hg, rfl⟩) (fun _ => ?_)
  refine .entry (fun hg => ⟨xnn_of_fieldG hg, rfl⟩) (fun _ => ?_)
  refine .entry (fun hg => ⟨xyn_of_fieldG hg, rfl⟩) (fun _ => ?_)
  refine .ite (fun hg => gE.of_eq (xnn_of_fieldG hg)) (fun _ => ?_)
  -- of the sixteen values of G, the conditions above leave this one only
  have hF : fieldG w = 0xF#4 := by bv_omega
  exact gF.of_eq (xnn_of_fieldG hF)

/-- Settles O2: `onlyEncodes_decodeWord`, and the long form's first word decodes to the long form. -/
theorem encodeOfDecodeIsTheWord : Obligations.EncodeOfDecodeIsTheWord := by
  intro w next i h
  obtain ⟨hword, hwf⟩ := onlyEncodes_decodeWord w next i h
  refine ⟨hword, hwf, ?_⟩
  rintro rfl
  exact Option.some.inj (h.symm.trans (decodeWord_longWord next))

/-! ## The words the decoder refuses -/

theorem decodeGroup0_eq_none {w : Word} : decodeGroup0 w = none ↔
    ¬(fieldX w = 0x0#4 ∧ (fieldY w = 0xC#4 ∨ fieldY w = 0xD#4)) ∧
      w ∉ [0x00E0#16, 0x00EE#16, 0x00FB#16, 0x00FC#16, 0x00FD#16, 0x00FE#16, 0x00FF#16] := by
  simp [decodeGroup0, ite_eq_iff, and_or_left, not_or, and_assoc]

theorem decodeGroup5_eq_none {x y n : BitVec 4} : decodeGroup5 x y n = none ↔ n ∉ [0x0#4, 0x2#4, 0x3#4] := by
  simp [decodeGroup5, ite_eq_iff]

theorem decodeGroup8_eq_none {x y n : BitVec 4} : decodeGroup8 x y n = none ↔
    n ∈ [0x8#4, 0x9#4, 0xA#4, 0xB#4, 0xC#4, 0xD#4, 0xF#4] := by
  have listed : ∀ n : BitVec 4, n ∉ [0x0#4, 0x1#4, 0x2#4, 0x3#4, 0x4#4, 0x5#4, 0x6#4, 0x7#4, 0xE#4] ↔
    n ∈ [0x8#4, 0x9#4, 0xA#4, 0xB#4, 0xC#4, 0xD#4, 0xF#4] := by decide
  rw [← listed]
  simp [decodeGroup8, ite_eq_iff]

theorem decodeGroupE_eq_none {x : BitVec 4} {nn : Byte} : decodeGroupE x nn = none ↔ nn ∉ [0x9E#8, 0xA1#8] := by
  simp [decodeGroupE, ite_eq_iff]

theorem decodeGroupF_eq_none {x : BitVec 4} {nn : Byte} {next : Word} : decodeGroupF x nn next = none ↔
    (nn = 0x00#8 ∧ x ≠ 0x0#4) ∨ (nn = 0x01#8 ∧ 0x4#4 ≤ x) ∨ (nn = 0x02#8 ∧ x ≠ 0x0#4) ∨
      nn ∉ [0x00#8, 0x01#8, 0x02#8, 0x07#8, 0x0A#8, 0x15#8, 0x18#8, 0x1E#8, 0x29#8, 0x30#8, 0x33#8, 0x55#8,
        0x65#8, 0x75#8, 0x85#8] := by
  have mask_gt : ∀ x : BitVec 4, ¬x ≤ 0x3#4 ↔ 0x4#4 ≤ x := by decide
  by_cases h0 : nn = 0x00#8
  · simp [decodeGroupF, h0]
  by_cases h1 : nn = 0x01#8
  · simp [decodeGroupF, h1, ← mask_gt]
  by_cases h2 : nn = 0x02#8
  · simp [decodeGroupF, h2]
  simp [decodeGroupF, ite_eq_iff, h0, h1, h2]

/-- The groups that refuse a word are 0, 5, 8, 9, E and F. -/
theorem decodeWord_eq_none {w next : Word} : decodeWord w next = none ↔
    (fieldG w = 0x0#4 ∧ decodeGroup0 w = none) ∨
    (fieldG w = 0x5#4 ∧ decodeGroup5 (fieldX w) (fieldY w) (fieldN w) = none) ∨
    (fieldG w = 0x8#4 ∧ decodeGroup8 (fieldX w) (fieldY w) (fieldN w) = none) ∨
    (fieldG w = 0x9#4 ∧ fieldN w ≠ 0x0#4) ∨
    (fieldG w = 0xE#4 ∧ decodeGroupE (fieldX w) (fieldNN w) = none) ∨
    (fieldG w = 0xF#4 ∧ decodeGroupF (fieldX w) (fieldNN w) next = none) := by
  unfold decodeWord
  generalize fieldG w = g
  obtain ⟨k⟩ := g
  fin_cases k <;> simp

/-- Settles O3: the decoder refuses in six groups, each of them on the words listed for it. -/
theorem invalidWordsAreTheListedOnes : Obligations.InvalidWordsAreTheListedOnes := by
  intro w next
  rw [decodeWord_eq_none, decodeGroup0_eq_none, decodeGroup5_eq_none, decodeGroup8_eq_none, decodeGroupE_eq_none,
    decodeGroupF_eq_none]

/-- Settles O4: the words are closed, so the decoder is run on each. -/
theorem sampleWordsDecodeAsTheTableSays : Obligations.SampleWordsDecodeAsTheTableSays := by
  unfold Obligations.SampleWordsDecodeAsTheTableSays
  decide

end Sys2Proof
end

section
/-! The steps of the tick (40_cycle.md R100 to R117): one instruction and the two faults of the fetch, the start of a tick and
its end. -/

namespace Sys2Proof.Machine

/-! ## One instruction -/

/-- A decoded instruction is as long as the word it was decoded from says (30_encoding.md R91). -/
theorem Instr.length_of_decodeWord {w next : Word} {i : Instr} (hd : decodeWord w next = some i) :
    BitVec.ofNat 16 i.length = if w = longWord then 4#16 else 2#16 := by
  obtain ⟨hword, -⟩ := onlyEncodes_decodeWord w next i hd
  unfold Instr.length
  rw [hword]
  split <;> rfl

theorem State.runOne_protected {s : State} (h : s.pc < 0x200#16) : s.runOne = .next (s.raise .protectedRegion none) := by
  unfold State.runOne
  rw [State.fetch_protected h]

theorem State.runOne_decoded {s : State} {i : Instr} (h : ¬s.pc < 0x200#16)
    (hd : decodeWord (s.read16 s.pc) (s.read16 (s.pc + 2#16)) = some i) :
    s.runOne = exec i (s.jump (s.pc + if s.read16 s.pc = longWord then 4#16 else 2#16)) := by
  unfold State.runOne
  rw [State.fetch_decoded h hd, Instr.length_of_decodeWord hd]

theorem State.runOne_invalid {s : State} (h : ¬s.pc < 0x200#16)
    (hd : decodeWord (s.read16 s.pc) (s.read16 (s.pc + 2#16)) = none) :
    s.runOne = .next ((s.jump (s.pc + 2#16)).raise .invalidInstruction (some (s.read16 s.pc))) := by
  unfold State.runOne
  rw [State.fetch_invalid h hd]

/-- Settles O5: the fetch decodes the word that the bytes at the pc make, and settling the stores changes no byte. -/
theorem stepRunsTheDecodedInstruction : Obligations.StepRunsTheDecodedInstruction := by
  intro s left i ha ht hr hpc hd
  rw [step_instruction ha ht hr, State.runOne_decoded (s := s.settleStores) (BitVec.not_lt.2 hpc) hd]
  rfl

/-- Settles O6: the step raises ProtectedRegion on the state as it stands. -/
theorem stepBelowTheEntryPointFaults : Obligations.StepBelowTheEntryPointFaults := by
  intro s left ha ht hr hpc
  rw [step_instruction ha ht hr, State.runOne_protected (s := s.settleStores) hpc]
  exact ⟨_, rfl, rfl, rfl⟩

/-- Settles O7: the step raises InvalidInstruction on the state with the pc advanced. -/
theorem stepOnAnInvalidWordFaults : Obligations.StepOnAnInvalidWordFaults := by
  intro s left ha ht hr hpc hd
  rw [step_instruction ha ht hr, State.runOne_invalid (s := s.settleStores) (BitVec.not_lt.2 hpc) hd]
  exact ⟨_, rfl, rfl, rfl⟩

/-! ## The start of a tick -/

theorem State.hostCall_tick {s : State} (h : s.inp.call = .tick) : s.hostCall = s.startTick := by
  unfold State.hostCall
  rw [h]

theorem State.startTick_running {s : State} (h : s.run = .running) :
    s.startTick = { s with tick := .inTick s.inp.budget } := by
  unfold State.startTick
  rw [h]

theorem State.startTick_halted {s : State} (h : s.run = .halted) :
    s.startTick = s.returnTick { continueRunning := false, audioStop := false } := by
  unfold State.startTick
  rw [h]

/-- Settles O8: the host's call is Tick, and a Running machine's tick starts by reading the budget. -/
theorem tickStartReadsTheBudget : Obligations.TickStartReadsTheBudget := by
  intro s ha ht hc hr
  rw [step_between ha ht, State.hostCall_tick (s := s.settleStores) hc, State.startTick_running (s := s.settleStores) hr]
  rfl

/-! ## The end of a tick -/

theorem State.finishTick_halted {s : State} (h : s.run = .halted) :
    s.finishTick = s.returnTick { continueRunning := false, audioStop := false } :=
  if_pos h

theorem State.finishTick_of_ne_halted {s : State} (h : s.run ≠ .halted) :
    s.finishTick = s.render.timerTick.1.returnTick
      { continueRunning := s.inp.renderContinue, audioStop := s.render.timerTick.2 } :=
  if_neg h

/-- Settles O10: a Halted machine returns false with nothing done, where its tick starts and where its tick ends. -/
theorem haltedTickChangesNothing : Obligations.HaltedTickChangesNothing := by
  rintro s ha hr (⟨ht, hc⟩ | ⟨left, ht⟩)
  · rw [step_between ha ht, State.hostCall_tick (s := s.settleStores) hc, State.startTick_halted (s := s.settleStores) hr]
    rfl
  · rw [step_finish ha ht (.inr (by simp [hr])), State.finishTick_halted (s := s.settleStores) hr]
    rfl

/-- The delay timer counts down to 0 and stays there (47_timers.md R266). -/
theorem State.tickDelay_dt (s : State) : s.tickDelay.dt = if s.dt = 0#8 then 0#8 else s.dt - 1#8 := by
  unfold State.tickDelay
  split
  · next h0 => exact h0
  · rfl

/-- The sound timer counts down to 0 and stays there; its step from 1 to 0 removes the audio source and is the audio-stop
event (47_timers.md R267, R268). -/
theorem State.tickSound_result (s : State) : s.tickSound =
    ({ s with
        st := if s.st = 0#8 then 0#8 else s.st - 1#8
        au := { s.au with on := if s.st = 1#8 then false else s.au.on } },
      decide (s.st = 1#8)) := by
  unfold State.tickSound
  by_cases h0 : s.st = 0#8
  · have hs : s = { s with st := 0#8 } := congrArg (fun b => ({ s with st := b } : State)) h0
    simpa [h0] using hs
  · by_cases h1 : s.st = 1#8
    · simp [h1, State.setAudio]
    · simp [h0, h1]

/-- Settles O9: the render is the clearing of dirty markers, and after it the delay timer, then the sound timer, counts down. -/
theorem tickEndRendersThenRunsTheTimers : Obligations.TickEndRendersThenRunsTheTimers := by
  intro s left ha ht hend hr
  have hfinish : left = 0 ∨ s.run ≠ .running := hend.imp_right (fun hw => by simp [hw])
  refine ⟨_, step_finish ha ht hfinish, ?_⟩
  rw [State.finishTick_of_ne_halted (s := s.settleStores) hr, State.timerTick,
    State.tickSound_result, State.tickDelay_eq, State.tickDelay_dt]
  exact ⟨rfl, s.fb.clearDirty_res _, fun y x hy hx => s.fb.cell_clearDirty _ hy hx⟩

/-! ## Who writes the control state -/

/-- PLANE with a legal mask does not fault (42_display.md R161). -/
theorem execPlane_of_le {n : BitVec 4} (h : n ≤ 3#4) (s : State) :
    exec (.plane n) s = .next { s with plane := n.setWidth 2, fb := s.fb.invalidate } :=
  congrArg Host.Outcome.next (if_pos h)

/-- Settles O25: CALL and RET write the pc or fault, a legal PLANE does neither, and every other instruction is a
composition of named updates, whose field lemmas say what it keeps. -/
theorem controlStateIsWrittenAsListed : Obligations.ControlStateIsWrittenAsListed := by
  intro i s t hw he
  cases i
  case call nnn => obtain ⟨_, _, _, rfl⟩ | ⟨_, _, rfl⟩ := execCall_cases he <;> simp
  case ret => obtain ⟨_, _, rfl⟩ | ⟨_, _, rfl⟩ := execRet_cases he <;> simp
  case plane n =>
    obtain rfl := Host.Outcome.next.inj ((execPlane_of_le (of_decide_eq_true hw) s).symm.trans he)
    simp
  all_goals
    obtain rfl := Host.Outcome.next.inj he
    simp

end Sys2Proof.Machine
end

section
/-! Control (41_control.md): the jumps, EXIT, the call stack where it neither overflows nor underflows, and the skips. -/

namespace Sys2Proof.Machine

/-! ## Jumps and the call stack -/

/-- Settles O28: each of the three is one update of the state, of the pc or of the run state. -/
theorem jumpsAndExit : Obligations.JumpsAndExit := fun _ _ => ⟨rfl, rfl, rfl⟩

/-- Settles O29: the push succeeds with room on the stack, and the jump follows it. -/
theorem callPushesTheReturnAddress : Obligations.CallPushesTheReturnAddress := by
  intro nnn s h
  change execCall nnn s = _
  unfold execCall
  rw [State.push_of_lt s s.pc h]
  rfl

/-- Settles O30: the pop succeeds with an entry on the stack, and the pc takes what it gives. -/
theorem retPopsTheReturnAddress : Obligations.RetPopsTheReturnAddress := by
  intro s h
  change execRet s = _
  unfold execRet
  rw [State.pop_of_pos s h]
  rfl

/-! ## The conditional skips -/

theorem highByte_wordOf (hi lo : Byte) : highByte (wordOf hi lo) = hi := BitVec.extractLsb'_append_eq_left

theorem lowByte_wordOf (hi lo : Byte) : lowByte (wordOf hi lo) = lo := BitVec.extractLsb'_append_eq_right

/-- The first word of the long form has the bytes F0 and 00 (30_encoding.md R81). -/
theorem wordOf_eq_longWord {hi lo : Byte} : wordOf hi lo = longWord ↔ hi = 0xF0#8 ∧ lo = 0x00#8 := by
  constructor
  · intro h
    exact ⟨(highByte_wordOf hi lo).symm.trans (congrArg highByte h),
      (lowByte_wordOf hi lo).symm.trans (congrArg lowByte h)⟩
  · rintro ⟨rfl, rfl⟩
    rfl

/-- `skipWidth` looks at the two bytes of the word that `Skip()` reads (41_control.md R138). -/
theorem State.skipWidth_eq (s : State) : s.skipWidth = if s.read16 s.pc = longWord then 4#16 else 2#16 := by
  unfold State.skipWidth State.read16
  simp only [wordOf_eq_longWord]

theorem State.skip_result (s : State) : s.skip = { s with pc := s.pc + s.skipWidth } := by
  rw [State.skipWidth_eq]
  rfl

/-- A conditional skip moves the pc where its condition holds and changes nothing else (41_control.md R137). -/
theorem State.skipIf_result (s : State) (c : Bool) :
    s.skipIf c = { s with pc := if c = true then s.pc + s.skipWidth else s.pc } := by
  cases c with
  | false => rfl
  | true => exact s.skip_result

theorem State.skipIf_beq (s : State) (a b : Byte) :
    s.skipIf (a == b) = { s with pc := if a = b then s.pc + s.skipWidth else s.pc } := by
  simp only [State.skipIf_result, beq_iff_eq]

theorem State.skipIf_bne (s : State) (a b : Byte) :
    s.skipIf (a != b) = { s with pc := if a ≠ b then s.pc + s.skipWidth else s.pc } := by
  simp only [State.skipIf_result, bne_iff_ne]

/-- Settles O32: each meaning is `skipIf` of a comparison, equality for SE and inequality for SNE. -/
theorem conditionalSkips : Obligations.ConditionalSkips := fun _ _ _ s =>
  ⟨congrArg Host.Outcome.next (s.skipIf_beq _ _), congrArg Host.Outcome.next (s.skipIf_bne _ _),
    congrArg Host.Outcome.next (s.skipIf_beq _ _), congrArg Host.Outcome.next (s.skipIf_bne _ _)⟩

end Sys2Proof.Machine
end

section
/-! Display (42_display.md): who changes the framebuffer, and what clearing, the resolutions, the scrolls and PLANE do to each
active cell. -/

namespace Sys2Proof.Machine

/-- Settles O20: every instruction outside the display family and DRW is a composition of updates that keep the framebuffer,
CALL and RET where they fault too. -/
theorem onlyDisplayInstructionsChangeTheFramebuffer : Obligations.OnlyDisplayInstructionsChangeTheFramebuffer := by
  intro i s t he hne
  cases i
  case cls | low | high | scr | scl | scd | scu | plane | drw => simp
  case call nnn => obtain ⟨_, _, _, rfl⟩ | ⟨_, _, rfl⟩ := execCall_cases he <;> exact absurd rfl hne
  case ret => obtain ⟨_, _, rfl⟩ | ⟨_, _, rfl⟩ := execRet_cases he <;> exact absurd rfl hne
  all_goals
    obtain rfl := Host.Outcome.next.inj he
    simp at hne

/-! ## Clearing, the resolution and the selector -/

/-- Settles O34: the one update of CLS is `ClearPlanes` of the selector. -/
theorem clsClearsTheSelectedPlanes : Obligations.ClsClearsTheSelectedPlanes := fun s =>
  ⟨_, rfl, rfl, s.fb.clearPlanes_res s.plane, fun _ _ hy hx => s.fb.cell_clearPlanes s.plane hy hx⟩

/-- Settles O35: the one update of each is `SetResolution`, after which every cell is 0x80. -/
theorem resolutionChangesClearTheScreen : Obligations.ResolutionChangesClearTheScreen := fun s =>
  ⟨⟨_, rfl, rfl, rfl, rfl, fun y x _ _ => s.fb.cell_setResolution .low y x⟩,
    ⟨_, rfl, rfl, rfl, rfl, fun y x _ _ => s.fb.cell_setResolution .high y x⟩⟩

/-- Settles O38: PLANE with a legal mask sets the selector and invalidates the screen. -/
theorem planeSelectsAndInvalidates : Obligations.PlaneSelectsAndInvalidates := fun _ s hn =>
  ⟨_, execPlane_of_le hn s, rfl, s.fb.invalidate_res, fun _ _ hy hx => s.fb.cell_invalidate hy hx⟩

/-! ## The scrolls -/

/-- A cell after a scroll, where `p` says that the cell (sy, sx) moves onto it and that this cell is on the screen. -/
theorem Framebuffer.cell_scroll_of_source (fb : Framebuffer) {dx dy : Int} (hd : ¬(dx = 0 ∧ dy = 0)) {y x sy sx : Nat}
    (hy : y < fb.res.height) (hx : x < fb.res.width) {p : Prop} [Decidable p]
    (hp : p ↔ 0 ≤ (y : Int) - dy ∧ (y : Int) - dy < fb.res.height ∧ 0 ≤ (x : Int) - dx ∧ (x : Int) - dx < fb.res.width)
    (hs : p → (y : Int) - dy = sy ∧ (x : Int) - dx = sx) :
    (fb.scroll dx dy).cell y x = (if p then fb.cell sy sx &&& 0x03#8 else 0#8) ||| 0x80#8 := by
  rw [fb.cell_scroll hd hy hx]
  by_cases h : p
  · obtain ⟨hsy, hsx⟩ := hs h
    rw [if_pos h, if_pos (hp.1 h), hsy, hsx]
    rfl
  · rw [if_neg h, if_neg (h ∘ hp.2)]

section
variable (fb : Framebuffer) {k y x : Nat} (hk : 0 < k) (hy : y < fb.res.height) (hx : x < fb.res.width)
include hk hy hx

/-- Down by `k`: the top `k` rows are vacated (42_display.md R156). -/
theorem Framebuffer.cell_scroll_down : (fb.scroll 0 k).cell y x =
    (if k ≤ y then fb.cell (y - k) x &&& 0x03#8 else 0#8) ||| 0x80#8 :=
  fb.cell_scroll_of_source (by omega) hy hx (by omega) (by omega)

/-- Up by `k`: the bottom `k` rows are vacated (42_display.md R157). -/
theorem Framebuffer.cell_scroll_up : (fb.scroll 0 (-k)).cell y x =
    (if y + k < fb.res.height then fb.cell (y + k) x &&& 0x03#8 else 0#8) ||| 0x80#8 :=
  fb.cell_scroll_of_source (by omega) hy hx (by omega) (by omega)

/-- Right by `k`: the left `k` columns are vacated (42_display.md R158). -/
theorem Framebuffer.cell_scroll_right : (fb.scroll k 0).cell y x =
    (if k ≤ x then fb.cell y (x - k) &&& 0x03#8 else 0#8) ||| 0x80#8 :=
  fb.cell_scroll_of_source (by omega) hy hx (by omega) (by omega)

/-- Left by `k`: the right `k` columns are vacated (42_display.md R159). -/
theorem Framebuffer.cell_scroll_left : (fb.scroll (-k) 0).cell y x =
    (if x + k < fb.res.width then fb.cell y (x + k) &&& 0x03#8 else 0#8) ||| 0x80#8 :=
  fb.cell_scroll_of_source (by omega) hy hx (by omega) (by omega)

end

/-- Settles O36: each meaning is one scroll, down or up by the nibble or right or left by 4. -/
theorem scrollsMoveBothPlanes : Obligations.ScrollsMoveBothPlanes := by
  intro n s
  have hpos : n ≠ 0#4 → 0 < n.toNat := fun hn => by bv_omega
  exact ⟨fun hn => ⟨_, rfl, rfl, s.fb.scroll_res _ _, fun _ _ => s.fb.cell_scroll_down (hpos hn)⟩,
    fun hn => ⟨_, rfl, rfl, s.fb.scroll_res _ _, fun _ _ => s.fb.cell_scroll_up (hpos hn)⟩,
    ⟨_, rfl, rfl, s.fb.scroll_res _ _, fun _ _ => s.fb.cell_scroll_right four_pos⟩,
    ⟨_, rfl, rfl, s.fb.scroll_res _ _, fun _ _ => s.fb.cell_scroll_left four_pos⟩⟩

/-- Settles O37: both are the zero-zero scroll of the framebuffer. -/
theorem scrollByZeroChangesNothing : Obligations.ScrollByZeroChangesNothing := by
  intro s
  have hzero : ({ s with fb := s.fb.scroll 0 0 } : State) = s := by rw [s.fb.scroll_zero]
  exact ⟨congrArg Host.Outcome.next hzero, congrArg Host.Outcome.next hzero⟩

end Sys2Proof.Machine
end

section
/-! Register arithmetic and logic (43_alu.md): the copies and the logic, and the two writes of a result and its flag. -/

namespace Sys2Proof.Machine

/-- Settles O39: each of the four is one register write. -/
theorem copyAndLogicWriteNoFlag : Obligations.CopyAndLogicWriteNoFlag := fun _ _ _ => ⟨rfl, rfl, rfl, rfl⟩

/-! ## Results and flags -/

theorem flagByte_decide (p : Prop) [Decidable p] : flagByte (decide p) = if p then 1#8 else 0#8 := by
  simp only [flagByte, decide_eq_true_eq]

theorem carryOut_eq (a b : Byte) : carryOut a b = if 255 < a.toNat + b.toNat then 1#8 else 0#8 :=
  flagByte_decide _

theorem noBorrow_eq (a b : Byte) : noBorrow a b = if b.toNat ≤ a.toNat then 1#8 else 0#8 :=
  flagByte_decide _

theorem shiftedOutRight_eq (a : Byte) : shiftedOutRight a = if a.getLsbD 0 then 1#8 else 0#8 := by
  unfold shiftedOutRight
  rw [BitVec.and_one_eq_setWidth_ofBool_getLsbD]
  cases a.getLsbD 0 <;> rfl

/-- Bit 7 of a byte says whether it is 128 or more, and so does its quotient by 128. -/
theorem shiftedOutLeft_eq (a : Byte) : shiftedOutLeft a = if a.getLsbD 7 then 1#8 else 0#8 := by
  have htop : a.getLsbD 7 = decide (128 ≤ a.toNat) := a.msb_eq_decide
  have hquot : (shiftedOutLeft a).toNat = a.toNat / 128 := Nat.shiftRight_eq_div_pow a.toNat 7
  simp only [htop, decide_eq_true_eq]
  split <;> bv_omega

theorem byte_shiftRight_one (a : Byte) : a >>> 1 = BitVec.ofNat 8 (a.toNat / 2) := by
  apply BitVec.eq_of_toNat_eq
  rw [BitVec.toNat_ushiftRight, Nat.shiftRight_eq_div_pow, BitVec.toNat_ofNat]
  omega

theorem byte_shiftLeft_one (a : Byte) : a <<< 1 = BitVec.ofNat 8 (a.toNat * 2) := by
  rw [BitVec.shiftLeft_eq_mul_twoPow, BitVec.ofNat_mul, BitVec.ofNat_toNat, BitVec.setWidth_eq]
  rfl

/-! ## The two writes -/

/-- VF ends with the flag, but where X = F and the order quirk writes the result last (43_alu.md R170). -/
theorem State.getV_writeBoth_flag_or_result (s : State) (x r : Reg) (b f : Byte) :
    (s.writeBoth x b f).getV r =
      if r = 0xF#4 ∧ (x ≠ 0xF#4 ∨ s.inp.quirks.vfFlagLast = true) then f else if r = x then b else s.getV r := by
  rw [State.getV_writeBoth]
  by_cases hr : r = 0xF#4
  · subst hr
    by_cases hx : x = 0xF#4
    · simp [hx, Reg.flag]
    · simp [hx, Ne.symm hx, Reg.flag]
  · simp [hr, Reg.flag]

/-- The shape shared by the instructions that set a flag: `b` and `f` are the model's result and flag, `b'` and `f'` what
the spec gives for them. -/
theorem State.next_writeBoth (s : State) (x r : Reg) {b f b' f' : Byte} (hb : b = b') (hf : f = f') :
    ∃ t, (.next (s.writeBoth x b f) : Host.Outcome State Fault Refusal) = .next t ∧ t = { s with v := t.v } ∧
      t.getV r =
        if r = 0xF#4 ∧ (x ≠ 0xF#4 ∨ s.inp.quirks.vfFlagLast = true) then f' else if r = x then b' else s.getV r := by
  subst hb hf
  exact ⟨_, rfl, s.writeBoth_eq x b f, s.getV_writeBoth_flag_or_result x r b f⟩

/-- Settles O40: each of the three is `writeBoth` of operands read before it. -/
theorem addAndSubtractSetTheFlag : Obligations.AddAndSubtractSetTheFlag := fun x y r s =>
  ⟨s.next_writeBoth x r (BitVec.add_def _ _) (carryOut_eq _ _),
    s.next_writeBoth x r rfl (noBorrow_eq (s.getV x) (s.getV y)),
    s.next_writeBoth x r rfl (noBorrow_eq (s.getV y) (s.getV x))⟩

/-- Settles O41: both shifts are `writeBoth` of the source's shift and the bit it loses. -/
theorem shiftsSetTheFlag : Obligations.ShiftsSetTheFlag := by
  intro x y r s src hsrc
  obtain rfl : src = s.shiftSource x y := hsrc
  exact ⟨s.next_writeBoth x r (byte_shiftRight_one _) (shiftedOutRight_eq _),
    s.next_writeBoth x r (byte_shiftLeft_one _) (shiftedOutLeft_eq _)⟩

end Sys2Proof.Machine
end

section
/-! Immediate loads, the index register and random (44_immediate_index_random.md), with the font pointers of
48_memory_ops.md: word and byte arithmetic read as arithmetic on numbers. -/

namespace Sys2Proof.Machine

/-- Settles O42: each is one register write, of the immediate, the wrapped sum or the masked host byte. -/
theorem immediateAndRandomLoads : Obligations.ImmediateAndRandomLoads := fun x _ s =>
  ⟨rfl, congrArg (fun b => Host.Outcome.next (s.setV x b)) (BitVec.add_def _ _), rfl⟩

theorem word_add_byte (w : Word) (b : Byte) : w + b.setWidth 16 = BitVec.ofNat 16 (w.toNat + b.toNat) := by
  rw [BitVec.ofNat_add, BitVec.ofNat_toNat, BitVec.ofNat_toNat, BitVec.setWidth_eq]

theorem lowNibble_widened (b : Byte) : (b &&& 0x0F#8).setWidth 16 = BitVec.ofNat 16 (b.toNat % 16) := by
  rw [← BitVec.ofNat_toNat, BitVec.toNat_and]
  exact congrArg (BitVec.ofNat 16) (Nat.and_two_pow_sub_one_eq_mod b.toNat 4)

theorem smallGlyph_eq (b : Byte) : smallGlyph b = BitVec.ofNat 16 (5 * (b.toNat % 16)) := by
  rw [smallGlyph, lowNibble_widened, BitVec.ofNat_mul]

theorem bigGlyph_eq (b : Byte) : bigGlyph b = BitVec.ofNat 16 (0x50 + 10 * (b.toNat % 16)) := by
  rw [bigGlyph, lowNibble_widened, BitVec.ofNat_add, BitVec.ofNat_mul]

theorem State.next_i_congr (s : State) {w w' : Word} (h : w = w') :
    (.next { s with i := w } : Host.Outcome State Fault Refusal) = .next { s with i := w' } := by rw [h]

/-- Settles O43: each is one write of I, of an address field, the wrapped sum or a glyph's address. -/
theorem indexRegisterLoads : Obligations.IndexRegisterLoads := fun _ _ x s =>
  ⟨rfl, rfl, s.next_i_congr (word_add_byte s.i (s.getV x)), s.next_i_congr (smallGlyph_eq (s.getV x)),
    s.next_i_congr (bigGlyph_eq (s.getV x))⟩

end Sys2Proof.Machine
end

section
/-! Sprites (45_sprite.md): what `Write` and DRW do to each cell and answer. -/

namespace Sys2Proof.Machine

/-! ## One cell -/

/-- The cell `c` after plane `p` was drawn: where a set bit hits it, the plane's bit is flipped and the cell marked dirty; else
it is as it was (45_sprite.md R210). -/
def Plane.draw (p : Plane) (hit : Prop) [Decidable hit] (c : Byte) : Byte := if hit then (c ^^^ p.mask) ||| 0x80#8 else c

section
variable {p q : Plane} {hit : Prop} [Decidable hit] (c : Byte)

theorem Plane.draw_of_not_hit (h : ¬hit) : p.draw hit c = c := if_neg h

theorem Plane.draw_and_mask (h : hit) : p.draw hit c &&& p.mask = ~~~c &&& p.mask := by
  rw [Plane.draw, if_pos h]
  cases p <;> revert c <;> decide

/-- The other plane takes no part (45_sprite.md R211). -/
theorem Plane.draw_and_mask_of_ne (hq : p ≠ q) : p.draw hit c &&& q.mask = c &&& q.mask := by
  by_cases h : hit
  · rw [Plane.draw, if_pos h]
    cases p <;> cases q
    case one.one | two.two => exact absurd rfl hq
    all_goals revert c; decide
  · rw [Plane.draw_of_not_hit c h]

theorem Plane.draw_dirty (h : hit ∨ c &&& 0x80#8 = 0x80#8) : p.draw hit c &&& 0x80#8 = 0x80#8 := by
  unfold Plane.draw
  split
  · generalize c ^^^ p.mask = flipped
    revert flipped
    decide
  · next hn => exact h.resolve_left hn

/-- Flipping a pixel twice restores the plane bits (45_sprite.md R218). -/
theorem Plane.draw_draw_planes : p.draw hit (p.draw hit c) &&& 0x03#8 = c &&& 0x03#8 := by
  by_cases h : hit
  · simp only [Plane.draw, if_pos h]
    cases p <;> revert c <;> decide
  · rw [Plane.draw_of_not_hit _ h, Plane.draw_of_not_hit _ h]

/-- The planes may be drawn in either order. -/
theorem Plane.draw_comm {hit' : Prop} [Decidable hit'] :
    p.draw hit (q.draw hit' c) = q.draw hit' (p.draw hit c) := by
  by_cases h : hit
  · by_cases h' : hit'
    · simp only [Plane.draw, if_pos h, if_pos h']
      cases p <;> cases q <;> revert c <;> decide
    · rw [Plane.draw_of_not_hit _ h', Plane.draw_of_not_hit _ h']
  · rw [Plane.draw_of_not_hit _ h, Plane.draw_of_not_hit _ h]

/-- A clear pixel is set after it was hit. -/
theorem Plane.draw_and_mask_ne_zero (h : hit) (hc : c &&& p.mask = 0#8) : p.draw hit c &&& p.mask ≠ 0#8 := by
  rw [Plane.draw_and_mask c h]
  cases p <;> revert c <;> decide

end

/-! ## `Write` -/

/-- Settles O44: the zero byte is the first branch of `Write`. -/
theorem writeOfZeroDoesNothing : Obligations.WriteOfZeroDoesNothing := fun _ _ _ _ => if_pos rfl

/-- Settles O45: `Write` goes pixel by pixel, and no two of its pixels fall on one cell. -/
theorem writeFlipsTheCellsUnderItsSetBits : Obligations.WriteFlipsTheCellsUnderItsSetBits := by
  intro fb p y x b
  refine ⟨fb.write_res p y x b, fun y' x' _ hx' => ?_, fb.hit_write p y x b⟩
  rw [fb.cell_write p y x b (lt_of_lt_of_le hx' fb.res.width_le)]
  simp only [eq_comm (a := x')]

/-- `Write` is `DrawRow` without clipping, so it draws the row's pixels. -/
theorem Framebuffer.cell_write_eq_draw (fb : Framebuffer) (p : Plane) (y x : Nat) (b : Byte) {y' x' : Nat} (hx' : x' < 128) :
    (fb.write p y x b).1.cell y' x' = p.draw (rowPixel fb.res y x b false y' x') (fb.cell y' x') :=
  fb.cell_drawRow p y x b false hx'

theorem exists_getMsbD_of_ne_zero : ∀ {b : Byte}, b ≠ 0#8 → ∃ k < 8, b.getMsbD k = true := by decide

theorem rowPixel_lt {r : Resolution} {y x : Nat} {b : Byte} {clip : Bool} {y' x' : Nat}
    (h : rowPixel r y x b clip y' x') : x' < 128 := by
  obtain ⟨_, k, _, _, rfl, _⟩ := h
  exact lt_of_lt_of_le (Nat.mod_lt _ (lt_of_lt_of_le (by decide) r.width_pos)) r.width_le

/-- Settles O46: the second write flips the same pixels back, and a pixel that the first found clear is set when the second
comes. -/
theorem writingTwiceCollidesAndRestores : Obligations.WritingTwiceCollidesAndRestores := by
  intro fb p y x b
  refine ⟨fun y' x' _ hx' => ?_, fun hb hfirst => ?_⟩
  · have hx : x' < 128 := lt_of_lt_of_le hx' fb.res.width_le
    rw [Framebuffer.cell_write_eq_draw _ _ _ _ _ hx, fb.cell_write_eq_draw p y x b hx, fb.write_res]
    exact Plane.draw_draw_planes _
  · obtain ⟨k, hk, hbk⟩ := exists_getMsbD_of_ne_zero hb
    have hpixel : rowPixel fb.res y x b false (y % fb.res.height) ((x + k) % fb.res.width) :=
      ⟨rfl, k, hk, hbk, rfl, nofun⟩
    have hclear : fb.cell (y % fb.res.height) ((x + k) % fb.res.width) &&& p.mask = 0#8 := by
      by_contra hset
      exact Bool.false_ne_true (hfirst.symm.trans ((fb.hit_write p y x b).2 ⟨k, hk, hbk, hset⟩))
    refine (Framebuffer.hit_write ..).2 ⟨k, hk, hbk, ?_⟩
    rw [fb.write_res, fb.cell_write_eq_draw p y x b (rowPixel_lt hpixel)]
    exact Plane.draw_and_mask_ne_zero _ hpixel hclear

/-! ## DRW: the two slices -/

/-- The slice of memory DRW draws in plane `p`: no byte where the plane is not selected (45_sprite.md R213). -/
def State.planeBytes (s : State) (n : BitVec 4) (p : Plane) : List Byte :=
  if p.selected s.plane then s.readBytes (s.i + BitVec.ofNat 16 (spriteOffset s.plane n p)) (spriteSize n) else []

/-- The slice of plane `p`, drawn at the origin that VX and VY give. -/
def State.drawPlane (s : State) (vx vy : Reg) (n : BitVec 4) (p : Plane) (acc : Framebuffer × Bool) : Framebuffer × Bool :=
  drawSlice p ((s.getV vy).toNat % s.fb.res.height) ((s.getV vx).toNat % s.fb.res.width) (spriteRowBytes n)
    s.inp.quirks.spriteClip 0 (s.planeBytes n p) acc

/-- A sprite is plane 1's slice, then plane 2's, whatever the selector's two bits are: a plane that is not selected draws the
empty slice, and plane 2's bytes come first where plane 1 is not selected (45_sprite.md R213). -/
theorem State.sprite_eq (s : State) (vx vy : Reg) (n : BitVec 4) :
    s.sprite vx vy n = s.drawPlane vx vy n .two (s.drawPlane vx vy n .one (s.fb, false)) := by
  cases h1 : Plane.one.selected s.plane <;> cases h2 : Plane.two.selected s.plane <;>
    simp [State.sprite, selectedPlanes, State.drawPlane, State.planeBytes, spriteOffset, h1, h2, State.drawPlanes, drawSlice]

@[simp] theorem State.drawPlane_res (s : State) (vx vy : Reg) (n : BitVec 4) (p : Plane) (acc : Framebuffer × Bool) :
    (s.drawPlane vx vy n p acc).1.res = acc.1.res := drawSlice_res ..

/-- What `spritePixel` says of a plane is what its slice draws. -/
theorem State.spritePixel_iff (s : State) (vx vy : Reg) (n : BitVec 4) (p : Plane) (y x : Nat) :
    s.spritePixel vx vy n p y x ↔
    slicePixel s.fb.res ((s.getV vy).toNat % s.fb.res.height) ((s.getV vx).toNat % s.fb.res.width) (spriteRowBytes n)
      s.inp.quirks.spriteClip 0 (s.planeBytes n p) y x := by
  unfold State.spritePixel State.planeBytes
  by_cases hp : p.selected s.plane = true
  · simp only [hp, if_true, true_and, slicePixel, rowPixel, State.readBytes_length, State.readBytes_getElem, Nat.zero_add,
      BitVec.ofNat_add, BitVec.add_assoc, exists_prop]
    constructor
    · rintro ⟨t, ht, k, hk, hbit, hy, hx, hclip⟩
      exact ⟨t, ht, hy, k, hk, hbit, hx, hclip⟩
    · rintro ⟨t, ht, hy, k, hk, hbit, hx, hclip⟩
      exact ⟨t, ht, k, hk, hbit, hy, hx, hclip⟩
  · simp [hp, slicePixel]

theorem State.spritePixel_lt {s : State} {vx vy : Reg} {n : BitVec 4} {p : Plane} {y x : Nat}
    (h : s.spritePixel vx vy n p y x) : x < 128 := by
  obtain ⟨t, _, hrow⟩ := (s.spritePixel_iff vx vy n p y x).1 h
  exact rowPixel_lt hrow

theorem spriteRowBytes_eq (n : BitVec 4) : spriteRowBytes n = 1 ∨ spriteRowBytes n = 2 := by
  unfold spriteRowBytes
  split
  · exact .inr rfl
  · exact .inl rfl

/-- A plane's slice has at most 16 rows. -/
theorem State.planeBytes_length_le (s : State) (n : BitVec 4) (p : Plane) :
    (s.planeBytes n p).length ≤ 16 * spriteRowBytes n := by
  have hsize : spriteSize n ≤ 16 * spriteRowBytes n := by
    revert n
    decide
  unfold State.planeBytes
  split
  · rwa [State.readBytes_length]
  · exact Nat.zero_le _

section
variable (s : State) (vx vy : Reg) (n : BitVec 4) (p : Plane) (acc : Framebuffer × Bool) (hres : acc.1.res = s.fb.res)
include hres

open Classical in
theorem State.cell_drawPlane {y x : Nat} (hx : x < 128) : (s.drawPlane vx vy n p acc).1.cell y x =
    p.draw (s.spritePixel vx vy n p y x) (acc.1.cell y x) := by
  have hlen := (Nat.zero_add _).trans_le (s.planeBytes_length_le n p)
  obtain ⟨hhit, hmiss⟩ := cell_drawSlice p _ _ s.inp.quirks.spriteClip 0 _ acc (spriteRowBytes_eq n) hlen (y' := y) hx
  rw [hres] at hhit hmiss
  by_cases h : s.spritePixel vx vy n p y x
  · exact (hhit ((s.spritePixel_iff ..).1 h)).trans (if_pos h).symm
  · exact (hmiss (mt (s.spritePixel_iff ..).2 h)).trans (if_neg h).symm

theorem State.hit_drawPlane : (s.drawPlane vx vy n p acc).2 = true ↔
    acc.2 = true ∨ ∃ y x, s.spritePixel vx vy n p y x ∧ acc.1.cell y x &&& p.mask ≠ 0#8 := by
  have hlen := (Nat.zero_add _).trans_le (s.planeBytes_length_le n p)
  unfold State.drawPlane
  rw [hit_drawSlice _ _ _ _ _ _ _ (spriteRowBytes_eq n) hlen, hres]
  simp only [State.spritePixel_iff]

end

/-! ## DRW: both planes -/

section
variable (s : State) (vx vy : Reg) (n : BitVec 4)

open Classical in
/-- Each cell after a sprite (45_sprite.md R217). -/
theorem State.cell_sprite {y x : Nat} (hx : x < 128) : (s.sprite vx vy n).1.cell y x =
    Plane.two.draw (s.spritePixel vx vy n .two y x)
      (Plane.one.draw (s.spritePixel vx vy n .one y x) (s.fb.cell y x)) := by
  rw [s.sprite_eq, s.cell_drawPlane vx vy n .two _ (s.drawPlane_res ..) hx, s.cell_drawPlane vx vy n .one _ rfl hx]

open Classical in
/-- A plane's bit of a cell is what the plane's own slice leaves. -/
theorem State.cell_sprite_and_mask (p : Plane) {y x : Nat} (hx : x < 128) : (s.sprite vx vy n).1.cell y x &&& p.mask =
    p.draw (s.spritePixel vx vy n p y x) (s.fb.cell y x) &&& p.mask := by
  rw [s.cell_sprite vx vy n hx]
  cases p with
  | one => exact Plane.draw_and_mask_of_ne _ nofun
  | two =>
    rw [Plane.draw_comm]
    exact Plane.draw_and_mask_of_ne _ nofun

/-- What a sprite answers: one plane's slice hits a set pixel (45_sprite.md R211, R216). -/
theorem State.hit_sprite : (s.sprite vx vy n).2 = true ↔
    ∃ p y x, s.spritePixel vx vy n p y x ∧ s.fb.cell y x &&& p.mask ≠ 0#8 := by
  have hmask : ∀ y x, s.spritePixel vx vy n .two y x →
      (s.drawPlane vx vy n .one (s.fb, false)).1.cell y x &&& Plane.two.mask = s.fb.cell y x &&& Plane.two.mask := by
    intro y x h
    classical
    rw [s.cell_drawPlane vx vy n .one _ rfl (State.spritePixel_lt h)]
    exact Plane.draw_and_mask_of_ne _ nofun
  rw [s.sprite_eq, s.hit_drawPlane vx vy n .two _ (s.drawPlane_res ..), s.hit_drawPlane vx vy n .one _ rfl]
  constructor
  · rintro ((h | ⟨y, x, h, hset⟩) | ⟨y, x, h, hset⟩)
    · exact absurd h Bool.false_ne_true
    · exact ⟨.one, y, x, h, hset⟩
    · exact ⟨.two, y, x, h, hmask y x h ▸ hset⟩
  · rintro ⟨p, y, x, h, hset⟩
    cases p with
    | one => exact .inl (.inr ⟨y, x, h, hset⟩)
    | two => exact .inr ⟨y, x, h, (hmask y x h).symm ▸ hset⟩

end

/-- DRW writes the framebuffer and VF (45_sprite.md R216, R217). -/
theorem exec_drw (vx vy : Reg) (n : BitVec 4) (s : State) : exec (.drw vx vy n) s =
    .next { s with fb := (s.sprite vx vy n).1, v := s.v.set 15 (flagByte (s.sprite vx vy n).2) } := rfl

/-- Settles O47: each plane's slice draws its own pixels, no pixel twice, and leaves the other plane's bits. -/
theorem drwDrawsTheSpriteAndSetsVF : Obligations.DrwDrawsTheSpriteAndSetsVF := by
  intro vx vy n s
  refine ⟨_, exec_drw vx vy n s, s.sprite_res vx vy n, ⟨_, rfl, ?_⟩, fun y x _ hxw => ?_⟩
  · rw [← s.hit_sprite]
    cases (s.sprite vx vy n).2
    · exact .inr ⟨rfl, Bool.false_ne_true⟩
    · exact .inl ⟨rfl, rfl⟩
  · classical
    have hx : x < 128 := lt_of_lt_of_le hxw s.fb.res.width_le
    have hcell := s.cell_sprite vx vy n (y := y) hx
    refine ⟨fun p h => ?_, fun p h => ?_, ?_, fun h => ?_⟩
    · exact (s.cell_sprite_and_mask vx vy n p hx).trans (Plane.draw_and_mask _ h)
    · exact (s.cell_sprite_and_mask vx vy n p hx).trans (by rw [Plane.draw_of_not_hit _ h])
    · rintro ⟨p, h⟩
      refine (congrArg (· &&& 0x80#8) hcell).trans (Plane.draw_dirty _ ?_)
      cases p with
      | one => exact .inr (Plane.draw_dirty _ (.inl h))
      | two => exact .inl h
    · refine hcell.trans ?_
      rw [Plane.draw_of_not_hit _ (fun h2 => h ⟨.two, h2⟩), Plane.draw_of_not_hit _ (fun h1 => h ⟨.one, h1⟩)]

/-- Settles O48: no plane is selected, so no slice is drawn. -/
theorem drwWithNoPlaneDrawsNothing : Obligations.DrwWithNoPlaneDrawsNothing := by
  intro vx vy n s hplane
  have hsprite : s.sprite vx vy n = (s.fb, false) := by
    rw [State.sprite, hplane]
    rfl
  rw [exec_drw, hsprite]
  rfl

end Sys2Proof.Machine
end

section
/-! Key input (46_input.md): the key skips, the entry into the key wait, and its service by the tick of a waiting machine. -/

namespace Sys2Proof.Machine

/-! ## The instructions -/

theorem State.skipIf_not (s : State) (c : Bool) :
    s.skipIf (!c) = { s with pc := if c = false then s.pc + s.skipWidth else s.pc } := by
  simp only [State.skipIf_result, Bool.not_eq_true']

/-- Settles O33: both are `skipIf` of the host's answer for VX, SKNP of its negation. -/
theorem keySkips : Obligations.KeySkips := fun _ s =>
  ⟨congrArg Host.Outcome.next (s.skipIf_result _), congrArg Host.Outcome.next (s.skipIf_not _)⟩

/-- Settles O49: FX0A is one update of the run state and the key-wait state. -/
theorem keyWaitEntry : Obligations.KeyWaitEntry := fun _ _ => rfl

/-! ## The least key down -/

/-- The host is asked for key `j` itself: the key's nibble loses no bit of `j`. -/
theorem State.keyDown_ofNat (s : State) {j : Nat} (hj : j < 16) :
    s.keyDown ((BitVec.ofNat 4 j).setWidth 8) = s.inp.keys.getLsbD j := by
  have hkey : ((BitVec.ofNat 4 j).setWidth 8).toNat = j := by
    rw [BitVec.toNat_setWidth, BitVec.toNat_ofNat]
    omega
  rw [State.keyDown, hkey]

/-- The keys are asked for in the order of their numbers (46_input.md R244). -/
theorem State.leastKeyDown_eq (s : State) : s.leastKeyDown =
    ((List.range 16).find? (fun j => s.keyDown ((BitVec.ofNat 4 j).setWidth 8))).map (BitVec.ofNat 4) :=
  List.find?_map ..

theorem State.leastKeyDown_eq_none_iff {s : State} :
    s.leastKeyDown = none ↔ ∀ j < 16, s.inp.keys.getLsbD j = false := by
  rw [State.leastKeyDown_eq, Option.map_eq_none_iff, List.find?_range_eq_none]
  refine forall₂_congr fun j hj => ?_
  rw [s.keyDown_ofNat hj, Bool.not_eq_true']

theorem State.leastKeyDown_eq_some {s : State} {k : BitVec 4} (hk : s.inp.keys.getLsbD k.toNat = true)
    (hlt : ∀ j < k.toNat, s.inp.keys.getLsbD j = false) : s.leastKeyDown = some k := by
  have hfind : (List.range 16).find? (fun j => s.keyDown ((BitVec.ofNat 4 j).setWidth 8)) = some k.toNat := by
    rw [List.find?_range_eq_some, s.keyDown_ofNat k.isLt]
    refine ⟨hk, List.mem_range.2 k.isLt, fun j hj => ?_⟩
    rw [s.keyDown_ofNat (hj.trans k.isLt), hlt j hj]
    rfl
  rw [State.leastKeyDown_eq, hfind, Option.map_some, BitVec.ofNat_toNat, BitVec.setWidth_eq]

/-! ## The service of the key wait -/

section
variable {s : State}

/-- Neither variant does anything while no key is down and none was seen. -/
theorem State.serviceKeyWait_idle (hl : s.leastKeyDown = none) (hs : s.params.keyWaitEdge = true → s.kw.seen = none) :
    s.serviceKeyWait = s := by
  unfold State.serviceKeyWait
  split
  · next he => simp only [hs he, hl]
  · simp only [hl]

theorem State.serviceKeyWait_remembers (he : s.params.keyWaitEdge = true) (hs : s.kw.seen = none) {k : BitVec 4}
    (hl : s.leastKeyDown = some k) : s.serviceKeyWait = { s with kw := { s.kw with seen := some k } } := by
  unfold State.serviceKeyWait
  rw [if_pos he]
  simp only [hs, hl]

/-- The key seen stays while a key is down, whichever that is. -/
theorem State.serviceKeyWait_holds (he : s.params.keyWaitEdge = true) {k : BitVec 4} (hs : s.kw.seen = some k)
    (hl : s.leastKeyDown ≠ none) : s.serviceKeyWait = s := by
  obtain ⟨_, hl⟩ := Option.ne_none_iff_exists'.1 hl
  unfold State.serviceKeyWait
  rw [if_pos he]
  simp only [hs, hl]

theorem State.serviceKeyWait_released (he : s.params.keyWaitEdge = true) {k : BitVec 4} (hs : s.kw.seen = some k)
    (hl : s.leastKeyDown = none) : s.serviceKeyWait =
      { s.setV s.kw.target (k.setWidth 8) with kw := { s.kw with seen := none }, run := .running } := by
  unfold State.serviceKeyWait
  rw [if_pos he]
  simp only [hs, hl]

theorem State.serviceKeyWait_level (he : s.params.keyWaitEdge = false) {k : BitVec 4} (hl : s.leastKeyDown = some k) :
    s.serviceKeyWait = { s.setV s.kw.target (k.setWidth 8) with run := .running } := by
  unfold State.serviceKeyWait
  rw [if_neg (by simp [he])]
  simp only [hl]

/-! ## The tick of a waiting machine -/

theorem State.startTick_waiting (h : s.run = .waitingForKey) :
    s.startTick = { s.serviceKeyWait with tick := .inTick 0 } := by
  unfold State.startTick
  rw [h]

/-- The tick of a waiting machine starts with the service and leaves no budget (40_cycle.md R117). -/
theorem step_waiting (ha : s.audioQuiet) (ht : s.tick = .between) (hc : s.inp.call = .tick)
    (hr : s.run = .waitingForKey) {t : State} (h : s.settleStores.serviceKeyWait = t) :
    step s = .next ({ t with tick := .inTick 0 } : State).nextTurn := by
  rw [step_between ha ht, State.hostCall_tick (s := s.settleStores) hc, State.startTick_waiting (s := s.settleStores) hr, h]

end

/-- Settles O11: the four cases of the edge-triggered service, by the key seen and the keys down. -/
theorem keyWaitServiceEdgeTriggered : Obligations.KeyWaitServiceEdgeTriggered := by
  intro s ha ht hc hr he
  refine ⟨fun hup hs => ?_, fun k hk hlt hs => ?_, fun k j hj hdown hs => ?_, fun k hup hs => ?_⟩
  · have hnone : s.settleStores.leastKeyDown = none := State.leastKeyDown_eq_none_iff.2 hup
    exact step_waiting ha ht hc hr (State.serviceKeyWait_idle hnone fun _ => hs)
  · have hsome : s.settleStores.leastKeyDown = some k := State.leastKeyDown_eq_some hk hlt
    exact step_waiting ha ht hc hr (State.serviceKeyWait_remembers (s := s.settleStores) he hs hsome)
  · have hsome : s.settleStores.leastKeyDown ≠ none := fun hnone =>
      Bool.false_ne_true ((State.leastKeyDown_eq_none_iff.1 hnone j hj).symm.trans hdown)
    exact step_waiting ha ht hc hr (State.serviceKeyWait_holds he hs hsome)
  · have hnone : s.settleStores.leastKeyDown = none := State.leastKeyDown_eq_none_iff.2 hup
    exact step_waiting ha ht hc hr (State.serviceKeyWait_released (s := s.settleStores) he hs hnone)

/-- Settles O12: the two cases of the level-triggered service, by the keys down. -/
theorem keyWaitServiceLevelTriggered : Obligations.KeyWaitServiceLevelTriggered := by
  intro s ha ht hc hr he
  refine ⟨fun hup => ?_, fun k hk hlt => ?_⟩
  · have hnone : s.settleStores.leastKeyDown = none := State.leastKeyDown_eq_none_iff.2 hup
    exact step_waiting ha ht hc hr (State.serviceKeyWait_idle hnone fun hedge =>
      absurd (he.symm.trans hedge) Bool.false_ne_true)
  · have hsome : s.settleStores.leastKeyDown = some k := State.leastKeyDown_eq_some hk hlt
    exact step_waiting ha ht hc hr (State.serviceKeyWait_level (s := s.settleStores) he hsome)

end Sys2Proof.Machine
end

section
/-! Timers and the AUDIO instruction (47_timers.md, 49_audio.md): each is one update of the state. The pattern's bit is read
as a bit of one byte, the most significant first. -/

namespace Sys2Proof.Machine

/-- Settles O50: each is one update, and LD_ST installs the source by whether VX is 0. -/
theorem timerInstructions : Obligations.TimerInstructions := fun x s =>
  have hinstalls : (s.getV x != 0#8) = decide (s.getV x ≠ 0#8) := decide_not.symm
  ⟨rfl, rfl, congrArg (fun on => Host.Outcome.next (({ s with st := s.getV x } : State).setAudio on)) hinstalls⟩

/-- Each byte of the pattern is read most significant bit first (49_audio.md R311). -/
theorem patternBitBy_eq (read : Word → Byte) (base : Word) (cursor : BitVec 7) :
    patternBitBy read base cursor =
      (read (base + BitVec.ofNat 16 (cursor.toNat / 8))).getLsbD (7 - cursor.toNat % 8) := by
  have hbit : cursor.toNat % 8 < 8 := Nat.mod_lt _ (by decide)
  simp only [patternBitBy, BitVec.getMsbD, hbit, decide_true, Bool.true_and]

/-- Settles O51: the first bit is the most significant one of the byte at I. -/
theorem audioLatchesThePattern : Obligations.AudioLatchesThePattern := by
  intro s
  have hbit : s.patternBit s.i 0#7 = (s.readByte s.i).getLsbD 7 := by
    rw [State.patternBit, patternBitBy_eq]
    exact congrArg (fun a => (s.readByte a).getLsbD 7) (BitVec.add_zero s.i)
  rw [← hbit]
  rfl

end Sys2Proof.Machine
end

section
/-! Faults and the Halted machine (60_exceptions.md R330 to R338): the stack faults, that every step has a next state, and
that a Halted machine moves nothing but the audio agent's own state. -/

namespace Sys2Proof.Machine

/-! ## The stack faults -/

theorem execCall_of_full {s : State} (h : s.sp = 16) (nnn : BitVec 12) :
    exec (.call nnn) s = .next (s.raise .stackOverflow (some (0x2#4 ++ nnn))) := by
  change execCall nnn s = _
  unfold execCall
  rw [State.push_of_full s s.pc h]
  rfl

theorem execRet_of_empty {s : State} (h : s.sp = 0) :
    exec .ret s = .next (s.raise .stackUnderflow (some 0x00EE#16)) := by
  change execRet s = _
  unfold execRet
  rw [State.pop_of_empty s h]
  rfl

/-- Settles O31: with a full stack CALL raises its fault, with an empty one RET does, on the state as the fetch left it. -/
theorem stackFaultsHaltTheMachine : Obligations.StackFaultsHaltTheMachine := by
  refine fun nnn s => ⟨fun hfull => ⟨_, execCall_of_full hfull nnn, rfl, ?_⟩,
    fun hempty => ⟨_, execRet_of_empty hempty, rfl, ?_⟩⟩
  · rw [← hfull]
    rfl
  · rw [← hempty]
    rfl

/-! ## Every step has a next state -/

/-- Every instruction answers a next state; CALL and RET do so on both of their branches. -/
theorem exec_eq_next (i : Instr) (s : State) : ∃ t, exec i s = .next t := by
  cases i
  case call nnn =>
    change ∃ t, execCall nnn s = .next t
    unfold execCall
    split <;> exact ⟨_, rfl⟩
  case ret =>
    change ∃ t, execRet s = .next t
    unfold execRet
    split <;> exact ⟨_, rfl⟩
  all_goals exact ⟨_, rfl⟩

theorem State.runOne_eq_next (s : State) : ∃ t, s.runOne = .next t := by
  obtain ⟨-, hr⟩ | ⟨w, hr⟩ | ⟨i, a, hr⟩ := s.runOne_cases
  · exact ⟨_, hr⟩
  · exact ⟨_, hr⟩
  · obtain ⟨t, ht⟩ := exec_eq_next i (s.jump a)
    exact ⟨t, hr.trans ht⟩

theorem State.interpret_eq_next (s : State) : ∃ t, s.interpret = .next t := by
  obtain ⟨-, hi⟩ | ⟨-, hi⟩ | ⟨left, -, -, hi⟩ := s.interpret_cases
  · exact ⟨_, hi⟩
  · exact ⟨_, hi⟩
  · obtain ⟨t, ht⟩ := s.settleStores.runOne_eq_next
    exact ⟨_, hi.trans (mapNext_eq_next.2 ⟨t, ht, rfl⟩)⟩

/-- Settles O17: the audio agent's move is a next state, and every move of the interpreter answers one. -/
theorem everyStepHasANextState : Obligations.EveryStepHasANextState := by
  intro s
  obtain ⟨-, hs⟩ | ⟨-, hs⟩ := step_cases s
  · exact ⟨_, hs⟩
  · obtain ⟨t, ht⟩ := s.interpret_eq_next
    exact ⟨_, hs.trans (mapNext_eq_next.2 ⟨t, ht, rfl⟩)⟩

/-! ## The Halted machine -/

/-- The interpreter of a Halted machine, where no Load comes, does nothing but return from a tick (40_cycle.md R116). -/
theorem State.interpret_halted {s : State} (hr : s.run = .halted)
    (hload : ∀ image, s.tick = .between → s.inp.call ≠ .load image) :
    s.interpret = .next (s.settleStores.returnTick { continueRunning := false, audioStop := false }) := by
  obtain ⟨ht, hi⟩ | ⟨-, hi⟩ | ⟨left, -, hrun, -⟩ := s.interpret_cases
  · have hcall : s.inp.call = .tick := by
      cases hc : s.inp.call with
      | tick => rfl
      | load image => exact absurd hc (hload image ht)
    rw [hi, State.hostCall_tick (s := s.settleStores) hcall, State.startTick_halted (s := s.settleStores) hr]
  · rw [hi, State.finishTick_halted (s := s.settleStores) hr]
  · rw [hr] at hrun
    cases hrun

/-- Settles O19: the audio agent's move keeps all of this by its frame, and the interpreter only returns from a tick. -/
theorem haltedIsLeftOnlyByLoad : Obligations.HaltedIsLeftOnlyByLoad := by
  intro s t hr hload hstep
  obtain ⟨-, hs⟩ | ⟨-, hs⟩ := step_cases s
  · obtain rfl := Host.Outcome.next.inj (hs.symm.trans hstep)
    have hbase := s.audioMove_base
    have hon := s.audioMove_on
    rw [State.audioMove_eq]
    exact ⟨hr, rfl, rfl, rfl, rfl, rfl, rfl, rfl, rfl, rfl, rfl, rfl, rfl, rfl, hbase, hon⟩
  · rw [State.interpret_halted hr hload] at hs
    obtain rfl := Host.Outcome.next.inj (hs.symm.trans hstep)
    exact ⟨hr, rfl, rfl, rfl, rfl, rfl, rfl, rfl, rfl, rfl, rfl, rfl, rfl, rfl, rfl, rfl⟩

end Sys2Proof.Machine
end

section
/-! Block transfers, BCD and the flag store (48_memory_ops.md R280 to R288): a block store is a run of stores of the range's
registers, a block load a run of reads into them, and SAVE and LOAD take the range from V0. -/

namespace Sys2Proof.Machine

/-! ## Ranges from V0 -/

theorem zero_le_reg (x : Reg) : 0#4 ≤ x := Nat.zero_le _

theorem regRange_zero_length (x : Reg) : (regRange 0#4 x).length = x.toNat + 1 := by
  rw [regRange_length, if_pos (zero_le_reg x)]
  rfl

theorem mem_regRange_zero (x r : Reg) : r ∈ regRange 0#4 x ↔ r ≤ x := by
  rw [mem_regRange]
  bv_omega

/-! ## Block stores -/

/-- A byte after the registers of a range are stored from I upward: the register at its distance from I, else what it was. -/
theorem State.readByte_storeRange (s : State) (x y : Reg) (a : Word) :
    (s.storeBytes s.i ((regRange x y).map s.getV)).readByte a =
      if (a - s.i).toNat < (regRange x y).length then
        (if x ≤ y then s.getV (x + BitVec.ofNat 4 (a - s.i).toNat) else s.getV (x - BitVec.ofNat 4 (a - s.i).toNat))
      else s.readByte a := by
  have hle := regRange_length_le x y
  rw [State.readByte_storeBytes _ _ _ _ (by rw [List.length_map]; omega), List.getElem?_map]
  by_cases hk : (a - s.i).toNat < (regRange x y).length
  · rw [List.getElem?_eq_getElem hk, regRange_getElem, if_pos hk, ← apply_ite s.getV]
    rfl
  · rw [List.getElem?_eq_none (by omega), if_neg hk]
    rfl

/-- The stores of an instruction, with I moved, change memory, the notes and I only. -/
theorem State.storeBytes_setI_frame (s : State) (bs : List Byte) {w w' : Word} (h : w = w') :
    ({ s.storeBytes s.i bs with i := w } : State) =
      { s with mem := (s.storeBytes s.i bs).mem, unseen := (s.storeBytes s.i bs).unseen, i := w' } := by
  rw [h]
  exact congrArg (fun u : State => { u with i := w' }) (s.storeBytes_frame s.i bs)

/-- Settles O54: the stores of the range's registers; SAVE's range is the one from V0. -/
theorem blockStoresWriteTheRange : Obligations.BlockStoresWriteTheRange := by
  refine fun x y s => ⟨⟨_, rfl, ?_, fun a => ?_⟩, ⟨_, rfl, ?_, fun a => ?_⟩⟩
  · exact s.storeBytes_setI_frame _ (congrArg s.indexAfter (regRange_length x y))
  · refine (s.readByte_storeRange x y a).trans (if_congr ?_ rfl rfl)
    rw [regRange_length, Nat.lt_add_one_iff]
  · exact s.storeBytes_setI_frame _ (congrArg s.indexAfter (regRange_zero_length x))
  · refine (s.readByte_storeRange 0#4 x a).trans (if_congr ?_ ?_ rfl)
    · rw [regRange_zero_length, Nat.lt_add_one_iff]
    · rw [if_pos (zero_le_reg x), BitVec.zero_add]

/-! ## Block loads -/

/-- A register after a range is loaded from I upward: the byte at its distance from the range's first register. -/
theorem State.getV_loadRange (s : State) (a : Word) (x y r : Reg) :
    (s.loadRegs a (regRange x y)).getV r =
      if x ≤ r ∧ r ≤ y then s.readByte (a + BitVec.ofNat 16 (r.toNat - x.toNat))
      else if y ≤ r ∧ r ≤ x then s.readByte (a + BitVec.ofNat 16 (x.toNat - r.toNat))
      else s.getV r := by
  have hmem := mem_regRange x y r
  rw [State.getV_loadRegs _ _ _ (regRange_nodup x y)]
  by_cases hup : x ≤ r ∧ r ≤ y
  · have hr : r ∈ regRange x y := hmem.2 (.inl hup)
    rw [if_pos hr, if_pos hup, idxOf_regRange x y r hr, if_pos (BitVec.le_trans hup.1 hup.2),
      BitVec.toNat_sub_of_le hup.1]
  · by_cases hdown : y ≤ r ∧ r ≤ x
    · have hr : r ∈ regRange x y := hmem.2 (.inr hdown)
      have hxy : ¬x ≤ y := by bv_omega
      rw [if_pos hr, if_neg hup, if_pos hdown, idxOf_regRange x y r hr, if_neg hxy, BitVec.toNat_sub_of_le hdown.2]
    · rw [if_neg (mt hmem.1 (by tauto)), if_neg hup, if_neg hdown]

/-- A load of registers, with I moved, changes the registers and I only. -/
theorem State.loadRegs_setI_frame (s : State) (rs : List Reg) {w w' : Word} (h : w = w') :
    ({ s.loadRegs s.i rs with i := w } : State) = { s with v := (s.loadRegs s.i rs).v, i := w' } := by
  rw [h]
  exact congrArg (fun u : State => { u with i := w' }) (s.loadRegs_eq s.i rs)

/-- Settles O55: the load of the range's registers; LOAD's range is the one from V0. -/
theorem blockLoadsReadTheRange : Obligations.BlockLoadsReadTheRange := by
  refine fun x y s => ⟨⟨_, rfl, ?_, s.getV_loadRange s.i x y⟩, ⟨_, rfl, ?_, fun r => ?_⟩⟩
  · exact s.loadRegs_setI_frame _ (congrArg s.indexAfter (regRange_length x y))
  · exact s.loadRegs_setI_frame _ (congrArg s.indexAfter (regRange_zero_length x))
  · refine (s.getV_loadRange s.i 0#4 x r).trans ?_
    by_cases hr : r ≤ x
    · simp [hr]
    · have hup : ¬(0#4 ≤ r ∧ r ≤ x) := fun h => hr h.2
      have hdown : ¬(x ≤ r ∧ r ≤ 0#4) := by bv_omega
      rw [if_neg hup, if_neg hdown, if_neg hr]

/-! ## A store and then a load -/

/-- The byte at a register's place in the range stored is that register's. -/
theorem State.readByte_storeRange_idxOf (s : State) {x y r : Reg} (hr : r ∈ regRange x y) :
    (s.storeBytes s.i ((regRange x y).map s.getV)).readByte (s.i + BitVec.ofNat 16 ((regRange x y).idxOf r)) =
      s.getV r := by
  have hidx := List.idxOf_lt_length_iff.2 hr
  have hle := regRange_length_le x y
  have hdist : (s.i + BitVec.ofNat 16 ((regRange x y).idxOf r) - s.i).toNat = (regRange x y).idxOf r := by
    bv_omega
  rw [State.readByte_storeBytes _ _ _ _ (by rw [List.length_map]; omega), hdist, List.getElem?_map,
    List.getElem?_eq_getElem hidx, List.getElem_idxOf]
  rfl

/-- Settles O56: the load reads each register of the range where the store put it. -/
theorem loadRangeAfterSaveRangeRestores : Obligations.LoadRangeAfterSaveRangeRestores := by
  intro x y s t u w hsave hload r hr
  obtain rfl := Host.Outcome.next.inj hsave
  obtain rfl := Host.Outcome.next.inj hload
  refine (State.getV_loadRegs _ _ _ (regRange_nodup x y) r).trans ?_
  rw [if_pos hr]
  exact s.readByte_storeRange_idxOf hr

/-! ## BCD -/

theorem bcdDigits_eq (b : Byte) : bcdDigits b =
    [BitVec.ofNat 8 (b.toNat / 100), BitVec.ofNat 8 (b.toNat / 10 % 10), BitVec.ofNat 8 (b.toNat % 10)] := by
  have htens : (b / 10#8).toNat = b.toNat / 10 := BitVec.toNat_udiv
  rw [bcdDigits, BitVec.umod_def, BitVec.umod_def, htens, BitVec.udiv_def]
  rfl

/-- A byte after three stores from `a` upward. -/
theorem State.readByte_storeBytes_three (s : State) (a j : Word) (b₀ b₁ b₂ : Byte) :
    (s.storeBytes a [b₀, b₁, b₂]).readByte j =
      if j = a then b₀ else if j = a + 1#16 then b₁ else if j = a + 2#16 then b₂ else s.readByte j := by
  rw [State.readByte_storeBytes _ _ _ _ (by simp)]
  by_cases h₀ : j = a
  · simp [h₀]
  by_cases h₁ : j = a + 1#16
  · simp [h₁]
  by_cases h₂ : j = a + 2#16
  · simp [h₂]
  · have hfar : 3 ≤ (j - a).toNat := by bv_omega
    rw [List.getElem?_eq_none hfar, if_neg h₀, if_neg h₁, if_neg h₂]
    rfl

/-- Settles O57: BCD is the three stores of the digits. -/
theorem bcdStoresTheDigits : Obligations.BcdStoresTheDigits := by
  refine fun x s => ⟨_, rfl, s.storeBytes_frame _ _, fun a => ?_⟩
  rw [bcdDigits_eq]
  exact s.readByte_storeBytes_three s.i a _ _ _

/-! ## The flag store -/

/-- Settles O58: a place or a register is copied where it lies in the range from V0. -/
theorem flagStoreTransfers : Obligations.FlagStoreTransfers := by
  intro x s
  have hrange (k : Fin 16) : BitVec.ofFin k ∈ regRange 0#4 x ↔ k.val ≤ x.toNat := mem_regRange_zero x (BitVec.ofFin k)
  refine ⟨⟨_, rfl, s.saveFlagRegs_eq _, fun k => ?_⟩, ⟨_, rfl, s.loadFlagRegs_eq _, fun k => ?_⟩⟩
  · exact (s.flags_saveFlagRegs _ (BitVec.ofFin k)).trans (if_congr (hrange k) rfl rfl)
  · exact (s.getV_loadFlagRegs _ (BitVec.ofFin k)).trans (if_congr (hrange k) rfl rfl)

end Sys2Proof.Machine
end

section
/-! Generate as one call (49_audio.md R314, R315): the quotient of the phase by the rate is the number of cursor advances
after a sample, and whether a call is noted as in progress is no part of the loop. -/

namespace Sys2Proof.Machine

/-! ## After a sample -/

/-- The phase set to `p`. -/
def State.withPhase (s : State) (p : Nat) : State := { s with au := { s.au with phase := p } }

section
variable (s : State) (rate : Nat)

/-- The cursor advances after a sample: the turns of the inner loop of R314. -/
def State.advances : Nat := (s.au.phase + s.params.audioInternalHz) / rate

theorem State.afterSample_def : s.afterSample rate =
    (s.withPhase ((s.au.phase + s.params.audioInternalHz) % rate)).advanceCursor (s.advances rate) := rfl

theorem State.afterSample_phase :
    (s.afterSample rate).au.phase = (s.au.phase + s.params.audioInternalHz) % rate :=
  State.advanceCursor_phase ..

theorem State.afterSample_cursor :
    (s.afterSample rate).au.cursor = s.au.cursor + BitVec.ofNat 7 (s.advances rate) :=
  State.advanceCursor_cursor ..

/-- After an advance the bit is the pattern's at the new cursor; with none it stays. -/
theorem State.afterSample_bit :
    (s.afterSample rate).au.bit =
      if s.advances rate = 0 then s.au.bit else s.patternBit s.au.base (s.afterSample rate).au.cursor := by
  rw [State.afterSample_cursor, State.afterSample_def]
  split
  · next h0 =>
    rw [h0]
    rfl
  · next h0 => exact State.advanceCursor_bit _ (Nat.pos_of_ne_zero h0)

end

/-- Settles O52: the number of advances is the quotient of the phase by the rate, and the phase left is the remainder. -/
theorem generatePlaysThePattern : Obligations.GeneratePlaysThePattern := by
  intro s rate n hrate
  refine ⟨s.generate_length rate n, (s.generate_eq rate n).1, rfl, rfl, s.advances rate, ?_, ?_,
    s.afterSample_cursor rate, s.afterSample_base rate, s.afterSample_on rate, ?_⟩
  · rw [State.afterSample_phase]
    exact Nat.mod_add_div _ _
  · rw [State.afterSample_phase]
    exact Nat.mod_lt _ hrate
  · rw [State.afterSample_bit, State.patternBit, patternBitBy_eq]

/-! ## The call in progress is no part of the loop -/

/-- The call of Generate in progress set to `gen`. -/
def State.withGen (s : State) (gen : Option Generating) : State := { s with gen := gen }

section
variable (s : State) (gen : Option Generating) (rate n : Nat)

theorem State.advanceCursor_withGen : (s.withGen gen).advanceCursor n = (s.advanceCursor n).withGen gen := by
  induction n generalizing s with
  | zero => rfl
  | succ n ih => exact ih (s.advanceCursor 1)

theorem State.afterSample_withGen : (s.withGen gen).afterSample rate = (s.afterSample rate).withGen gen :=
  State.advanceCursor_withGen (s.withPhase _) gen _

theorem State.generate_withGen : (s.withGen gen).generate rate n =
    ((s.generate rate n).1, (s.generate rate n).2.withGen gen) := by
  induction n generalizing s with
  | zero => rfl
  | succ n ih =>
    simp only [State.generate, State.afterSample_withGen, ih]
    rfl

end

end Sys2Proof.Machine
end

section
/-! A call of Generate played move by move with nothing in between (49_audio.md R314, R316, R319): each move is a turn of the
inner loop, a sample or the return, and the moves from one sample to the next are `State.afterSample`. -/

namespace Sys2Proof.Machine

/-! ## One move of the call in progress -/

section
variable {s : State} {g : Generating}

theorem State.continueCall_turn (h : s.au.on = true ∧ g.advancing = true ∧ g.call.rate ≤ s.au.phase) :
    s.continueCall g = s.advanceOnce g.call.rate :=
  if_pos h

theorem State.continueCall_sample (h : ¬(s.au.on = true ∧ g.advancing = true ∧ g.call.rate ≤ s.au.phase)) {left : Nat}
    (hleft : g.left = left + 1) : s.continueCall g = s.emitSample g left := by
  unfold State.continueCall
  rw [if_neg h, hleft]

theorem State.continueCall_return (h : ¬(s.au.on = true ∧ g.advancing = true ∧ g.call.rate ≤ s.au.phase))
    (hleft : g.left = 0) : s.continueCall g = s.returnCall g := by
  unfold State.continueCall
  rw [if_neg h, hleft]

end

/-! ## The moves of a call -/

/-- The call `g` is in progress on an installed source, with every byte write of the interpreter passed. -/
structure State.Playing (s : State) (g : Generating) : Prop where
  inProgress : s.gen = some g
  installed : s.au.on = true
  settled : s.unseen = []

/-- The call in progress, moved on with nothing in between, comes to the state `t`. -/
def State.PlaysTo (s t : State) : Prop := ∃ k, s.playOn k = t

section
variable {s t : State} {g : Generating}

/-- A call that comes to `t` after its next move comes to `t`. -/
theorem State.PlaysTo.of_continueCall (hg : s.gen = some g) (h : (s.continueCall g).PlaysTo t) : s.PlaysTo t := by
  obtain ⟨k, hk⟩ := h
  refine ⟨k + 1, ?_⟩
  rw [State.playOn, hg]
  exact hk

/-- With every byte write passed, a turn of the inner loop is one of the loop's cursor advances. -/
theorem State.advanceOnce_withPhase (hs : s.unseen = []) (rate p : Nat) :
    (s.advanceOnce rate).withPhase p = (s.withPhase p).advanceCursor 1 := by
  rw [State.advanceOnce, State.audioBit_settled hs]
  rfl

/-- The inner loop takes the rate off the phase as often as it fits, and the cursor advances as often. -/
theorem State.PlaysTo.of_turns (hs : s.Playing g) (hadv : g.advancing = true) {q : Nat}
    (hq : s.au.phase / g.call.rate = q)
    (h : ((s.withPhase (s.au.phase % g.call.rate)).advanceCursor q).PlaysTo t) : s.PlaysTo t := by
  have hrate : 0 < g.call.rate := Nat.succ_pos _
  induction q generalizing s with
  | zero =>
    have hlt : s.au.phase < g.call.rate := (Nat.div_eq_zero_iff_lt hrate).1 hq
    rw [Nat.mod_eq_of_lt hlt] at h
    exact h
  | succ q ih =>
    have hle : g.call.rate ≤ s.au.phase := Nat.le_of_not_lt fun hlt => by simp [Nat.div_eq_of_lt hlt] at hq
    have hq' : (s.au.phase - g.call.rate) / g.call.rate = q :=
      Nat.succ.inj ((Nat.div_eq_sub_div hrate hle).symm.trans hq)
    refine .of_continueCall hs.inProgress ?_
    rw [State.continueCall_turn ⟨hs.installed, hadv, hle⟩]
    refine ih { hs with } hq' ?_
    rw [State.advanceOnce_withPhase hs.settled]
    rw [Nat.mod_eq_sub_mod hle] at h
    exact h

/-- What is in progress of the call `g` after its next sample, with `left` samples then to come. -/
def Generating.afterSample (g : Generating) (left : Nat) (x : Int) : Generating :=
  { g with left := left, advancing := true, out := g.out ++ [x] }

/-- A sample and the turns after it bring the call to where the loop of R314 is before the next sample. -/
theorem State.PlaysTo.of_sample (hs : s.Playing g) (hturn : g.advancing = true → s.au.phase < g.call.rate) {left : Nat}
    (hleft : g.left = left + 1)
    (h : ((s.afterSample g.call.rate).withGen (some (g.afterSample left s.currentSample))).PlaysTo t) :
    s.PlaysTo t := by
  have hphase : (s.emitSample g left).au.phase = s.au.phase + s.params.audioInternalHz := if_pos hs.installed
  refine .of_continueCall hs.inProgress ?_
  rw [State.continueCall_sample (fun hc => Nat.not_le_of_lt (hturn hc.2.1) hc.2.2) hleft]
  refine .of_turns (g := g.afterSample left s.currentSample) (q := s.advances g.call.rate) ⟨rfl, hs.installed, hs.settled⟩
    rfl (congrArg (· / g.call.rate) hphase) ?_
  rw [hphase]
  rw [State.afterSample_def, ← State.advanceCursor_withGen] at h
  exact h

/-! ## The whole call -/

/-- The state with a call returned: its playback state, its samples, and no call in progress. -/
def State.withResult (s : State) (au : Audio) (samples : List Int) : State :=
  { s with au := au, samples := samples, gen := none }

/-- Where the call `g` ends: the playback state and the samples of Generate's loop, after those emitted before. -/
def State.callEnd (s : State) (g : Generating) : State :=
  s.withResult (s.generate g.call.rate g.left).2.au (g.out ++ (s.generate g.call.rate g.left).1)

/-- A result replaces all that a sample and the note of the call change. -/
theorem State.afterSample_withResult (s : State) (rate : Nat) (gen : Option Generating) (au : Audio) (xs : List Int) :
    ((s.afterSample rate).withGen gen).withResult au xs = s.withResult au xs := by
  rw [State.afterSample_eq]
  rfl

/-- Where a call ends does not change with its next sample. -/
theorem State.callEnd_afterSample {left : Nat} (hleft : g.left = left + 1) (gen : Option Generating) :
    ((s.afterSample g.call.rate).withGen gen).callEnd (g.afterSample left s.currentSample) = s.callEnd g := by
  have hsamples : g.out ++ [s.currentSample] ++ ((s.afterSample g.call.rate).generate g.call.rate left).1 =
      g.out ++ (s.generate g.call.rate (left + 1)).1 := List.append_assoc ..
  rw [State.callEnd, State.callEnd, hleft, State.generate_withGen, State.afterSample_withResult]
  exact congrArg (s.withResult _) hsamples

theorem State.Playing.playsTo_callEnd (hs : s.Playing g) (hturn : g.advancing = true → s.au.phase < g.call.rate) :
    s.PlaysTo (s.callEnd g) := by
  induction hleft : g.left generalizing s g with
  | zero =>
    refine .of_continueCall hs.inProgress ⟨0, ?_⟩
    rw [State.continueCall_return (fun hc => Nat.not_le_of_lt (hturn hc.2.1) hc.2.2) hleft, State.callEnd, hleft]
    simp only [State.generate, List.append_nil]
    rfl
  | succ left ih =>
    refine .of_sample hs hturn hleft ?_
    rw [← State.callEnd_afterSample hleft (some (g.afterSample left s.currentSample))]
    refine ih ⟨rfl, ?_, ?_⟩ (fun _ => ?_) rfl
    · exact (s.afterSample_on _).trans hs.installed
    · rw [State.afterSample_eq]
      exact hs.settled
    · exact (s.afterSample_phase _).trans_lt (Nat.mod_lt _ (Nat.succ_pos _))

end

/-- Settles O60: a call just begun has emitted nothing, so its end is Generate's. -/
theorem anUninterruptedCallIsGenerate : Obligations.AnUninterruptedCallIsGenerate := by
  intro s c hon hunseen
  have hplaying : (s.beginCall c).Playing { call := c, left := c.count, advancing := false, out := [] } :=
    ⟨rfl, hon, hunseen⟩
  obtain ⟨k, hk⟩ := hplaying.playsTo_callEnd Bool.noConfusion
  refine ⟨k, hk.trans ?_⟩
  rw [State.callEnd, show s.beginCall c = s.withGen _ from rfl, State.generate_withGen]
  rfl

end Sys2Proof.Machine
end

section
/-! The steps of the audio agent, and what the interpreter leaves of the generator while a call is in progress (49_audio.md
R314, R316, R317, R319; 20_memory.md R74, R75). -/

namespace Sys2Proof.Machine

/-! ## The agent's turn and its move -/

section
variable {s : State} {g : Generating}

theorem State.audioTurn_of_gen (hg : s.gen = some g) : s.audioTurn = (s.inp.audio.isSome || s.needsGenerator) := by
  unfold State.audioTurn
  rw [hg]

theorem State.audioTurn_of_idle (hg : s.gen = none) : s.audioTurn = (s.au.on && s.inp.audio.isSome) := by
  unfold State.audioTurn
  rw [hg]

theorem State.audioMove_of_gen (hg : s.gen = some g) : s.audioMove = s.passStores.continueCall g := by
  unfold State.audioMove
  rw [hg]

theorem State.audioMove_of_idle (hg : s.gen = none) {c : AudioCall} (hc : s.inp.audio = some c) :
    s.audioMove = s.passStores.beginCall c := by
  unfold State.audioMove
  rw [hg, hc]

/-- A call returns from no move but the one with no sample left, with its samples. -/
theorem State.audioMove_returns (hg : s.gen = some g) (hend : s.audioMove.gen = none) :
    g.left = 0 ∧ s.audioMove.samples = g.out := by
  obtain ⟨hn, -⟩ | ⟨hn, -⟩ | ⟨g', -, hm⟩ | ⟨g', left, x, -, -, hm⟩ | ⟨g', hg', hleft, -, hsamples⟩ := s.audioMove_gen
  · simp [hn] at hg
  · simp [hn] at hg
  · simp [hm] at hend
  · simp [hm] at hend
  · obtain rfl := Option.some.inj (hg.symm.trans hg')
    exact ⟨hleft, hsamples⟩

/-- While no source is installed, a move leaves the playback state (49_audio.md R316). -/
theorem State.audioMove_au_of_off (hg : s.gen = some g) (hoff : s.au.on = false) : s.audioMove.au = s.au := by
  have hremoved : ¬s.passStores.au.on = true := by simp [hoff]
  have hstill : ¬(s.passStores.au.on = true ∧ g.advancing = true ∧ g.call.rate ≤ s.passStores.au.phase) :=
    fun h => hremoved h.1
  rw [State.audioMove_of_gen hg]
  cases hleft : g.left with
  | zero =>
    rw [State.continueCall_return hstill hleft]
    rfl
  | succ left =>
    rw [State.continueCall_sample hstill hleft]
    exact congrArg (fun p => { s.au with phase := p }) (if_neg hremoved)

/-! ## What the interpreter leaves of the generator -/

/-- `t` has the generator of `s`, its call in progress and its playback state, but for its installation. -/
structure State.GeneratorKept (s t : State) : Prop where
  gen : t.gen = s.gen
  au : t.au = { s.au with on := t.au.on }

theorem State.startTick_generatorKept (s : State) : s.GeneratorKept s.startTick := by
  rw [State.startTick_eq]
  constructor <;> rfl

theorem State.finishTick_generatorKept (s : State) : s.GeneratorKept s.finishTick := by
  by_cases hr : s.run = .halted
  · rw [State.finishTick_halted hr]
    constructor <;> rfl
  · rw [State.finishTick_of_ne_halted hr, State.timerTick, State.tickSound_result, State.tickDelay_eq]
    constructor <;> rfl

/-- No instruction but AUDIO writes the base, the cursor, the phase or the bit (10_state.md R35). -/
theorem exec_generatorKept {i : Instr} {t : State} (he : exec i s = .next t) (hi : i ≠ .audio) : s.GeneratorKept t := by
  obtain ⟨-, -, -, -, -, hwrites⟩ := specialRegistersAreWrittenAsListed i s t he
  have hkept := mt hwrites hi
  push Not at hkept
  obtain ⟨hbase, hcursor, hphase, hbit⟩ := hkept
  refine ⟨(exec_ownFieldsKept he).gen, ?_⟩
  calc t.au
    _ = Audio.mk t.au.base t.au.cursor t.au.phase t.au.bit t.au.on := rfl
    _ = { s.au with on := t.au.on } := by rw [hbase, hcursor, hphase, hbit]

theorem State.fetch_instr_eq_some_iff (s : State) (i : Instr) : s.fetch.instr = some i ↔
    0x200#16 ≤ s.pc ∧ decodeWord (s.read16 s.pc) (s.read16 (s.pc + 2#16)) = some i := by
  by_cases hpc : s.pc < 0x200#16
  · rw [State.fetch_protected hpc]
    simp [Fetched.instr, BitVec.not_le.2 hpc]
  · cases hd : decodeWord (s.read16 s.pc) (s.read16 (s.pc + 2#16)) with
    | none =>
      rw [State.fetch_invalid hpc hd]
      simp [Fetched.instr]
    | some j =>
      rw [State.fetch_decoded hpc hd]
      simp [Fetched.instr, BitVec.not_lt.1 hpc]

theorem State.runOne_generatorKept {t : State} (h : s.runOne = .next t) (hi : s.fetch.instr ≠ some .audio) :
    s.GeneratorKept t := by
  by_cases hpc : s.pc < 0x200#16
  · obtain rfl := Host.Outcome.next.inj ((State.runOne_protected hpc).symm.trans h)
    constructor <;> rfl
  · cases hd : decodeWord (s.read16 s.pc) (s.read16 (s.pc + 2#16)) with
    | none =>
      obtain rfl := Host.Outcome.next.inj ((State.runOne_invalid hpc hd).symm.trans h)
      constructor <;> rfl
    | some i =>
      have hne : i ≠ .audio := by
        rintro rfl
        exact hi ((s.fetch_instr_eq_some_iff .audio).2 ⟨BitVec.not_lt.1 hpc, hd⟩)
      exact { exec_generatorKept ((State.runOne_decoded hpc hd).symm.trans h) hne with }

/-- While a call is in progress, the interpreter's move leaves the generator but for its installation: a Load and AUDIO wait
(49_audio.md R317, 10_state.md R35). -/
theorem State.interpret_generatorKept {t : State} (hg : s.gen = some g) (ha : s.audioQuiet) (h : s.interpret = .next t) :
    s.GeneratorKept t := by
  obtain ⟨ht, hi⟩ | ⟨-, hi⟩ | ⟨left, ht, hr, hi⟩ := s.interpret_cases
  · obtain rfl := Host.Outcome.next.inj (hi.symm.trans h)
    have hcall : s.inp.call = .tick := State.quiet_not_load hg ha ht
    rw [State.hostCall_tick (s := s.settleStores) hcall]
    exact { s.settleStores.startTick_generatorKept with }
  · obtain rfl := Host.Outcome.next.inj (hi.symm.trans h)
    exact { s.settleStores.finishTick_generatorKept with }
  · obtain ⟨u, hu, rfl⟩ := mapNext_eq_next.1 (hi.symm.trans h)
    have hfetch : s.settleStores.fetch.instr ≠ some .audio :=
      mt (fun hf => (s.fetch_instr_eq_some_iff .audio).2 ((s.settleStores.fetch_instr_eq_some_iff .audio).1 hf))
        (State.quiet_not_audio hg ha ht hr)
    exact { State.runOne_generatorKept hu hfetch with }

/-! ## The steps -/

/-- The interpreter's step while a call is in progress. -/
theorem step_generatorKept {t : State} (hg : s.gen = some g) (ha : s.audioQuiet) (h : step s = .next t) :
    s.GeneratorKept t := by
  obtain ⟨u, hu, rfl⟩ := mapNext_eq_next.1 ((step_interpret ha).symm.trans h)
  exact { State.interpret_generatorKept hg ha hu with }

/-- The interpreter needs the generator where a Load comes and where an AUDIO is fetched (20_memory.md R75). -/
theorem State.needsGenerator_iff (s : State) : s.needsGenerator = true ↔
    (s.tick = .between ∧ ∃ image, s.inp.call = .load image) ∨
    ∃ left, s.tick = .inTick (left + 1) ∧ s.run = .running ∧ 0x200#16 ≤ s.pc ∧
      decodeWord (s.read16 s.pc) (s.read16 (s.pc + 2#16)) = some .audio := by
  unfold State.needsGenerator
  split
  · next ht =>
    cases hc : s.inp.call <;> simp [ht]
  · next ht => simp [ht]
  · next left ht => simp [ht, s.fetch_instr_eq_some_iff]

end

/-- Settles O53: the agent's steps are `audioMove`, cut by `continueCall`'s three moves, and the interpreter's steps leave
the generator while a call is in progress. -/
theorem audioStepsPlayTheCall : Obligations.AudioStepsPlayTheCall := by
  intro s
  refine ⟨fun c hg hon hc => ?_, fun g hg hturn => ?_, fun g t hg hstep => ?_, fun g t hg hc hneeds hstep => ?_,
    s.needsGenerator_iff⟩
  · have hturn : s.audioTurn = true := by simp [State.audioTurn_of_idle hg, hon, hc]
    rw [step_audio hturn, State.audioMove_of_idle hg hc]
    rfl
  · have hagent : s.audioTurn = true := by simpa [State.audioTurn_of_gen hg, Option.isSome_iff_ne_none] using hturn
    rw [step_audio hagent, State.audioMove_of_gen hg]
    refine congrArg Host.Outcome.next ?_
    split
    · next h =>
      rw [State.continueCall_turn (s := s.passStores) h, State.advanceOnce, State.audioBit, patternBitBy_eq]
      rfl
    · next h =>
      cases hleft : g.left with
      | zero =>
        rw [State.continueCall_return (s := s.passStores) h hleft]
        rfl
      | succ left =>
        rw [State.continueCall_sample (s := s.passStores) h hleft]
        rfl
  · obtain ⟨-, hs⟩ | ⟨ha, -⟩ := step_cases s
    · obtain rfl := Host.Outcome.next.inj (hs.symm.trans hstep)
      refine ⟨s.audioMove_base, State.audioMove_returns hg, fun hoff => ?_⟩
      have hau : s.audioMove.nextTurn.au = s.au := State.audioMove_au_of_off hg hoff
      rw [hau]
    · obtain ⟨hgen, hau⟩ := step_generatorKept hg ha hstep
      refine ⟨(congrArg Audio.base hau :), fun hend => ?_, fun _ => hau⟩
      rw [hgen, hg] at hend
      cases hend
  · have ha : s.audioQuiet := by
      rw [State.audioQuiet, State.audioTurn_of_gen hg, hc, hneeds]
      rfl
    obtain ⟨hgen, hau⟩ := step_generatorKept hg ha hstep
    exact ⟨hgen, hau⟩

end Sys2Proof.Machine
end
